-- ==== Sys2Proof/Word.lean ====
section
/-! DEFINITION. The two data widths of the format: the byte and the pixel. -/

namespace Sys2Proof

/-- R5: "A byte is 8 bits, unsigned." -/
abbrev Byte := BitVec 8

/-- R21: a 4-tuple of unsigned 8-bit channels in the order R, G, B, A. Its equality is exact over all
four channels. R64: four named byte lanes; the model packs them into no wider word. -/
structure Pixel where
  r : Byte
  g : Byte
  b : Byte
  a : Byte
deriving DecidableEq, Repr, Inhabited

end Sys2Proof
end

