-- ==== Sys2Proof/Config.lean ====
section
/-! DEFINITION. The format's fixed constants, the parameters the spec leaves open, and the free values. -/

namespace Sys2Proof

/-- R6: the greatest count of one record. -/
def maxCount : Nat := 128

/-- R7: the encoder's compression threshold, a build-time constant. -/
def threshold : Nat := 3

/-- R8: the encoder's literal lookahead window in pixels, a build-time constant. -/
def lookahead : Nat := 8

/-- The granularity of one decoder step. 40_decoder.md: "A model may take either level as its step."
DESIGN CHOICE (log 4): this model holds both, and this parameter says which one a machine uses. -/
inductive Level where
  /-- one record a step: rules R101 to R104 -/
  | record
  /-- one byte read or one pixel emitted a step: rules R120 to R127 -/
  | byte
deriving DecidableEq, Repr

/-- R9: the named parameters the spec leaves open, as arguments of the model. No step changes them.
`none` is the spec's own default: unbounded. -/
structure Config where
  /-- W_ADDR, the width in bits of every index register. `none`: unbounded naturals (D2). -/
  wAddr : Option Nat
  /-- OUT_CAP_PIX, the capacity of the decoder's output buffer in pixels. -/
  outCapPix : Option Nat
  /-- OUT_CAP_BYTES, the capacity of the encoder's output buffer in bytes. -/
  outCapBytes : Option Nat
  /-- the decoder's step granularity -/
  level : Level
deriving DecidableEq, Repr

/-- R9: unbounded indices and unbounded capacities, and the normative record level. -/
def Config.standard : Config :=
  { wAddr := none, outCapPix := none, outCapBytes := none, level := .record }

/-! FREE VALUES (log 7). R39 and R40 call the registers below "unspecified" after START. Each START
takes a fresh value of each from these constants, which have no body: no proof can see what they are. -/

/-- R39, U11: `cmd` after START. -/
opaque Config.freeCmd : Nat → BitVec 8
/-- R39, U11: `cnt` after START. -/
opaque Config.freeCnt : Nat → BitVec 8
/-- R39, U11: `rem` after START. -/
opaque Config.freeRem : Nat → BitVec 8
/-- R39, U11: `k` after START. -/
opaque Config.freeK : Nat → BitVec 2
/-- R39, U11: `pixbuf` after START. -/
opaque Config.freePixbuf : Nat → Pixel
/-- R40, U11: `runPix` after START. -/
opaque Config.freeRunPix : Nat → Pixel
/-- R40, U11: `runRem` after START. -/
opaque Config.freeRunRem : Nat → Nat
/-- R40, U11: `litStart` after START. -/
opaque Config.freeLitStart : Nat → Nat
/-- R40, U11: `litLen` after START. -/
opaque Config.freeLitLen : Nat → BitVec 8

end Sys2Proof
end

