-- ==== Sys2Proof/Syntax.lean ====
section
/-! DEFINITION. The instruction set: the OVG record, with its two operations (R1, R80), and the lines of the
spec's own notation (R90 to R92). -/

namespace Sys2Proof

/-- A record as the decoder finds it: all of it, or as much as the input still holds (R103 and R104 give a
record that the input's end cuts off an effect of its own, truncation). Rows RUN and LIT of
spec/opcode_table.json.

`cut` holds the 0 to 3 bytes of the group that the input's end leaves incomplete; it is `[]` in a whole
record. -/
inductive Instr where
  /-- R83, R103: count `n` and the one pixel; `none` when fewer than 4 payload bytes remain. -/
  | run (n : Nat) (p : Option Pixel) (cut : List Byte)
  /-- R84, R104: count `n` and the complete pixel groups, fewer than `n` when the input ends first. -/
  | lit (n : Nat) (ps : List Pixel) (cut : List Byte)
deriving DecidableEq, Repr

/-- R90: `RUN n, (r, g, b, a)`, a whole RUN record. -/
abbrev Instr.wholeRun (n : Nat) (p : Pixel) : Instr := .run n (some p) []

/-- R90: `LIT n, (r0, g0, b0, a0), ...`, a whole LIT record when `ps` has `n` pixels. -/
abbrev Instr.wholeLit (n : Nat) (ps : List Pixel) : Instr := .lit n ps []

/-- One line of the spec's notation (R90 to R92). -/
inductive AsmLine where
  /-- R90: a record -/
  | record (i : Instr)
  /-- R91: the pseudo-instruction `RUNS R, p` -/
  | runs (len : Nat) (p : Pixel)
  /-- R90: `@k`, a note of the byte index where the next record starts -/
  | atIndex (k : Nat)
  /-- R92: `; truncated: <bytes>`, the raw bytes left over -/
  | truncated (bytes : List Byte)
deriving DecidableEq, Repr

end Sys2Proof
end

