-- ==== Sys2Proof/WellFormed.lean ====
section
/-! DEFINITION. Which instructions are whole records that the notation spells, and which can be found at a
record boundary. -/

namespace Sys2Proof

/-- R82, R90: a count is 1 to 128. -/
def countOk (n : Nat) : Bool := decide (1 ≤ n) && decide (n ≤ maxCount)

/-- R90: a whole record. "A line whose count is outside 1 to 128, or whose LIT pixel list has another length,
is refused. It spells no record." -/
def Instr.wellFormed : Instr → Bool
  | .run n p cut => countOk n && p.isSome && cut.isEmpty
  | .lit n ps cut => countOk n && decide (ps.length = n) && cut.isEmpty

/-- What can stand at a record boundary: a whole record, or one that the input's end cuts off inside a group
(R103, R104, R108). Whole records are the case with every group present. -/
def Instr.fetchable : Instr → Bool
  | .run n p cut => countOk n && decide (cut.length < 4) && (p.isNone || cut.isEmpty)
  | .lit n ps cut =>
    countOk n && decide (cut.length < 4) && decide (ps.length ≤ n) && (decide (ps.length < n) || cut.isEmpty)

end Sys2Proof
end

