-- ==== Sys2Proof/Decode.lean ====
section
/-! DEFINITION. The record's encoding (30_encoding.md): the command byte's fields, decoding, and encoding. -/

namespace Sys2Proof

/-- R81, R10: bit 7 of the command byte, F: 1 = run, 0 = literal. -/
def cmdFlag (c : Byte) : Bool := c.getLsbD 7

/-- R82: `n = zext_8(cmd[6:0]) + 1`, an 8-bit value between 1 and 128. -/
def cmdCount (c : Byte) : BitVec 8 := (c.extractLsb' 0 7).setWidth 8 + 1

/-- R89: `CmdByte(F, c)`, which is F in bit 7 and `c - 1` in bits 6 to 0. Defined by the spec for counts 1 to
128 only; whoever calls it has checked the count. -/
def cmdByte (f : Bool) (n : Nat) : Byte := BitVec.ofBool f ++ BitVec.ofNat 7 (n - 1)

/-- R85: the command byte alone gives the record's length in bytes. -/
def recLen (c : Byte) : Nat := if cmdFlag c then 5 else 1 + 4 * (cmdCount c).toNat

/-- R63: up to `n` pixel groups from the front of a byte list, each in the order R, G, B, A, and the bytes of
the group the list's end leaves incomplete. -/
def pixelGroups : Nat → List Byte → List Pixel × List Byte
  | 0, _ => ([], [])
  | n + 1, r :: g :: b :: a :: rest =>
    let t := pixelGroups n rest
    (⟨r, g, b, a⟩ :: t.1, t.2)
  | _ + 1, short => ([], short)

/-- Why a byte list holds no record. -/
inductive DecodeError where
  /-- no byte is left: R101, end of input at a record boundary. Nothing else is refused (R87). -/
  | endOfInput
deriving DecidableEq, Repr

/-- R102 with R83 and R84: the record at the front of a byte list. The list may be longer than the record,
and may end inside it. Every command byte decodes (R86). -/
def decode : List Byte → Except DecodeError Instr
  | [] => .error .endOfInput
  | c :: rest =>
    let n := (cmdCount c).toNat
    if cmdFlag c then
      match pixelGroups 1 rest with
      | (p :: _, _) => .ok (.run n (some p) [])
      | ([], cut) => .ok (.run n none cut)
    else
      let t := pixelGroups n rest
      .ok (.lit n t.1 t.2)

/-- R63: a pixel's four bytes, R, then G, then B, then A. -/
def pixelBytes (p : Pixel) : List Byte := [p.r, p.g, p.b, p.a]

/-- R80: "Record = 1 command byte + payload". -/
def recordBytes (f : Bool) (n : Nat) (ps : List Pixel) : List Byte :=
  cmdByte f n :: ps.flatMap pixelBytes

/-- R83, R84, R90: the bytes of a record; of one that is cut off, the bytes that are there. -/
def encode : Instr → List Byte
  | .run n p cut => recordBytes true n p.toList ++ cut
  | .lit n ps cut => recordBytes false n ps ++ cut

/-- R82: the count field's pixel count. -/
def Instr.count : Instr → Nat
  | .run n _ _ => n
  | .lit n _ _ => n

/-- R83, R84: how many bytes the whole record has. -/
def Instr.size : Instr → Nat
  | .run _ _ _ => 5
  | .lit n _ _ => 1 + 4 * n

/-- The pixels a record yields in an unbounded output: `n` copies for a whole RUN, none for one that is cut
off (R103), and every complete group for a LIT (R104). -/
def Instr.expand : Instr → List Pixel
  | .run n p _ => p.toList.flatMap (List.replicate n)
  | .lit _ ps _ => ps

/-- Byte `i` of a number whose bit 0 is the least significant bit of byte 0. -/
def byteOfWord (w i : Nat) : Byte := BitVec.ofNat 8 (w / 2 ^ (8 * i))

/-- The record whose first `nbits` bits are those of `w`, every later bit 0, as many bytes as its command byte
says (R85). -/
def recordOfWord (nbits w : Nat) : List Byte :=
  let v := w % 2 ^ nbits
  (List.range (recLen (byteOfWord v 0))).map (byteOfWord v)

/-- The instruction the decoder reads from the record whose bits are `w`. -/
def decodeTableWord (nbits w : Nat) : Option Instr :=
  match decode (recordOfWord nbits w) with
  | .ok i => some i
  | .error _ => none

end Sys2Proof
end

