-- ==== Sys2Proof/Machine/State.lean ====
section
/-! DEFINITION. The state of the machine: the two agents of R20, their buffers, and what the host has asked for.
Every field is plain data. INVENTORY.md lists each with its rule and reset value. -/

namespace Sys2Proof.Machine

/-- Elements by index, in one canonical form (`Buffer.wf`): indices strictly rising. An index with no entry has
no value (log 6): the host has not written it. -/
abbrev Buffer (α : Type) := List (Nat × α)

/-- R60: a byte buffer, one byte per index. -/
abbrev Memory := List Host.Cell

/-- R20: the two agents. -/
inductive Agent where
  | dec
  | enc
deriving DecidableEq, Repr

/-- R27: the decoder's states. -/
inductive DMode where
  | idle
  | cmd
  | runpix
  | expand
  | litpix
  | done
  | error
deriving DecidableEq, Repr

/-- R31: the encoder's states. -/
inductive EMode where
  | idle
  | scan
  | run
  | lit
  | done
  | error
deriving DecidableEq, Repr

/-- R28: how the last decoder conversion ended. -/
inductive EndKind where
  | none
  | clean
  | truncated
deriving DecidableEq, Repr

/-- What the host can do to the block (R191, R200 to R205). -/
inductive HostCmd where
  /-- R200: a hardware reset of one agent -/
  | reset (ag : Agent)
  /-- R201: the START pulse of one agent -/
  | start (ag : Agent)
  /-- R34: a write of one agent's IN_LEN -/
  | writeInLen (ag : Agent) (v : Nat)
  /-- R204 step 2: a write of one byte of IN -/
  | writeIn (i : Nat) (b : Byte)
  /-- R204 step 2: a write of one pixel of PIN -/
  | writePin (i : Nat) (p : Pixel)
deriving DecidableEq, Repr

/-- One entry of the agenda: who moves next. -/
inductive Move where
  | host (c : HostCmd)
  | dec
  | enc
deriving DecidableEq, Repr

/-- The decoder, DEC. -/
structure Dec where
  /-- R34: START, the host's pulse, seen by the agent at the next step -/
  start : Bool
  /-- R34: IN_LEN, which a conversion reads as L (R201) -/
  inLen : Nat
  /-- R25, R60: the input buffer -/
  IN : Memory
  /-- R24: the program counter, a byte index of IN -/
  ip : Nat
  /-- R26, R62: the output pixels, oldest first -/
  OUT : List Pixel
  /-- R27: the state machine's state -/
  dmode : DMode
  /-- R27: the last command byte read -/
  cmd : BitVec 8
  /-- R27: the record's count -/
  cnt : BitVec 8
  /-- R27: pixels of the record not yet emitted -/
  rem : BitVec 8
  /-- R27, R38: the pixel assembly register -/
  pixbuf : Pixel
  /-- R27: the next lane of `pixbuf` to fill -/
  k : BitVec 2
  /-- R28: how the last conversion ended; on no output port -/
  endKind : EndKind
  /-- R34, R35: the error code -/
  err : BitVec 2
  /-- R34, R35: the error information -/
  errInfo : Nat
deriving DecidableEq, Repr

/-- The encoder, ENC. -/
structure Enc where
  /-- R34: START, the host's pulse, seen by the agent at the next step -/
  start : Bool
  /-- R34: IN_LEN, which a conversion reads as N (R201) -/
  inLen : Nat
  /-- R29, R61: the input buffer -/
  PIN : Buffer Pixel
  /-- R30: the position, a pixel index of PIN -/
  pos : Nat
  /-- R31: the output bytes, oldest first -/
  BOUT : List Byte
  /-- R31: the state machine's state -/
  emode : EMode
  /-- R31, R38: the pixel of the run being emitted -/
  runPix : Pixel
  /-- R31: pixels of the run not yet emitted -/
  runRem : Nat
  /-- R31: index of the first pixel of the open literal block -/
  litStart : Nat
  /-- R31: pixels in the open literal block -/
  litLen : BitVec 8
  /-- R34, R35: the error code -/
  err : BitVec 2
  /-- R34, R35: the error information -/
  errInfo : Nat
deriving DecidableEq, Repr

/-- The whole machine. `agenda` and `freeCtr` are the model's own (log 2, log 7). -/
structure State where
  /-- R9: the open parameters; no step changes them -/
  cfg : Config
  /-- R20: the decoder -/
  dec : Dec
  /-- R20: the encoder -/
  enc : Enc
  /-- who moves next, oldest first: any interleaving of host, DEC and ENC is some list -/
  agenda : List Move
  /-- how many STARTs have taken fresh free values -/
  freeCtr : Nat
deriving DecidableEq, Repr

/-- Why the machine stops without an answer. No run in which the host keeps its duties reaches one. -/
inductive Fault where
  /-- A read below IN_LEN of an index the host never wrote (R204 step 2). Raised by the decoder's and the
  encoder's input reads. Safe: START refuses such a launch, so only states no launch makes reach it. -/
  | inputAbsent (ag : Agent)
  /-- A read at or beyond L or N, where R60 and R61 define none ("A read at `addr >= L` never happens").
  Raised by the same reads. Safe. -/
  | readBeyondInput (ag : Agent)
  /-- A host write at an index that W_ADDR bits cannot name (R9). Raised by the host's buffer writes. Safe. -/
  | noSuchIndex (ag : Agent) (i : Nat)
deriving DecidableEq, Repr

/-- Why the machine gives a step no meaning. -/
inductive Refusal where
  /-- An instruction with no meaning yet; raised by exec's arms only. Safe. -/
  | notModelled (mnemonic : String)
  /-- R205, D16, U7: the host writes IN or PIN while the agent is BUSY, and "the conversion is refused". Raised
  by the host's buffer writes. Safe. -/
  | inputWrittenWhileBusy (ag : Agent)
  /-- R204, U8: "A launch that breaks step 1 or 2 is outside the model." Raised by START. Safe. -/
  | launchOutsideModel (ag : Agent)
deriving DecidableEq, Repr

/-- R39, and R34 for START: DEC after a hardware reset; the input buffer is what it was. The values of `cmd`,
`cnt`, `rem`, `k` and `pixbuf` are DESIGN CHOICE (log 5): R39 leaves them unspecified. -/
def Dec.afterReset (buf : Memory) : Dec :=
  { start := false, inLen := 0, IN := buf, ip := 0, OUT := [], dmode := .idle, cmd := 0, cnt := 0, rem := 0,
    pixbuf := ⟨0, 0, 0, 0⟩, k := 0, endKind := .none, err := 0, errInfo := 0 }

/-- R40, and R34 for START: ENC after a hardware reset; the input buffer is what it was. The values of `runPix`,
`runRem`, `litStart` and `litLen` are DESIGN CHOICE (log 5): R40 leaves them unspecified. -/
def Enc.afterReset (buf : Buffer Pixel) : Enc :=
  { start := false, inLen := 0, PIN := buf, pos := 0, BOUT := [], emode := .idle, runPix := ⟨0, 0, 0, 0⟩,
    runRem := 0, litStart := 0, litLen := 0, err := 0, errInfo := 0 }

/-- The machine after reset with the parameters `cfg`: both agents in IDLE and no buffer index written. -/
def State.resetWith (cfg : Config) : State :=
  { cfg := cfg, dec := Dec.afterReset [], enc := Enc.afterReset [], agenda := [], freeCtr := 0 }

/-- The machine after reset with the spec's default parameters (R9). -/
def State.reset : State := State.resetWith Config.standard

end Sys2Proof.Machine
end

