-- ==== Sys2Proof/Machine/Flags.lean ====
section
/-! DEFINITION. The status fields that are functions of the state (R34), and the error codes (R35). The block has
no condition codes (R37). -/

namespace Sys2Proof.Machine

/-- R34: BUSY is "1 while the state is neither IDLE, DONE nor ERROR". -/
def Dec.busy (d : Dec) : Bool :=
  match d.dmode with
  | .idle | .done | .error => false
  | .cmd | .runpix | .expand | .litpix => true

/-- R34: DONE is "1 when the state is DONE or ERROR". -/
def Dec.doneBit (d : Dec) : Bool :=
  match d.dmode with
  | .done | .error => true
  | .idle | .cmd | .runpix | .expand | .litpix => false

/-- R26: OUT_COUNT. -/
def Dec.outCount (d : Dec) : Nat := d.OUT.length

/-- R34: BUSY of the encoder. -/
def Enc.busy (e : Enc) : Bool :=
  match e.emode with
  | .idle | .done | .error => false
  | .scan | .run | .lit => true

/-- R34: DONE of the encoder. -/
def Enc.doneBit (e : Enc) : Bool :=
  match e.emode with
  | .done | .error => true
  | .idle | .scan | .run | .lit => false

/-- R32: OUT_LEN. -/
def Enc.outLen (e : Enc) : Nat := e.BOUT.length

/-- R34: the BUSY bit of an agent. -/
def State.busy (ag : Agent) (s : State) : Bool :=
  match ag with
  | .dec => s.dec.busy
  | .enc => s.enc.busy

/-- R180: the fatal events, each with what it records. -/
inductive Event where
  /-- R182: the offending record count -/
  | encOverflow (c : Nat)
  /-- R183: `ip` (DEC) or `pos` (ENC) when the fault is taken -/
  | capacity (where_ : Nat)
deriving DecidableEq, Repr

/-- R35: the code of an event. Code 3 is never written. -/
def Event.code : Event → BitVec 2
  | .encOverflow _ => 1
  | .capacity _ => 2

/-- R35: the information of an event. -/
def Event.info : Event → Nat
  | .encOverflow c => c
  | .capacity i => i

end Sys2Proof.Machine
end

