-- ==== Sys2Proof/Machine/Operands.lean ====
section
/-! DEFINITION. The operands of the steps: byte lanes of a pixel, ranges of a buffer, and the encoder's run
measurement. -/

namespace Sys2Proof.Machine

/-- R121: byte `b` goes into lane `k`, with lane 0 = R, 1 = G, 2 = B, 3 = A. -/
def setLane (p : Pixel) (k : BitVec 2) (b : Byte) : Pixel :=
  if k = 0 then { p with r := b }
  else if k = 1 then { p with g := b }
  else if k = 2 then { p with b := b }
  else { p with a := b }

/-- R121: the bytes of an incomplete group go into lanes 0, 1, 2 in order; the other lanes keep theirs. -/
def fillLanes (p : Pixel) : List Byte → Pixel
  | [] => p
  | [x] => { p with r := x }
  | [x, y] => { p with r := x, g := y }
  | x :: y :: z :: _ => { p with r := x, g := y, b := z }

/-- The element at an index; `none` where there is no entry. -/
def Buffer.get {α : Type} (m : Buffer α) (i : Nat) : Option α :=
  match m with
  | [] => none
  | (j, v) :: t => if j = i then some v else Buffer.get t i

/-- The `n` elements at indices `i` to `i + n - 1`; `none` when one of them has no entry. -/
def Buffer.range {α : Type} (m : Buffer α) (i : Nat) : Nat → Option (List α)
  | 0 => some []
  | n + 1 =>
    match Buffer.get m i, Buffer.range m (i + 1) n with
    | some v, some t => some (v :: t)
    | _, _ => none

/-- R60: `MemRead(addr, n)`, defined only where `addr + n <= L`. -/
def Dec.memRead (d : Dec) (addr n : Nat) : Except Fault (List Byte) :=
  if addr + n ≤ d.inLen then
    match Buffer.range d.IN addr n with
    | some bs => .ok bs
    | none => .error (.inputAbsent .dec)
  else .error (.readBeyondInput .dec)

/-- How many pixels at the front of a list equal `p`. -/
def leading (p : Pixel) : List Pixel → Nat
  | [] => 0
  | q :: t => if q = p then leading p t + 1 else 0

/-- R140: `RunLen(i)`, the maximal run length at index `i`, over a list of pixels. The spec evaluates it for `i < N`
only; beyond the input it is 0 here, and nothing asks. -/
def runLen (pin : List Pixel) (i : Nat) : Nat :=
  match pin.drop i with
  | [] => 0
  | p :: t => leading p t + 1

/-- R141: `RunLenW(i)`, the run length seen inside the lookahead window. -/
def runLenW (pin : List Pixel) (i : Nat) : Nat := min (runLen pin i) lookahead

/-- `PIN[i .. i + n)`. -/
def slice (pin : List Pixel) (i n : Nat) : List Pixel := (pin.drop i).take n

/-- R61: `PixRead(i)`, defined only where `i < N`. -/
def Enc.pixRead (e : Enc) (i : Nat) : Except Fault Pixel :=
  if i < e.inLen then
    match Buffer.get e.PIN i with
    | some p => .ok p
    | none => .error (.inputAbsent .enc)
  else .error (.readBeyondInput .enc)

/-- How many of the `n` pixels at index `i` and up equal `p`, before the first that does not. No pixel after that
one is read. -/
def Enc.leadingFrom (e : Enc) (p : Pixel) (i : Nat) : Nat → Except Fault Nat
  | 0 => .ok 0
  | n + 1 =>
    match e.pixRead i with
    | .error f => .error f
    | .ok q =>
      if q = p then
        match e.leadingFrom p (i + 1) n with
        | .error f => .error f
        | .ok k => .ok (k + 1)
      else .ok 0

/-- The length of the run at index `i`, read pixel by pixel from `i` on and never at or beyond index `hi`. -/
def Enc.readRunBelow (e : Enc) (i hi : Nat) : Except Fault Nat :=
  match e.pixRead i with
  | .error f => .error f
  | .ok p =>
    match e.leadingFrom p (i + 1) (hi - (i + 1)) with
    | .error f => .error f
    | .ok k => .ok (k + 1)

/-- R140: `RunLen(i)` as the encoder reads it. -/
def Enc.readRun (e : Enc) (i : Nat) : Except Fault Nat := e.readRunBelow i e.inLen

/-- R141: `RunLenW(i)` as the encoder reads it, inside the window `PIN[i .. min(i + LOOKAHEAD, N))`. -/
def Enc.readRunW (e : Enc) (i : Nat) : Except Fault Nat := e.readRunBelow i (min (i + lookahead) e.inLen)

/-- R61: the pixels `PIN[i .. i + n)`, defined only where `i + n <= N`. -/
def Enc.pixRange (e : Enc) (i n : Nat) : Except Fault (List Pixel) :=
  if i + n ≤ e.inLen then
    match Buffer.range e.PIN i n with
    | some ps => .ok ps
    | none => .error (.inputAbsent .enc)
  else .error (.readBeyondInput .enc)

end Sys2Proof.Machine
end

