-- ==== Sys2Proof/Machine/Ops.lean ====
section
/-! DEFINITION. The shared operations: buffer writes, the output appends with their capacity check, taking an event
(R185) and the only two ways out of ERROR (R187), START and reset. -/

namespace Sys2Proof.Machine

/-- The canonical form of a buffer: indices strictly rising. -/
def Buffer.wf {α : Type} (m : Buffer α) : Bool := decide ((m.map Prod.fst).Pairwise (· < ·))

/-- The canonical form of a byte buffer. An unlisted index reads as nothing, so no entry can equal that. -/
def Memory.wf (m : Memory) : Bool := Buffer.wf m

/-- The buffer with element `v` at index `i`, in canonical form. -/
def Buffer.set {α : Type} (m : Buffer α) (i : Nat) (v : α) : Buffer α :=
  match m with
  | [] => [(i, v)]
  | (j, w) :: t =>
    if i < j then (i, v) :: (j, w) :: t
    else if i = j then (i, v) :: t
    else (j, w) :: Buffer.set t i v

/-- The buffer with the elements `vs` at indices `i`, `i + 1`, and so on. -/
def Buffer.setMany {α : Type} (m : Buffer α) (i : Nat) : List α → Buffer α
  | [] => m
  | v :: vs => Buffer.set (Buffer.setMany m (i + 1) vs) i v

/-- R76: whether a size stays within a capacity; `none` is unbounded. -/
def within (cap : Option Nat) (size : Nat) : Bool :=
  match cap with
  | none => true
  | some c => decide (size ≤ c)

/-- R66, R76: `Emit(p)`: the output with `p` appended; `none` when that would exceed the capacity. -/
def emit (cap : Option Nat) (p : Pixel) (out : List Pixel) : Option (List Pixel) :=
  if within cap (out.length + 1) then some (out ++ [p]) else none

/-- What `EmitRecord` answers. -/
inductive EmitResult where
  /-- the output with the whole record appended -/
  | ok (bout : List Byte)
  /-- an event is raised; no byte is written -/
  | raised (ev : Event)
deriving DecidableEq, Repr

/-- R145: `EmitRecord(F, c, pix)` with the output so far and `pos` at the start of the step. R186: the count
check comes before the capacity check. -/
def emitRecord (cap : Option Nat) (f : Bool) (c : Nat) (pix : List Pixel) (pos : Nat) (bout : List Byte) :
    EmitResult :=
  if c = 0 ∨ maxCount < c then .raised (.encOverflow c)
  else
    let bytes := recordBytes f c pix
    if within cap (bout.length + bytes.length) then .ok (bout ++ bytes) else .raised (.capacity pos)

/-- R185 for DEC: the state becomes ERROR and `ERR` and `ERR_INFO` are set; R183 also sets `ip`. -/
def Dec.take (ev : Event) (d : Dec) : Dec :=
  { d with dmode := .error, err := ev.code, errInfo := ev.info, ip := ev.info }

/-- R185 for ENC: the state becomes ERROR and `ERR` and `ERR_INFO` are set; nothing else is written. -/
def Enc.take (ev : Event) (e : Enc) : Enc :=
  { e with emode := .error, err := ev.code, errInfo := ev.info }

/-- R185, ERROR ENTRY: an agent takes a fatal event. The agent stops, and there is no return (R187). -/
def State.take (ag : Agent) (ev : Event) (s : State) : State :=
  match ag with
  | .dec => { s with dec := s.dec.take ev }
  | .enc => { s with enc := s.enc.take ev }

/-- R200: a hardware reset of one agent. Its input buffer is not touched. -/
def State.resetAgent (ag : Agent) (s : State) : State :=
  match ag with
  | .dec => { s with dec := Dec.afterReset s.dec.IN }
  | .enc => { s with enc := Enc.afterReset s.enc.PIN }

/-- R39: DEC after START; the unspecified registers take the free values number `c` (log 7). -/
def Dec.afterStart (c : Nat) (d : Dec) : Dec :=
  { d with start := false, dmode := .cmd, ip := 0, OUT := [], endKind := .none, err := 0, errInfo := 0,
           cmd := Config.freeCmd c, cnt := Config.freeCnt c, rem := Config.freeRem c, k := Config.freeK c,
           pixbuf := Config.freePixbuf c }

/-- R40: ENC after START; the unspecified registers take the free values number `c` (log 7). -/
def Enc.afterStart (c : Nat) (e : Enc) : Enc :=
  { e with start := false, emode := .scan, pos := 0, BOUT := [], err := 0, errInfo := 0,
           runPix := Config.freeRunPix c, runRem := Config.freeRunRem c, litStart := Config.freeLitStart c,
           litLen := Config.freeLitLen c }

/-- R201: an agent begins a conversion. -/
def State.launch (ag : Agent) (s : State) : State :=
  match ag with
  | .dec => { s with dec := s.dec.afterStart s.freeCtr, freeCtr := s.freeCtr + 1 }
  | .enc => { s with enc := s.enc.afterStart s.freeCtr, freeCtr := s.freeCtr + 1 }

/-- R101: the clean ending, at a record boundary. -/
def Dec.endClean (d : Dec) : Dec := { d with endKind := .clean, dmode := .done }

/-- R103, R104, R181: the ending inside a record. Every leftover byte counts as consumed (D5): those of the
incomplete group fill the first lanes of `pixbuf`, as they do at the byte level (R123, R124). -/
def Dec.endTruncated (cut : List Byte) (d : Dec) : Dec :=
  { d with endKind := .truncated, dmode := .done, ip := d.inLen, pixbuf := fillLanes d.pixbuf cut,
           k := BitVec.ofNat 2 cut.length }

/-- R102, R122: the command byte's registers at the start of a record of operation `f` and count `n`. -/
def Dec.latch (f : Bool) (n : Nat) (d : Dec) : Dec :=
  { d with cmd := cmdByte f n, cnt := BitVec.ofNat 8 n, rem := BitVec.ofNat 8 n, k := 0 }

/-- R103: "repeat n times: Emit(p)", counting `rem` down. The flag is false when a copy did not fit; the copies
before it stay (R183). -/
def Dec.emitCopies (cap : Option Nat) (p : Pixel) : Nat → Dec → Dec × Bool
  | 0, d => (d, true)
  | n + 1, d =>
    match emit cap p d.OUT with
    | none => (d, false)
    | some out => Dec.emitCopies cap p n { d with OUT := out, rem := d.rem - 1 }

/-- R104: the complete groups in order, the first at byte index `a`, counting `rem` down. The second part is the
index past the group that did not fit. R127: that group's last byte is not written to `pixbuf`. -/
def Dec.emitGroups (cap : Option Nat) : List Pixel → Nat → Dec → Dec × Option Nat
  | [], _, d => (d, none)
  | p :: ps, a, d =>
    match emit cap p d.OUT with
    | none => ({ d with pixbuf := { p with a := d.pixbuf.a }, k := 3 }, some (a + 4))
    | some out => Dec.emitGroups cap ps (a + 4) { d with OUT := out, rem := d.rem - 1, pixbuf := p }

end Sys2Proof.Machine
end

