-- ==== Sys2Proof/Machine/ByteLevel.lean ====
section
/-! DEFINITION. The decoder's byte-level state machine (40_decoder.md section 3): one byte read or one pixel
emitted a step. -/

namespace Sys2Proof.Machine

/-- R120: read the next byte of IN, and go on with it. -/
def withNextByte (s : State) (go : Byte → State) : Host.Outcome State Fault Refusal :=
  match s.dec.memRead s.dec.ip 1 with
  | .error f => .fault f
  | .ok (b :: _) => .next (go b)
  | .ok [] => .fault (.readBeyondInput .dec)

/-- R122: the CMD step. -/
def byteCmd (s : State) : Host.Outcome State Fault Refusal :=
  if s.dec.ip = s.dec.inLen then .next { s with dec := s.dec.endClean }
  else withNextByte s fun b =>
    { s with dec := { s.dec with
        cmd := b, cnt := cmdCount b, rem := cmdCount b, k := 0, ip := s.dec.ip + 1,
        dmode := if cmdFlag b then .runpix else .litpix } }

/-- R123: the RUNPIX step. -/
def byteRunpix (s : State) : Host.Outcome State Fault Refusal :=
  if s.dec.ip = s.dec.inLen then .next { s with dec := { s.dec with endKind := .truncated, dmode := .done } }
  else withNextByte s fun b =>
    let d := { s.dec with pixbuf := setLane s.dec.pixbuf s.dec.k b, ip := s.dec.ip + 1 }
    { s with dec := if s.dec.k = 3 then { d with k := 0, dmode := .expand } else { d with k := s.dec.k + 1 } }

/-- R124: the LITPIX step. R127: a pixel that does not fit leaves every other register of the step as it was;
`ip` counts the byte just read (R183, log 9). -/
def byteLitpix (s : State) : Host.Outcome State Fault Refusal :=
  if s.dec.ip = s.dec.inLen then .next { s with dec := { s.dec with endKind := .truncated, dmode := .done } }
  else withNextByte s fun b =>
    let d := { s.dec with pixbuf := setLane s.dec.pixbuf s.dec.k b, ip := s.dec.ip + 1 }
    if s.dec.k = 3 then
      match emit s.cfg.outCapPix { s.dec.pixbuf with a := b } s.dec.OUT with
      | none => State.take .dec (.capacity (s.dec.ip + 1)) s
      | some out =>
        { s with dec := { d with
            OUT := out, k := 0, rem := s.dec.rem - 1,
            dmode := if s.dec.rem = 1 then .cmd else .litpix } }
    else { s with dec := { d with k := s.dec.k + 1 } }

/-- R125: the EXPAND step. R127: a copy that does not fit raises CAPACITY. -/
def byteExpand (s : State) : Host.Outcome State Fault Refusal :=
  match emit s.cfg.outCapPix s.dec.pixbuf s.dec.OUT with
  | none => .next (State.take .dec (.capacity s.dec.ip) s)
  | some out =>
    .next { s with dec := { s.dec with
      OUT := out, rem := s.dec.rem - 1, dmode := if s.dec.rem = 1 then .cmd else .expand } }

/-- R120, R126: one transition of the byte-level decoder. IDLE, DONE and ERROR do nothing. -/
def decByteMove (s : State) : Host.Outcome State Fault Refusal :=
  match s.dec.dmode with
  | .cmd => byteCmd s
  | .runpix => byteRunpix s
  | .litpix => byteLitpix s
  | .expand => byteExpand s
  | .idle | .done | .error => .next s

end Sys2Proof.Machine
end

