-- ==== Sys2Proof/Machine/Records.lean ====
section
/-! DEFINITION. The meanings of the two records, at the record level (40_decoder.md sections 1 and 2). They also
leave the datapath registers of R27 as the byte level leaves them at the same boundary (log 4), so that the two
levels agree on the whole state. -/

namespace Sys2Proof.Machine

/-- R103, RUN. -/
def execRun (n : Nat) (p : Option Pixel) (cut : List Byte) (s : State) : Host.Outcome State Fault Refusal :=
  let d := s.dec.latch true n
  match p with
  | none => .next { s with dec := d.endTruncated cut }
  | some px =>
    match { d with pixbuf := px }.emitCopies s.cfg.outCapPix px n with
    | (d', true) => .next { s with dec := { d' with ip := s.dec.ip + 5 } }
    | (d', false) => .next (State.take .dec (.capacity (s.dec.ip + 5)) { s with dec := d' })

/-- R104, LIT. -/
def execLit (n : Nat) (ps : List Pixel) (cut : List Byte) (s : State) : Host.Outcome State Fault Refusal :=
  match (s.dec.latch false n).emitGroups s.cfg.outCapPix ps (s.dec.ip + 1) with
  | (d', some e) => .next (State.take .dec (.capacity e) { s with dec := d' })
  | (d', none) =>
    if ps.length < n then .next { s with dec := d'.endTruncated cut }
    else .next { s with dec := { d' with ip := s.dec.ip + 1 + 4 * n } }

end Sys2Proof.Machine
end

