-- ==== Sys2Proof/Machine/Dispatch.lean ====
section
/-! DEFINITION. One arm per constructor of Instr. -/

namespace Sys2Proof.Machine

def exec (i : Instr) (s : State) : Host.Outcome State Fault Refusal :=
  match i with
  -- R103
  | .run n p cut => Sys2Proof.Machine.execRun n p cut s
  -- R104
  | .lit n ps cut => Sys2Proof.Machine.execLit n ps cut s

end Sys2Proof.Machine
end

