-- ==== Sys2Proof/Machine/Encoder.lean ====
section
/-! DEFINITION. The encoder's steps (41_encoder.md section 2): one decision or one record a step. -/

namespace Sys2Proof.Machine

/-- R142: the SCAN step. At `pos = N` it reads no pixel. -/
def encScan (s : State) : Host.Outcome State Fault Refusal :=
  if s.enc.pos = s.enc.inLen then .next { s with enc := { s.enc with emode := .done } }
  else
    match s.enc.readRun s.enc.pos, s.enc.pixRead s.enc.pos with
    | .error f, _ => .fault f
    | .ok _, .error f => .fault f
    | .ok r, .ok p =>
      if threshold ≤ r then .next { s with enc := { s.enc with runPix := p, runRem := r, emode := .run } }
      else
        .next { s with enc := { s.enc with
          litStart := s.enc.pos, litLen := 1, pos := s.enc.pos + 1, emode := .lit } }

/-- R143: the RUN step: one chunk of the current run. -/
def encRun (s : State) : Host.Outcome State Fault Refusal :=
  let c := min s.enc.runRem maxCount
  match emitRecord s.cfg.outCapBytes true c [s.enc.runPix] s.enc.pos s.enc.BOUT with
  | .raised ev => .next (State.take .enc ev s)
  | .ok bout =>
    .next { s with enc := { s.enc with
      BOUT := bout, runRem := s.enc.runRem - c, pos := s.enc.pos + c,
      emode := if s.enc.runRem - c = 0 then .scan else .run } }

/-- R144: whether the open literal block absorbs the pixel at `pos`. The window is read only when the block has room
and `pos < N`. -/
def Enc.litExtends (e : Enc) : Except Fault Bool :=
  if e.litLen.toNat < maxCount ∧ e.pos < e.inLen then
    match e.readRunW e.pos with
    | .error f => .error f
    | .ok r => .ok (decide (r < threshold))
  else .ok false

/-- R144: the pixels of the open literal block. R145 checks the count before it reads any, so an illegal count reads
none. -/
def Enc.litBlock (e : Enc) : Except Fault (List Pixel) :=
  if countOk e.litLen.toNat then e.pixRange e.litStart e.litLen.toNat else .ok []

/-- R144: the LIT step's second branch: emit the open literal block. -/
def encLitClose (s : State) : Host.Outcome State Fault Refusal :=
  match s.enc.litBlock with
  | .error f => .fault f
  | .ok pix =>
    match emitRecord s.cfg.outCapBytes false s.enc.litLen.toNat pix s.enc.pos s.enc.BOUT with
    | .raised ev => .next (State.take .enc ev s)
    | .ok bout => .next { s with enc := { s.enc with BOUT := bout, emode := .scan } }

/-- R144: the LIT step: extend or close the open literal block. -/
def encLit (s : State) : Host.Outcome State Fault Refusal :=
  match s.enc.litExtends with
  | .error f => .fault f
  | .ok true => .next { s with enc := { s.enc with litLen := s.enc.litLen + 1, pos := s.enc.pos + 1 } }
  | .ok false => encLitClose s

/-- One step of the encoder. R196: IDLE, DONE and ERROR do nothing. -/
def encMove (s : State) : Host.Outcome State Fault Refusal :=
  match s.enc.emode with
  | .idle | .done | .error => .next s
  | .scan => encScan s
  | .run => encRun s
  | .lit => encLit s

end Sys2Proof.Machine
end

