-- ==== Sys2Proof/Machine/HostPort.lean ====
section
/-! DEFINITION. The host's side: what it writes (R191), the START pulse (R201, R202), its launch duties (R204), and
what it may read (R34, R206, R207). -/

namespace Sys2Proof.Machine

/-- R9: whether W_ADDR bits can name an index. -/
def indexNamed (cfg : Config) (i : Nat) : Bool :=
  match cfg.wAddr with
  | none => true
  | some w => decide (i < 2 ^ w)

/-- R204 step 1: each capacity is below `2^W_ADDR`. With unbounded indices there is no bound (log 3). -/
def dutiesMet (cfg : Config) : Bool :=
  match cfg.wAddr with
  | none => true
  | some _ => cfg.outCapPix.any (indexNamed cfg) && cfg.outCapBytes.any (indexNamed cfg)

/-- Whether every index below `n` has an element. -/
def Buffer.full {α : Type} (m : Buffer α) (n : Nat) : Bool :=
  (List.range n).all fun i => (Buffer.get m i).isSome

/-- R204 steps 1 and 2: the configuration is legal, the length fits, and the whole input is written. -/
def State.launchOk (ag : Agent) (s : State) : Bool :=
  match ag with
  | .dec => dutiesMet s.cfg && indexNamed s.cfg s.dec.inLen && Buffer.full s.dec.IN s.dec.inLen
  | .enc => dutiesMet s.cfg && indexNamed s.cfg s.enc.inLen && Buffer.full s.enc.PIN s.enc.inLen

/-- R34: an agent's START field with the value `v`. -/
def State.setStart (ag : Agent) (v : Bool) (s : State) : State :=
  match ag with
  | .dec => { s with dec := { s.dec with start := v } }
  | .enc => { s with enc := { s.enc with start := v } }

/-- R34: an agent's IN_LEN field with the value `v`. -/
def State.setInLen (ag : Agent) (v : Nat) (s : State) : State :=
  match ag with
  | .dec => { s with dec := { s.dec with inLen := v } }
  | .enc => { s with enc := { s.enc with inLen := v } }

/-- The agent sees its START pulse. R202: while BUSY it has no effect. R201: otherwise a conversion begins. R204,
U8: a launch that breaks the host's duties is refused. -/
def seeStart (ag : Agent) (s : State) : Host.Outcome State Fault Refusal :=
  if s.busy ag then .next (s.setStart ag false)
  else if s.launchOk ag then .next (s.launch ag)
  else .refused (.launchOutsideModel ag)

/-- One input of the host. R34: IN_LEN written while BUSY has no effect (log 10). R205, D16: a buffer written while
BUSY is refused. -/
def hostMove (c : HostCmd) (s : State) : Host.Outcome State Fault Refusal :=
  match c with
  | .reset ag => .next (s.resetAgent ag)
  | .start ag => .next (s.setStart ag true)
  | .writeInLen ag v => .next (if s.busy ag then s else s.setInLen ag v)
  | .writeIn i b =>
    if s.dec.busy then .refused (.inputWrittenWhileBusy .dec)
    else if indexNamed s.cfg i then .next { s with dec := { s.dec with IN := Buffer.set s.dec.IN i b } }
    else .fault (.noSuchIndex .dec i)
  | .writePin i p =>
    if s.enc.busy then .refused (.inputWrittenWhileBusy .enc)
    else if indexNamed s.cfg i then .next { s with enc := { s.enc with PIN := Buffer.set s.enc.PIN i p } }
    else .fault (.noSuchIndex .enc i)

/-- R207: how a conversion stands. -/
inductive Status where
  /-- IDLE: the agent has not run -/
  | notRun
  /-- the agent is still running -/
  | running
  /-- DONE with ERR = 0 -/
  | succeeded
  /-- ERROR -/
  | failed
deriving DecidableEq, Repr

/-- R207 for DEC. The ending's kind does not matter. -/
def Dec.status (d : Dec) : Status :=
  match d.dmode with
  | .idle => .notRun
  | .done => .succeeded
  | .error => .failed
  | .cmd | .runpix | .expand | .litpix => .running

/-- R207 for ENC. -/
def Enc.status (e : Enc) : Status :=
  match e.emode with
  | .idle => .notRun
  | .done => .succeeded
  | .error => .failed
  | .scan | .run | .lit => .running

/-- R34: what the host reads of one agent, `α` being the element of its output. `endKind` and START are on no
port (R28, R34). -/
structure Port (α : Type) where
  inLen : Nat
  busy : Bool
  done : Bool
  err : BitVec 2
  errInfo : Nat
  /-- the output and its count; `none` where the spec gives the host no value (U5, U6; log 11) -/
  output : Option (List α × Nat)
deriving DecidableEq, Repr

/-- R34, R206: the decoder's port. -/
def Dec.port (d : Dec) : Port Pixel :=
  { inLen := d.inLen, busy := d.busy, done := d.doneBit, err := d.err, errInfo := d.errInfo,
    output := if d.doneBit && decide (d.err = 0) then some (d.OUT, d.outCount) else none }

/-- R34, R206: the encoder's port. -/
def Enc.port (e : Enc) : Port Byte :=
  { inLen := e.inLen, busy := e.busy, done := e.doneBit, err := e.err, errInfo := e.errInfo,
    output := if e.doneBit && decide (e.err = 0) then some (e.BOUT, e.outLen) else none }

end Sys2Proof.Machine
end

