-- ==== Sys2Proof/Machine/Schedule.lean ====
section
/-! DEFINITION. Fetching a record, one step of each agent, and who moves next. -/

namespace Sys2Proof.Machine

/-- R102: the bytes of the record at `ip`: as many as its command byte says (R85), or as many as are left. Only
where `ip < L`. -/
def Dec.recordAt (d : Dec) : Except Fault (List Byte) :=
  match d.memRead d.ip 1 with
  | .error f => .error f
  | .ok [] => .error (.readBeyondInput .dec)
  | .ok (c :: _) => d.memRead d.ip (min (recLen c) (d.inLen - d.ip))

/-- R101, R102: what the decoder finds at a record boundary: `none` at the end of the input, else the record. -/
def Dec.fetch (d : Dec) : Except Fault (Option Instr) :=
  if d.ip = d.inLen then .ok none
  else
    match d.recordAt with
    | .error f => .error f
    | .ok bytes =>
      match decode bytes with
      | .ok i => .ok (some i)
      | .error .endOfInput => .error (.readBeyondInput .dec)

/-- One record-level step at a record boundary: R101, or R102 followed by R103 or R104. -/
def recordCmd (s : State) : Host.Outcome State Fault Refusal :=
  match s.dec.fetch with
  | .error f => .fault f
  | .ok none => .next { s with dec := s.dec.endClean }
  | .ok (some i) => exec i s

/-- One step of the record-level decoder. The record level never leaves a record half done; in a state that is
inside a record the byte level's rules finish it (log 4). -/
def decRecordMove (s : State) : Host.Outcome State Fault Refusal :=
  match s.dec.dmode with
  | .cmd => recordCmd s
  | .idle | .runpix | .expand | .litpix | .done | .error => decByteMove s

/-- One step of the decoder, at the level its parameter says. -/
def decMove (s : State) : Host.Outcome State Fault Refusal :=
  match s.cfg.level with
  | .record => decRecordMove s
  | .byte => decByteMove s

/-- One entry of the agenda. -/
def doMove (m : Move) (s : State) : Host.Outcome State Fault Refusal :=
  match m with
  | .host c => hostMove c s
  | .dec => decMove s
  | .enc => encMove s

/-- Who moves when the agenda is empty: DEC while it is BUSY, else ENC. R196: with neither BUSY, nothing happens.
R211 asks no more than that an enabled agent eventually moves, and every DEC conversion ends (log 2). -/
def idleMove (s : State) : Host.Outcome State Fault Refusal :=
  if s.dec.busy then decMove s else if s.enc.busy then encMove s else .next s

/-- One step of the whole block: a START pulse is seen first (R201: the conversion's "first step is the next step
of the agent"), then the agenda's head moves, then `idleMove`. -/
def blockMove (s : State) : Host.Outcome State Fault Refusal :=
  if s.dec.start then seeStart .dec s
  else if s.enc.start then seeStart .enc s
  else
    match s.agenda with
    | m :: rest => doMove m { s with agenda := rest }
    | [] => idleMove s

/-- The machine with a record placed as DEC's next one: at `ip`, with the input ending behind it, DEC in CMD at the
record level, no pulse waiting and DEC next on the agenda (log 1). -/
def State.placeRecord (s : State) (bytes : List Byte) : State :=
  { s with
    cfg := { s.cfg with level := .record }
    dec := { s.dec with start := false, dmode := .cmd, inLen := s.dec.ip + bytes.length,
                        IN := Buffer.setMany s.dec.IN s.dec.ip bytes }
    enc := { s.enc with start := false }
    agenda := .dec :: s.agenda }

end Sys2Proof.Machine
end

