-- ==== Sys2Proof/Machine/Step.lean ====
section
/-! DEFINITION. One step of the machine, and placing the record it runs next. -/

namespace Sys2Proof.Machine

/-- One step: R20's two agents and the host, one move at a time. -/
def step (s : State) : Host.Outcome State Fault Refusal := blockMove s

/-- `s` with the record whose bits are `w` as the one the next step fetches and runs (log 1). -/
def State.withFetchWord (s : State) (nbits w : Nat) : State := s.placeRecord (recordOfWord nbits w)

end Sys2Proof.Machine
end

