-- ==== Sys2Proof/Machine/Conversion.lean ====
section
/-! DEFINITION. The two conversions as the spec writes them in one piece, over lists and with no machine state:
`Decode` (R106), `Encode` (R146), and the encoder's closed form (R150). The machine's runs are claimed equal to
them. -/

namespace Sys2Proof.Machine

/-- What R128 compares of a decoder conversion. OUT_COUNT is `out.length`. -/
structure Decoded where
  dmode : DMode
  ip : Nat
  out : List Pixel
  endKind : EndKind
  err : BitVec 2
  errInfo : Nat
deriving DecidableEq, Repr

/-- What a decoder has of R128's list. -/
def Dec.observe (d : Dec) : Decoded :=
  { dmode := d.dmode, ip := d.ip, out := d.OUT, endKind := d.endKind, err := d.err, errInfo := d.errInfo }

/-- "repeat n times: Emit(p)" or the groups of a LIT: the output, and how many pixels did not fit. -/
def emitList (cap : Option Nat) : List Pixel → List Pixel → List Pixel × Nat
  | [], out => (out, 0)
  | p :: ps, out =>
    match emit cap p out with
    | none => (out, (p :: ps).length)
    | some out' => emitList cap ps out'

/-- R106's loop, at index `ip` with the output so far. Each round reads one record, so `L + 1` rounds are enough;
the rounds are counted by the first argument. -/
def decodeLoop (cap : Option Nat) (inp : List Byte) : Nat → Nat → List Pixel → Decoded
  | 0, ip, out => ⟨.cmd, ip, out, .none, 0, 0⟩
  | fuel + 1, ip, out =>
    match decode (inp.drop ip) with
    | .error .endOfInput => ⟨.done, ip, out, .clean, 0, 0⟩
    | .ok (.run n p _) =>
      match p with
      | none => ⟨.done, inp.length, out, .truncated, 0, 0⟩
      | some px =>
        match emitList cap (List.replicate n px) out with
        | (out', 0) => decodeLoop cap inp fuel (ip + 5) out'
        | (out', _ + 1) => ⟨.error, ip + 5, out', .none, 2, ip + 5⟩
    | .ok (.lit n ps _) =>
      match emitList cap ps out with
      | (out', 0) =>
        if ps.length < n then ⟨.done, inp.length, out', .truncated, 0, 0⟩
        else decodeLoop cap inp fuel (ip + 1 + 4 * n) out'
      | (out', m + 1) =>
        let e := ip + 1 + 4 * (ps.length - (m + 1)) + 4
        ⟨.error, e, out', .none, 2, e⟩

/-- R106: `Decode(IN)`, with the capacity rule R183. -/
def decodeAll (cap : Option Nat) (inp : List Byte) : Decoded := decodeLoop cap inp (inp.length + 1) 0 []

/-- What an encoder conversion leaves. OUT_LEN is `bout.length`. -/
structure Encoded where
  emode : EMode
  pos : Nat
  bout : List Byte
  err : BitVec 2
  errInfo : Nat
deriving DecidableEq, Repr

/-- What an encoder has of that list. -/
def Enc.observe (e : Enc) : Encoded :=
  { emode := e.emode, pos := e.pos, bout := e.BOUT, err := e.err, errInfo := e.errInfo }

/-- R145 raised inside R146's loop: the conversion ends there. -/
def stopped (ev : Event) (pos : Nat) (bout : List Byte) : Encoded := ⟨.error, pos, bout, ev.code, ev.info⟩

/-- R146 step 2: the chunks of a run of `rem` pixels; each chunk takes at least one, so `rem` rounds are enough. -/
def chunkLoop (cap : Option Nat) (p : Pixel) : Nat → Nat → Nat → List Byte → Except Encoded (Nat × List Byte)
  | 0, _, pos, bout => .ok (pos, bout)
  | fuel + 1, rem, pos, bout =>
    if rem = 0 then .ok (pos, bout)
    else
      let c := min rem maxCount
      match emitRecord cap true c [p] pos bout with
      | .raised ev => .error (stopped ev pos bout)
      | .ok bout' => chunkLoop cap p fuel (rem - c) (pos + c) bout'

/-- R146 step 3's inner loop: the length the literal block reaches. A block holds at most 128 pixels, so 128
rounds are enough. -/
def litLoop (pin : List Pixel) : Nat → Nat → Nat → Nat
  | 0, len, _ => len
  | fuel + 1, len, pos =>
    if len < maxCount ∧ pos < pin.length ∧ runLenW pin pos < threshold then litLoop pin fuel (len + 1) (pos + 1)
    else len

/-- R146's outer loop. Each round advances `pos`, so `N + 1` rounds are enough. -/
def encodeLoop (cap : Option Nat) (pin : List Pixel) : Nat → Nat → List Byte → Encoded
  | 0, pos, bout => ⟨.scan, pos, bout, 0, 0⟩
  | fuel + 1, pos, bout =>
    match pin[pos]? with
    | none => ⟨.done, pos, bout, 0, 0⟩
    | some p =>
      let r := runLen pin pos
      if threshold ≤ r then
        match chunkLoop cap p r r pos bout with
        | .error e => e
        | .ok (pos', bout') => encodeLoop cap pin fuel pos' bout'
      else
        let len := litLoop pin maxCount 1 (pos + 1)
        match emitRecord cap false len (slice pin pos len) (pos + len) bout with
        | .raised ev => stopped ev (pos + len) bout
        | .ok bout' => encodeLoop cap pin fuel (pos + len) bout'

/-- R146: `Encode(PIN)`, with the capacity rule R183. -/
def encodeAll (cap : Option Nat) (pin : List Pixel) : Encoded := encodeLoop cap pin (pin.length + 1) 0 []

/-- R146: the stream `Encode` gives with unbounded capacity. -/
def encodeStream (pin : List Pixel) : List Byte := (encodeAll none pin).bout

/-- R149: the maximal blocks of equal pixels, each as its pixel and its length. -/
def blocks : List Pixel → List (Pixel × Nat)
  | [] => []
  | p :: t =>
    match blocks t with
    | (q, n) :: bs => if p = q then (q, n + 1) :: bs else (p, 1) :: (q, n) :: bs
    | [] => [(p, 1)]

/-- R91: the records of `RUNS R, p`: `R div 128` full ones and the remainder, if there is one. -/
def runsRecords (len : Nat) (p : Pixel) : List Instr :=
  List.replicate (len / maxCount) (.wholeRun maxCount p) ++
    (if len % maxCount = 0 then [] else [.wholeRun (len % maxCount) p])

/-- R150: the records of a stretch of short blocks: `LIT 128` over each full 128 pixels and one over the rest.
Every record takes at least one pixel, so as many rounds as pixels are enough. -/
def litRecords : Nat → List Pixel → List Instr
  | 0, _ => []
  | fuel + 1, st =>
    if st = [] then []
    else if st.length ≤ maxCount then [.wholeLit st.length st]
    else .wholeLit maxCount (st.take maxCount) :: litRecords fuel (st.drop maxCount)

/-- R150: the closed form's records, `st` being the stretch of short blocks read so far. -/
def closedRecords : List (Pixel × Nat) → List Pixel → List Instr
  | [], st => litRecords st.length st
  | (p, n) :: bs, st =>
    if threshold ≤ n then litRecords st.length st ++ runsRecords n p ++ closedRecords bs []
    else closedRecords bs (st ++ List.replicate n p)

/-- R150: the closed form of the encoder's output. -/
def closedForm (pin : List Pixel) : List Instr := closedRecords (blocks pin) []

end Sys2Proof.Machine
end

