-- ==== Sys2Proof/Machine/Assembler.lean ====
section
/-! DEFINITION. The spec's own notation for streams (R90 to R92, D20). It has no effect on the machine. -/

namespace Sys2Proof.Machine

/-- R90 to R92: the records one line spells; `none` where the line is refused. A comment spells none. -/
def lineRecords : AsmLine → Option (List Instr)
  | .record i => if i.wellFormed then some [i] else none
  | .runs len p => if 1 ≤ len then some (runsRecords len p) else none
  | .atIndex _ => some []
  | .truncated _ => some []

/-- R92: whether bytes are what is left of a record that the stream's end cuts off. -/
def cutOff (bs : List Byte) : Bool :=
  match decode bs with
  | .ok i => !i.wellFormed
  | .error .endOfInput => false

/-- R92: the raw bytes left over that one line gives. They belong to the stream, although they are no record. That
the line is refused when its bytes are no record cut off is DESIGN CHOICE (log 17). -/
def lineLeftOver : AsmLine → Option (List Byte)
  | .record _ | .runs _ _ | .atIndex _ => some []
  | .truncated bs => if cutOff bs then some bs else none

/-- R90 to R92: the bytes a listing encodes to; `none` when a line is refused. The stream's end is not written, so
bytes left over end the listing: more bytes behind them are refused (log 17). -/
def assemble : List AsmLine → Option (List Byte)
  | [] => some []
  | l :: ls =>
    match lineRecords l, lineLeftOver l, assemble ls with
    | some is, some left, some t =>
      if left ≠ [] ∧ t ≠ [] then none else some (is.flatMap encode ++ left ++ t)
    | _, _, _ => none

end Sys2Proof.Machine
end

