-- ==== Sys2Proof/Safety.lean ====
section
/-! DEFINITION. What the reachable states of the machine are held to, in the terms claims use. -/

namespace Sys2Proof.Machine

/-- What holds of DEC between steps, with the parameters `cfg`. -/
structure DecInv (cfg : Config) (d : Dec) : Prop where
  /-- IN keeps its canonical form -/
  canonical : Memory.wf d.IN = true
  /-- R60, R204: a running conversion has its whole input -/
  inputPresent : d.busy = true → Buffer.full d.IN d.inLen = true
  /-- R24: `0 <= ip <= L` -/
  ipInRange : d.busy = true → d.ip ≤ d.inLen
  /-- R76: the output is within its capacity -/
  outFits : within cfg.outCapPix d.OUT.length = true
  /-- R27, R122: inside a record, `cnt` is the command byte's count -/
  countLatched : (d.dmode = .runpix ∨ d.dmode = .expand ∨ d.dmode = .litpix) → d.cnt = cmdCount d.cmd
  /-- R27: inside a record, `rem` is 1 to `cnt` -/
  remInRange : (d.dmode = .runpix ∨ d.dmode = .expand ∨ d.dmode = .litpix) → 1 ≤ d.rem.toNat ∧ d.rem.toNat ≤ d.cnt.toNat
  /-- R34, R35: `ERR` is 2 in ERROR and 0 elsewhere; DEC never sets 1, and 3 is never written -/
  errCode : d.err = if d.dmode = .error then 2 else 0
  /-- R34, R35: `ERR_INFO` is `ip` in ERROR and 0 elsewhere -/
  errInfoCode : d.errInfo = if d.dmode = .error then d.ip else 0
  /-- R28: an ending is recorded exactly in DONE -/
  endRecorded : d.endKind = .none ↔ d.dmode ≠ .done

/-- What holds of ENC between steps, with the parameters `cfg`. -/
structure EncInv (cfg : Config) (e : Enc) : Prop where
  /-- PIN keeps its canonical form -/
  canonical : Buffer.wf e.PIN = true
  /-- R61, R204: a running conversion has its whole input -/
  inputPresent : e.busy = true → Buffer.full e.PIN e.inLen = true
  /-- R30: `0 <= pos <= N` -/
  posInRange : e.busy = true → e.pos ≤ e.inLen
  /-- R76: the output is within its capacity -/
  outFits : within cfg.outCapBytes e.BOUT.length = true
  /-- R143, R153: in RUN at least one pixel of the run is left, and all of them are pixels of the input -/
  runLeft : e.emode = .run → 1 ≤ e.runRem ∧ e.pos + e.runRem ≤ e.inLen
  /-- R144, R153: in LIT the block has 1 to 128 pixels and ends at `pos` -/
  litOpen : e.emode = .lit → 1 ≤ e.litLen.toNat ∧ e.litLen.toNat ≤ maxCount ∧ e.pos = e.litStart + e.litLen.toNat
  /-- R34, R35, R153: `ERR` is 2 in ERROR and 0 elsewhere: ENC_OVERFLOW is never reached, and 3 never written -/
  errCode : e.err = if e.emode = .error then 2 else 0
  /-- R34, R35: `ERR_INFO` is `pos` in ERROR and 0 elsewhere -/
  errInfoCode : e.errInfo = if e.emode = .error then e.pos else 0

/-- What holds of the whole block between steps. -/
structure Inv (s : State) : Prop where
  dec : DecInv s.cfg s.dec
  enc : EncInv s.cfg s.enc

/-- PIN holds `pin`, from index `base` on. Nothing is said of what PIN holds below `base`. -/
structure Enc.HoldsFrom (e : Enc) (base : Nat) (pin : List Pixel) : Prop where
  length : pin.length = e.inLen
  pixels : ∀ j < e.inLen, base ≤ j → Buffer.get e.PIN j = pin[j]?

/-- `k` moves of one agent, stopping at the first fault or refusal. -/
def moves (f : State → Host.Outcome State Fault Refusal) : Nat → State → Host.Outcome State Fault Refusal
  | 0, s => .next s
  | k + 1, s =>
    match f s with
    | .next t => moves f k t
    | .fault r => .fault r
    | .refused r => .refused r

/-- R39, R128: DEC has just started on the input `inp`: in CMD with `ip = 0` and `OUT = []`. -/
structure Dec.AtStart (d : Dec) (inp : List Byte) : Prop where
  dmode : d.dmode = .cmd
  ip : d.ip = 0
  out : d.OUT = []
  endKind : d.endKind = .none
  err : d.err = 0
  errInfo : d.errInfo = 0
  input : Buffer.range d.IN 0 d.inLen = some inp

/-- The host has pulsed DEC's START on the input `inp`, its duties met, and no other input is waiting. -/
structure State.DecLaunch (s : State) (inp : List Byte) : Prop where
  pulse : s.dec.start = true
  idle : s.dec.busy = false
  duties : s.launchOk .dec = true
  noOther : s.enc.start = false
  agenda : s.agenda = []
  input : Buffer.range s.dec.IN 0 s.dec.inLen = some inp

/-- The host has pulsed ENC's START on the input `pin`, its duties met, no other input waiting and DEC at rest. -/
structure State.EncLaunch (s : State) (pin : List Pixel) : Prop where
  pulse : s.enc.start = true
  idle : s.enc.busy = false
  duties : s.launchOk .enc = true
  noOther : s.dec.start = false
  decIdle : s.dec.busy = false
  agenda : s.agenda = []
  input : Buffer.range s.enc.PIN 0 s.enc.inLen = some pin

/-- R129: the copies a record makes when it is a whole RUN record; 0 for a LIT record. -/
def Instr.copies : Instr → Nat
  | .run n _ _ => n
  | .lit _ _ _ => 0

/-- R129: `S`, the sum of the counts of a stream's complete RUN records. -/
def runCopies (rs : List Instr) : Nat := (rs.map Instr.copies).sum

end Sys2Proof.Machine
end

