-- ==== Sys2Proof/Certificates/Slice0/Obligations.lean ====
section
/-! DEFINITION. The statements for the provers. Each docstring names the rule it formalises, or says that it rests
on a choice of the model's and on which log entry. -/

open Sys2Proof Sys2Proof.Machine

/-! ## The encoding -/

/-- R86: all 256 command bytes are valid, and each means one operation and one count. -/
def Obligations.EveryCommandByteNamesOneRecord : Prop :=
  ∀ (c : Byte) (rest : List Byte), ∃ i, decode (c :: rest) = .ok i ∧
    (c.toNat ≤ 0x7F → ∃ ps cut, i = .lit (c.toNat + 1) ps cut) ∧
    (0x80 ≤ c.toNat → ∃ p cut, i = .run (c.toNat - 0x7F) p cut)

/-- The words of 95_test_vectors.md V1, V2, V5, V6, X6, X8 and T12 decode to the records the spec says. -/
def Obligations.SpecWordsDecodeToTheirRecords : Prop :=
  decode [0x82, 10, 20, 30, 255] = .ok (.wholeRun 3 ⟨10, 20, 30, 255⟩) ∧
  decode [0x02, 1, 2, 3, 4, 5, 6, 7, 8, 9, 10, 11, 12] =
    .ok (.wholeLit 3 [⟨1, 2, 3, 4⟩, ⟨5, 6, 7, 8⟩, ⟨9, 10, 11, 12⟩]) ∧
  decode [0x02, 1, 2, 3, 4, 5, 6, 7, 8, 9, 10, 11] = .ok (.lit 3 [⟨1, 2, 3, 4⟩, ⟨5, 6, 7, 8⟩] [9, 10, 11]) ∧
  decode [0x82, 10, 20, 30] = .ok (.run 3 none [10, 20, 30]) ∧
  decode [0x00] = .ok (.lit 1 [] []) ∧
  decode [0x01, 1, 2, 3, 4, 5] = .ok (.lit 2 [⟨1, 2, 3, 4⟩] [5]) ∧
  decode [0xFF, 9, 9, 9, 9] = .ok (.wholeRun 128 ⟨9, 9, 9, 9⟩) ∧
  decode [] = .error .endOfInput

/-- R83, R84, R89: decoding the bytes of a whole record, whatever follows them, gives the record back; so does
decoding the bytes that are left of a record the input's end cuts off. -/
def Obligations.DecodeOfEncodeGivesTheRecordBack : Prop :=
  (∀ (i : Instr) (rest : List Byte), i.wellFormed = true → decode (encode i ++ rest) = .ok i) ∧
  (∀ i : Instr, i.fetchable = true → decode (encode i) = .ok i)

/-- R80, R86, R87: whatever decodes is a record of the format, and encoding it gives back the bytes it was read
from, all of them when the list ends inside the record. -/
def Obligations.EncodeOfDecodeGivesTheBytesBack : Prop :=
  ∀ (bs : List Byte) (i : Instr), decode bs = .ok i → i.fetchable = true ∧ encode i = bs.take i.size

/-- R85: the command byte alone gives the record's length. -/
def Obligations.CommandByteGivesTheRecordLength : Prop :=
  ∀ i : Instr, i.wellFormed = true →
    ∃ c t, encode i = c :: t ∧ recLen c = (encode i).length ∧ (encode i).length = i.size ∧
      recLen c = if c.getLsbD 7 then 5 else 1 + 4 * (c.toNat % 128 + 1)

/-- R83 and R84: the two records' lengths, the byte at each offset, and the pixels they stand for. -/
def Obligations.RecordBytesStandWhereTheFormatSays : Prop :=
  (∀ (n : Nat) (p : Pixel), 1 ≤ n → n ≤ 128 →
    encode (.wholeRun n p) = [BitVec.ofNat 8 (0x80 + (n - 1)), p.r, p.g, p.b, p.a] ∧
    (Instr.wholeRun n p).expand = List.replicate n p) ∧
  (∀ (n : Nat) (ps : List Pixel), 1 ≤ n → n ≤ 128 → ps.length = n →
    (encode (.wholeLit n ps)).length = 1 + 4 * n ∧
    (encode (.wholeLit n ps))[0]? = some (BitVec.ofNat 8 (n - 1)) ∧
    (∀ (j : Nat) (p : Pixel), ps[j]? = some p →
      (encode (.wholeLit n ps))[1 + 4 * j]? = some p.r ∧ (encode (.wholeLit n ps))[2 + 4 * j]? = some p.g ∧
      (encode (.wholeLit n ps))[3 + 4 * j]? = some p.b ∧ (encode (.wholeLit n ps))[4 + 4 * j]? = some p.a) ∧
    (Instr.wholeLit n ps).expand = ps)

/-- R91: `RUNS R, p` stands for `R` copies, in whole records of at most 128. -/
def Obligations.RunsExpandsToItsChunks : Prop :=
  ∀ (len : Nat) (p : Pixel), 1 ≤ len →
    ∃ rs, lineRecords (.runs len p) = some rs ∧ (∀ i ∈ rs, i.wellFormed = true) ∧
      rs = List.replicate (len / 128) (.wholeRun 128 p) ++
        (if len % 128 = 0 then [] else [.wholeRun (len % 128) p]) ∧
      rs.flatMap Instr.expand = List.replicate len p

/-- R90, R92: a listing of whole records encodes to their bytes, in order, with the raw bytes of a truncated final
record behind them; a note of an index encodes to nothing; a line that spells no whole record is refused. That a
truncated record's line is taken at the end only, and with the bytes of a record cut off only, is the model's choice
(log 17). -/
def Obligations.ListingSpellsItsBytes : Prop :=
  (∀ rs : List Instr, (∀ i ∈ rs, i.wellFormed = true) →
    assemble (rs.map .record) = some (rs.flatMap encode) ∧
    (∀ last : Instr, last.fetchable = true → last.wellFormed = false →
      assemble (rs.map .record ++ [.truncated (encode last)]) = some (rs.flatMap encode ++ encode last))) ∧
  (∀ (k : Nat) (ls : List AsmLine), assemble (.atIndex k :: ls) = assemble ls) ∧
  (∀ (i : Instr) (before after : List AsmLine), i.wellFormed = false →
    assemble (before ++ .record i :: after) = none) ∧
  (∀ (bs t : List Byte) (before after : List AsmLine), assemble after = some t →
    (t ≠ [] ∨ cutOff bs = false) → assemble (before ++ .truncated bs :: after) = none)

/-! ## The records: result, completion and frame -/

/-- R103 on the whole state: exec of RUN answers a next state for each of its forms. The values of `cmd`, `cnt`,
`rem`, `k` and `pixbuf` are those the byte level leaves (log 4). -/
def Obligations.RunRecordEffect : Prop :=
  ∀ (n : Nat) (p : Pixel) (cut : List Byte) (s : State), 1 ≤ n → n ≤ 128 →
    (exec (.run n none cut) s = .next { s with dec := { s.dec with
      endKind := .truncated, dmode := .done, ip := s.dec.inLen, cmd := cmdByte true n, cnt := BitVec.ofNat 8 n,
      rem := BitVec.ofNat 8 n, k := BitVec.ofNat 2 cut.length, pixbuf := fillLanes s.dec.pixbuf cut } }) ∧
    (within s.cfg.outCapPix (s.dec.OUT.length + n) = true →
      exec (.run n (some p) cut) s = .next { s with dec := { s.dec with
        OUT := s.dec.OUT ++ List.replicate n p, ip := s.dec.ip + 5, cmd := cmdByte true n,
        cnt := BitVec.ofNat 8 n, rem := 0, k := 0, pixbuf := p } }) ∧
    (∀ c, s.cfg.outCapPix = some c → c < s.dec.OUT.length + n →
      exec (.run n (some p) cut) s = .next { s with dec := { s.dec with
        OUT := s.dec.OUT ++ List.replicate (c - s.dec.OUT.length) p, ip := s.dec.ip + 5, dmode := .error, err := 2,
        errInfo := s.dec.ip + 5, cmd := cmdByte true n, cnt := BitVec.ofNat 8 n,
        rem := BitVec.ofNat 8 (n - (c - s.dec.OUT.length)), k := 0, pixbuf := p } })

/-- R104 on the whole state: exec of LIT answers a next state for each of its forms. The values of `cmd`, `cnt`,
`rem`, `k` and `pixbuf` are those the byte level leaves (log 4). -/
def Obligations.LitRecordEffect : Prop :=
  ∀ (n : Nat) (ps : List Pixel) (cut : List Byte) (s : State), 1 ≤ n → n ≤ 128 → ps.length ≤ n →
    (within s.cfg.outCapPix (s.dec.OUT.length + ps.length) = true → ps.length = n →
      exec (.lit n ps cut) s = .next { s with dec := { s.dec with
        OUT := s.dec.OUT ++ ps, ip := s.dec.ip + 1 + 4 * n, cmd := cmdByte false n, cnt := BitVec.ofNat 8 n,
        rem := 0, k := 0, pixbuf := ps.getLast?.getD s.dec.pixbuf } }) ∧
    (within s.cfg.outCapPix (s.dec.OUT.length + ps.length) = true → ps.length < n →
      exec (.lit n ps cut) s = .next { s with dec := { s.dec with
        OUT := s.dec.OUT ++ ps, endKind := .truncated, dmode := .done, ip := s.dec.inLen, cmd := cmdByte false n,
        cnt := BitVec.ofNat 8 n, rem := BitVec.ofNat 8 (n - ps.length), k := BitVec.ofNat 2 cut.length,
        pixbuf := fillLanes (ps.getLast?.getD s.dec.pixbuf) cut } }) ∧
    (∀ c p, s.cfg.outCapPix = some c → ps[c - s.dec.OUT.length]? = some p →
      exec (.lit n ps cut) s = .next { s with dec := { s.dec with
        OUT := s.dec.OUT ++ ps.take (c - s.dec.OUT.length),
        ip := s.dec.ip + 1 + 4 * (c - s.dec.OUT.length) + 4, dmode := .error, err := 2,
        errInfo := s.dec.ip + 1 + 4 * (c - s.dec.OUT.length) + 4, cmd := cmdByte false n,
        cnt := BitVec.ofNat 8 n, rem := BitVec.ofNat 8 (n - (c - s.dec.OUT.length)), k := 3,
        pixbuf := { p with a := ((ps.take (c - s.dec.OUT.length)).getLast?.getD s.dec.pixbuf).a } } })

/-- R102, R103: a RUN record at `ip`, read from IN: truncation when fewer than 4 payload bytes remain, else `n`
copies of the pixel and the next record at `ip + 5`, or CAPACITY at the copy that does not fit. -/
def Obligations.RunRecordAtIp : Prop :=
  ∀ (s : State) (c : Byte), s.dec.dmode = .cmd → Buffer.full s.dec.IN s.dec.inLen = true →
    s.dec.ip < s.dec.inLen → Buffer.get s.dec.IN s.dec.ip = some c → c.getLsbD 7 = true →
    (s.dec.inLen - (s.dec.ip + 1) < 4 →
      ∃ t, decRecordMove s = .next t ∧ t.dec.endKind = .truncated ∧ t.dec.ip = s.dec.inLen ∧
        t.dec.dmode = .done ∧ t.dec.OUT = s.dec.OUT ∧ t.dec.err = s.dec.err ∧ t.dec.errInfo = s.dec.errInfo) ∧
    (∀ r g b a, 4 ≤ s.dec.inLen - (s.dec.ip + 1) →
      Buffer.get s.dec.IN (s.dec.ip + 1) = some r → Buffer.get s.dec.IN (s.dec.ip + 2) = some g →
      Buffer.get s.dec.IN (s.dec.ip + 3) = some b → Buffer.get s.dec.IN (s.dec.ip + 4) = some a →
      (within s.cfg.outCapPix (s.dec.OUT.length + (c.toNat % 128 + 1)) = true →
        ∃ t, decRecordMove s = .next t ∧ t.dec.OUT = s.dec.OUT ++ List.replicate (c.toNat % 128 + 1) ⟨r, g, b, a⟩ ∧
          t.dec.ip = s.dec.ip + 5 ∧ t.dec.dmode = .cmd ∧ t.dec.endKind = s.dec.endKind ∧ t.dec.err = s.dec.err ∧
          t.dec.errInfo = s.dec.errInfo) ∧
      (∀ cap, s.cfg.outCapPix = some cap → s.dec.OUT.length ≤ cap →
        cap < s.dec.OUT.length + (c.toNat % 128 + 1) →
        ∃ t, decRecordMove s = .next t ∧
          t.dec.OUT = s.dec.OUT ++ List.replicate (cap - s.dec.OUT.length) ⟨r, g, b, a⟩ ∧
          t.dec.dmode = .error ∧ t.dec.err = 2 ∧ t.dec.errInfo = s.dec.ip + 5 ∧ t.dec.ip = s.dec.ip + 5))

/-- R102, R104: a LIT record at `ip`, read from IN: `m` is how many of its `n` groups are complete. They are
emitted in order, and then the record ends at the next record or in truncation; or CAPACITY is taken at the group
that does not fit. -/
def Obligations.LitRecordAtIp : Prop :=
  ∀ (s : State) (c : Byte) (n m : Nat) (ps : List Pixel), s.dec.dmode = .cmd →
    Buffer.full s.dec.IN s.dec.inLen = true → s.dec.ip < s.dec.inLen →
    Buffer.get s.dec.IN s.dec.ip = some c → c.getLsbD 7 = false → n = c.toNat % 128 + 1 →
    m = min n ((s.dec.inLen - (s.dec.ip + 1)) / 4) →
    Buffer.range s.dec.IN (s.dec.ip + 1) (4 * m) = some (ps.flatMap pixelBytes) →
    (within s.cfg.outCapPix (s.dec.OUT.length + m) = true →
      (m = n → ∃ t, decRecordMove s = .next t ∧ t.dec.OUT = s.dec.OUT ++ ps ∧ t.dec.ip = s.dec.ip + 1 + 4 * n ∧
        t.dec.dmode = .cmd ∧ t.dec.endKind = s.dec.endKind ∧ t.dec.err = s.dec.err ∧
        t.dec.errInfo = s.dec.errInfo) ∧
      (m < n → ∃ t, decRecordMove s = .next t ∧ t.dec.OUT = s.dec.OUT ++ ps ∧ t.dec.ip = s.dec.inLen ∧
        t.dec.dmode = .done ∧ t.dec.endKind = .truncated ∧ t.dec.err = s.dec.err ∧
        t.dec.errInfo = s.dec.errInfo)) ∧
    (∀ cap, s.cfg.outCapPix = some cap → s.dec.OUT.length ≤ cap → cap < s.dec.OUT.length + m →
      ∃ t, decRecordMove s = .next t ∧ t.dec.OUT = s.dec.OUT ++ ps.take (cap - s.dec.OUT.length) ∧
        t.dec.dmode = .error ∧ t.dec.err = 2 ∧
        t.dec.errInfo = s.dec.ip + 1 + 4 * (cap - s.dec.OUT.length) + 4 ∧ t.dec.ip = t.dec.errInfo)

/-- R112, R185: what exec of RUN or LIT leaves unchanged. The registers it may write are `ip`, `OUT`, `cmd`,
`cnt`, `rem`, `k` and `pixbuf`; `dmode` and `endKind` change only in truncation, and `dmode`, `err` and `errInfo`
only in CAPACITY. No byte of IN changes. -/
def Obligations.RecordFrame : Prop :=
  ∀ (i : Instr) (s t : State), exec i s = .next t →
    t.cfg = s.cfg ∧ t.enc = s.enc ∧ t.agenda = s.agenda ∧ t.freeCtr = s.freeCtr ∧
    t.dec.start = s.dec.start ∧ t.dec.inLen = s.dec.inLen ∧ t.dec.IN = s.dec.IN ∧
    (∀ a, Buffer.get t.dec.IN a = Buffer.get s.dec.IN a) ∧ (∃ ps, t.dec.OUT = s.dec.OUT ++ ps) ∧
    ((t.dec.dmode = s.dec.dmode ∧ t.dec.endKind = s.dec.endKind ∧ t.dec.err = s.dec.err ∧
        t.dec.errInfo = s.dec.errInfo) ∨
      (t.dec.dmode = .done ∧ t.dec.endKind = .truncated ∧ t.dec.err = s.dec.err ∧
        t.dec.errInfo = s.dec.errInfo) ∨
      (t.dec.dmode = .error ∧ t.dec.endKind = s.dec.endKind ∧ t.dec.err = 2 ∧ t.dec.errInfo = t.dec.ip))

/-! ## The step -/

/-- R102, R105: when DEC is to move at a record boundary and the bytes at `ip` decode to a record, whole or cut
off at L, the step is exec of that record, the agenda's entry gone. That DEC moves when the agenda is empty, even beside an ENC
that is BUSY, is the model's choice (log 2). -/
def Obligations.StepRunsTheRecordAtIp : Prop :=
  ∀ (s : State) (i : Instr) (bs : List Byte), s.dec.start = false → s.enc.start = false →
    s.cfg.level = .record → s.dec.dmode = .cmd → s.dec.ip + bs.length ≤ s.dec.inLen →
    Buffer.range s.dec.IN s.dec.ip bs.length = some bs → decode bs = .ok i →
    (i.wellFormed = true ∨ s.dec.ip + bs.length = s.dec.inLen) →
    (∀ rest, s.agenda = .dec :: rest → step s = exec i { s with agenda := rest }) ∧
    (s.agenda = [] → step s = exec i s)

/-- The record that `withFetchWord` places (log 1) is the one `decodeTableWord` reads, a whole record, and the next
step runs exactly it. -/
def Obligations.PlacedWordRunsNext : Prop :=
  ∀ (s : State) (nbits w : Nat), ∃ i, decodeTableWord nbits w = some i ∧ i.wellFormed = true ∧
    step (s.withFetchWord nbits w) = exec i { s.withFetchWord nbits w with agenda := s.agenda }

/-- R101: at a record boundary with `ip = L` the conversion ends cleanly, at either level. -/
def Obligations.EndOfInputEndsCleanly : Prop :=
  ∀ s : State, s.dec.dmode = .cmd → s.dec.ip = s.dec.inLen →
    decMove s = .next { s with dec := { s.dec with endKind := .clean, dmode := .done } }

/-- R107: "empty input → empty buffer, pixel count 0, not an error": the START and one step. That the step after
the START is DEC's, even beside an ENC that is BUSY, is the model's choice (log 2). -/
def Obligations.EmptyInputGivesEmptyOutput : Prop :=
  ∀ s : State, s.DecLaunch [] → ∃ t, Host.Core.run core 2 s = .next t ∧ t.dec.dmode = .done ∧ t.dec.OUT = [] ∧
    t.dec.outCount = 0 ∧ t.dec.endKind = .clean ∧ t.dec.err = 0

/-! ## Decoder conversions -/

/-- R106: from START the machine runs `Decode(IN)` to its end, at either level; at the record level in at most
`L div 5 + 1` steps after the START. That all of these steps are DEC's, with the agenda empty and even beside an ENC
that is BUSY, is the model's choice (log 2). -/
def Obligations.ConversionRunsDecode : Prop :=
  ∀ (s : State) (inp : List Byte), s.DecLaunch inp →
    ∃ k t, Host.Core.run core (k + 1) s = .next t ∧ t.dec.observe = decodeAll s.cfg.outCapPix inp ∧
      t.dec.doneBit = true ∧ (s.cfg.level = .record → k ≤ inp.length / 5 + 1)

/-- R128: both levels, started in CMD with `ip = 0` and `OUT = []`, reach DONE or ERROR with what `Decode(IN)`
gives. -/
def Obligations.BothLevelsReachDecode : Prop :=
  ∀ (s : State) (inp : List Byte), s.dec.AtStart inp →
    (∃ k t, moves decByteMove k s = .next t ∧ t.dec.doneBit = true ∧
      t.dec.observe = decodeAll s.cfg.outCapPix inp) ∧
    (∃ k t, moves decRecordMove k s = .next t ∧ t.dec.doneBit = true ∧
      t.dec.observe = decodeAll s.cfg.outCapPix inp)

/-- R128, record by record and on the whole state: what one record-level step answers, some number of byte-level
steps answer too. -/
def Obligations.ByteLevelSimulatesRecordLevel : Prop :=
  ∀ s t : State, s.dec.dmode = .cmd → Buffer.full s.dec.IN s.dec.inLen = true → s.dec.ip ≤ s.dec.inLen →
    decRecordMove s = .next t → ∃ k, 1 ≤ k ∧ moves decByteMove k s = .next t

/-- R129: a byte-level conversion that ends in DONE takes exactly `L + S + 1` steps. The stream is whole records
and perhaps one that is cut off, and its pixels fit. -/
def Obligations.ByteLevelStepCount : Prop :=
  ∀ (s : State) (rs : List Instr) (last : Option Instr),
    (∀ i ∈ rs, i.wellFormed = true) → (∀ i ∈ last, i.fetchable = true ∧ i.wellFormed = false) →
    s.dec.AtStart (rs.flatMap encode ++ last.toList.flatMap encode) →
    within s.cfg.outCapPix (rs.flatMap Instr.expand ++ last.toList.flatMap Instr.expand).length = true →
    (∃ t, moves decByteMove (s.dec.inLen + runCopies rs + 1) s = .next t ∧ t.dec.dmode = .done) ∧
    (∃ u, moves decByteMove (s.dec.inLen + runCopies rs) s = .next u ∧ u.dec.busy = true)

/-- R100: `Decode` accepts every finite byte sequence: it ends in DONE with no error and all input consumed, and
it ends cleanly exactly on the sequences of whole records. -/
def Obligations.EveryInputDecodes : Prop :=
  ∀ inp : List Byte, (decodeAll none inp).dmode = .done ∧ (decodeAll none inp).err = 0 ∧
    (decodeAll none inp).errInfo = 0 ∧ (decodeAll none inp).ip = inp.length ∧
    ((decodeAll none inp).endKind = .clean ∨ (decodeAll none inp).endKind = .truncated) ∧
    ((decodeAll none inp).endKind = .clean ↔
      ∃ rs : List Instr, (∀ i ∈ rs, i.wellFormed = true) ∧ inp = rs.flatMap encode)

/-- R109: a stream less its last 1 to 3 bytes decodes with no error to the full result less the last record's
incomplete pixel; for RUN that is every copy. -/
def Obligations.PrefixProperty : Prop :=
  ∀ (rs : List Instr) (last : Instr) (d : Nat), (∀ i ∈ rs, i.wellFormed = true) → last.wellFormed = true →
    1 ≤ d → d ≤ 3 →
    decodeAll none ((rs ++ [last]).flatMap encode) =
      ⟨.done, ((rs ++ [last]).flatMap encode).length, rs.flatMap Instr.expand ++ last.expand, .clean, 0, 0⟩ ∧
    decodeAll none (((rs ++ [last]).flatMap encode).take (((rs ++ [last]).flatMap encode).length - d)) =
      ⟨.done, ((rs ++ [last]).flatMap encode).length - d,
        rs.flatMap Instr.expand ++ (match last with | .run _ _ _ => [] | .lit _ ps _ => ps.dropLast),
        .truncated, 0, 0⟩

/-- R111: for whole records OUT_COUNT is the sum of their counts; a record cut off at the end adds its complete
groups, and none if it is a RUN. -/
def Obligations.SumLaw : Prop :=
  ∀ rs : List Instr, (∀ i ∈ rs, i.wellFormed = true) →
    (decodeAll none (rs.flatMap encode)).out = rs.flatMap Instr.expand ∧
    (decodeAll none (rs.flatMap encode)).out.length = (rs.map Instr.count).sum ∧
    (∀ n ps cut, (Instr.lit n ps cut).fetchable = true → (Instr.lit n ps cut).wellFormed = false →
      (decodeAll none (rs.flatMap encode ++ encode (.lit n ps cut))).out.length =
        (rs.map Instr.count).sum + ps.length) ∧
    (∀ n cut, (Instr.run n none cut).fetchable = true →
      (decodeAll none (rs.flatMap encode ++ encode (.run n none cut))).out.length = (rs.map Instr.count).sum)

/-- R33: the four bounds. -/
def Obligations.SizeBounds : Prop :=
  (∀ inp : List Byte, (decodeAll none inp).ip = inp.length ∧
    (decodeAll none inp).out.length ≤ 128 * (inp.length / 5)) ∧
  (∀ pin : List Pixel, (encodeAll none pin).pos = pin.length ∧ (encodeStream pin).length ≤ 5 * pin.length)

/-- R181, R33: a DEC step that ends a conversion in DONE leaves `ip = L`, `ERR = 0` and `ERR_INFO = 0`, and records
the ending. -/
def Obligations.EndingsConsumeTheInput : Prop :=
  ∀ s t : State, Inv s → s.dec.busy = true → decMove s = .next t → t.dec.dmode = .done →
    t.dec.ip = t.dec.inLen ∧ t.dec.err = 0 ∧ t.dec.errInfo = 0 ∧
    (t.dec.endKind = .clean ∨ t.dec.endKind = .truncated)

/-- R120: a byte-level step reads at most one byte, the next one, and emits at most one pixel. -/
def Obligations.ByteStepReadsOneEmitsOne : Prop :=
  ∀ s t : State, decByteMove s = .next t →
    (t.dec.ip = s.dec.ip ∨ (t.dec.ip = s.dec.ip + 1 ∧ s.dec.ip < s.dec.inLen)) ∧
    (t.dec.OUT = s.dec.OUT ∨ ∃ p, t.dec.OUT = s.dec.OUT ++ [p])

/-- R112: DEC writes only `OUT`, its own registers and its status; the encoder's counterpart with it (R61). -/
def Obligations.AgentsWriteOnlyTheirOwn : Prop :=
  (∀ s t : State, decMove s = .next t → t = { s with dec := t.dec } ∧ t.dec.IN = s.dec.IN ∧
    t.dec.inLen = s.dec.inLen ∧ t.dec.start = s.dec.start ∧ ∃ ps, t.dec.OUT = s.dec.OUT ++ ps) ∧
  (∀ s t : State, encMove s = .next t → t = { s with enc := t.enc } ∧ t.enc.PIN = s.enc.PIN ∧
    t.enc.inLen = s.enc.inLen ∧ t.enc.start = s.enc.start ∧ ∃ bs, t.enc.BOUT = s.enc.BOUT ++ bs)

/-! ## Encoder -/

/-- R140: `RunLen(i)` is the largest `k >= 1` such that `i + k <= N` and the `k` pixels from `i` equal the one at
`i`. -/
def Obligations.RunLenIsTheMaximalRun : Prop :=
  ∀ (pin : List Pixel) (i : Nat), i < pin.length →
    (1 ≤ runLen pin i ∧ i + runLen pin i ≤ pin.length ∧ ∀ j < runLen pin i, pin[i + j]? = pin[i]?) ∧
    (∀ k, 1 ≤ k → i + k ≤ pin.length → (∀ j < k, pin[i + j]? = pin[i]?) → k ≤ runLen pin i)

/-- R142: the SCAN step. It needs the pixels from `pos` on (R61), and none at `pos = N`. -/
def Obligations.ScanStepChooses : Prop :=
  ∀ s : State, s.enc.emode = .scan →
    (s.enc.pos = s.enc.inLen → encMove s = .next { s with enc := { s.enc with emode := .done } }) ∧
    (∀ (pin : List Pixel) (p : Pixel), s.enc.HoldsFrom s.enc.pos pin → pin[s.enc.pos]? = some p →
      (3 ≤ runLen pin s.enc.pos → encMove s = .next { s with enc := { s.enc with
        runPix := p, runRem := runLen pin s.enc.pos, emode := .run } }) ∧
      (runLen pin s.enc.pos < 3 → encMove s = .next { s with enc := { s.enc with
        litStart := s.enc.pos, litLen := 1, pos := s.enc.pos + 1, emode := .lit } }))

/-- R143: the RUN step emits one chunk of at most 128, or takes the event EmitRecord raises (R145). That
ENC_OVERFLOW, which no run reaches (R153), is answered by a next state is the model's reading (log 8). -/
def Obligations.RunStepEmitsOneChunk : Prop :=
  ∀ s : State, s.enc.emode = .run →
    (1 ≤ s.enc.runRem → within s.cfg.outCapBytes (s.enc.BOUT.length + 5) = true →
      encMove s = .next { s with enc := { s.enc with
        BOUT := s.enc.BOUT ++ encode (.wholeRun (min s.enc.runRem 128) s.enc.runPix),
        runRem := s.enc.runRem - min s.enc.runRem 128, pos := s.enc.pos + min s.enc.runRem 128,
        emode := if s.enc.runRem - min s.enc.runRem 128 = 0 then .scan else .run } }) ∧
    (1 ≤ s.enc.runRem → within s.cfg.outCapBytes (s.enc.BOUT.length + 5) = false →
      encMove s = .next { s with enc := { s.enc with emode := .error, err := 2, errInfo := s.enc.pos } }) ∧
    (s.enc.runRem = 0 → encMove s = .next { s with enc := { s.enc with emode := .error, err := 1, errInfo := 0 } })

/-- R144: the LIT step absorbs the pixel at `pos`, or emits the block, or takes the event EmitRecord raises
(R145). The block lies inside the input, and of PIN only its pixels and those from `pos` on are needed (R61). How the
window of 8 is used is the spec's decision D8 (U3), and that ENC_OVERFLOW, which no run reaches (R153), is answered
by a next state is the model's reading (log 8). -/
def Obligations.LitStepExtendsOrCloses : Prop :=
  ∀ (s : State) (pin : List Pixel) (n : Nat), s.enc.emode = .lit →
    s.enc.HoldsFrom (min s.enc.litStart s.enc.pos) pin → n = s.enc.litLen.toNat → s.enc.litStart + n ≤ pin.length →
    ((n < 128 ∧ s.enc.pos < pin.length ∧ min (runLen pin s.enc.pos) 8 < 3) →
      encMove s = .next { s with enc := { s.enc with litLen := s.enc.litLen + 1, pos := s.enc.pos + 1 } }) ∧
    (¬ (n < 128 ∧ s.enc.pos < pin.length ∧ min (runLen pin s.enc.pos) 8 < 3) →
      (1 ≤ n → n ≤ 128 → within s.cfg.outCapBytes (s.enc.BOUT.length + (1 + 4 * n)) = true →
        encMove s = .next { s with enc := { s.enc with
          BOUT := s.enc.BOUT ++ encode (.wholeLit n (slice pin s.enc.litStart n)), emode := .scan } }) ∧
      (1 ≤ n → n ≤ 128 → within s.cfg.outCapBytes (s.enc.BOUT.length + (1 + 4 * n)) = false →
        encMove s = .next { s with enc := { s.enc with emode := .error, err := 2, errInfo := s.enc.pos } }) ∧
      (n = 0 ∨ 128 < n →
        encMove s = .next { s with enc := { s.enc with emode := .error, err := 1, errInfo := n } }))

/-- R67: BOUT only ever grows by whole records. -/
def Obligations.OutputGrowsByWholeRecords : Prop :=
  ∀ s t : State, encMove s = .next t →
    t.enc.BOUT = s.enc.BOUT ∨ ∃ i, i.wellFormed = true ∧ t.enc.BOUT = s.enc.BOUT ++ encode i

/-- R146: from START the machine runs `Encode(PIN)` to its end. That ENC moves with the agenda empty is the model's
choice (log 2), and the window's use is the spec's decision D8. -/
def Obligations.ConversionRunsEncode : Prop :=
  ∀ (s : State) (pin : List Pixel), s.EncLaunch pin →
    ∃ k t, Host.Core.run core (k + 1) s = .next t ∧ t.enc.observe = encodeAll s.cfg.outCapBytes pin ∧
      t.enc.doneBit = true

/-- R147: `Decode(Encode(B)).OUT = B` with a clean ending, under unbounded capacities. -/
def Obligations.RoundTrip : Prop :=
  ∀ pin : List Pixel,
    decodeAll none (encodeStream pin) = ⟨.done, (encodeStream pin).length, pin, .clean, 0, 0⟩

/-- R147 on the machine: ENC turns PIN into a stream, and any DEC launched on that stream gives PIN back. That the
agent moves at all with the agenda empty, and DEC before ENC, is the model's choice (log 2). -/
def Obligations.RoundTripThroughTheMachine : Prop :=
  ∀ (s : State) (pin : List Pixel), s.EncLaunch pin → s.cfg.outCapBytes = none →
    ∃ k t, Host.Core.run core k s = .next t ∧ t.enc.status = .succeeded ∧
      ∀ u : State, u.DecLaunch t.enc.BOUT → u.cfg.outCapPix = none →
        ∃ k' v, Host.Core.run core k' u = .next v ∧ v.dec.status = .succeeded ∧ v.dec.OUT = pin ∧
          v.dec.endKind = .clean

/-- R148: every record the encoder emits has a count from 1 to 128, whatever the capacity; with unbounded capacity
the records stand for PIN. -/
def Obligations.EmittedCountsAreLegal : Prop :=
  ∀ (cap : Option Nat) (pin : List Pixel), ∃ rs : List Instr,
    (encodeAll cap pin).bout = rs.flatMap encode ∧
    (∀ i ∈ rs, i.wellFormed = true ∧ 1 ≤ i.count ∧ i.count ≤ 128) ∧
    (cap = none → rs.flatMap Instr.expand = pin)

/-- R150: the encoder's output is the closed form. Its reading of the lookahead window is the spec's decision D8. -/
def Obligations.EncoderGivesTheClosedForm : Prop :=
  ∀ pin : List Pixel, encodeStream pin = (closedForm pin).flatMap encode

/-- R149: the blocks of the closed form are the maximal blocks of equal pixels. -/
def Obligations.BlocksAreMaximalRuns : Prop :=
  ∀ pin : List Pixel, ((blocks pin).flatMap fun b => List.replicate b.2 b.1) = pin ∧
    (∀ b ∈ blocks pin, 1 ≤ b.2) ∧
    (∀ (i : Nat) (b c : Pixel × Nat), (blocks pin)[i]? = some b → (blocks pin)[i + 1]? = some c → b.1 ≠ c.1)

/-- R209, R143: a buffer that is one run of 3 or more gives its chunks from the length measured once. -/
def Obligations.OneRunGivesItsChunks : Prop :=
  ∀ (len : Nat) (p : Pixel), 3 ≤ len →
    encodeStream (List.replicate len p) = (runsRecords len p).flatMap encode

/-- R152: the encoder accepts every finite PixelBuffer and, with unbounded capacity, never ends in ERROR. -/
def Obligations.EncoderNeverFails : Prop :=
  ∀ pin : List Pixel, (encodeAll none pin).emode = .done ∧ (encodeAll none pin).err = 0 ∧
    (encodeAll none pin).errInfo = 0 ∧ (encodeAll none pin).pos = pin.length

/-- R153: in the machine's states the count is legal on entry to RUN and LIT, and no step raises ENC_OVERFLOW. -/
def Obligations.OverflowIsNeverReached : Prop :=
  ∀ s : State, Inv s →
    (s.enc.emode = .run → 1 ≤ min s.enc.runRem 128 ∧ min s.enc.runRem 128 ≤ 128) ∧
    (s.enc.emode = .lit → 1 ≤ s.enc.litLen.toNat ∧ s.enc.litLen.toNat ≤ 128) ∧
    (∀ t, encMove s = .next t → t.enc.err ≠ 1)

/-! ## Invariants and whole-machine rules -/

/-- The state after reset meets the invariant, with every configuration. -/
def Obligations.ResetMeetsTheInvariant : Prop := ∀ cfg : Config, Inv (State.resetWith cfg)

/-- Every step keeps the invariant (R24, R27, R30, R34, R35, R76, R153). -/
def Obligations.StepKeepsTheInvariant : Prop := ∀ s t : State, Inv s → step s = .next t → Inv t

/-- R152, R180, R204, R205: a state of the invariant stops only because the host breaks a duty: it writes an index
W_ADDR cannot name, writes a buffer while the agent is BUSY, or launches outside the model. -/
def Obligations.OnlyTheHostStopsTheMachine : Prop :=
  ∀ s : State, Inv s →
    (∃ t, decMove s = .next t) ∧ (∃ t, encMove s = .next t) ∧
    (∀ f, step s = .fault f → ∃ ag i, f = .noSuchIndex ag i ∧ ∃ c rest, s.agenda = .host c :: rest) ∧
    (∀ r, step s = .refused r → ∃ ag, r = .inputWrittenWhileBusy ag ∨ r = .launchOutsideModel ag)

/-- R187: ERROR is final: only a START pulse or a hardware reset leaves it, and until then `ERR` and `ERR_INFO`
stay. -/
def Obligations.ErrorIsFinal : Prop :=
  (∀ s t : State, step s = .next t → s.dec.dmode = .error →
    (t.dec.dmode = .error ∧ t.dec.err = s.dec.err ∧ t.dec.errInfo = s.dec.errInfo) ∨
    s.dec.start = true ∨ ∃ rest, s.agenda = .host (.reset .dec) :: rest) ∧
  (∀ s t : State, step s = .next t → s.enc.emode = .error →
    (t.enc.emode = .error ∧ t.enc.err = s.enc.err ∧ t.enc.errInfo = s.enc.errInfo) ∨
    s.enc.start = true ∨ ∃ rest, s.agenda = .host (.reset .enc) :: rest)

/-- R20, R194: neither agent observes the other, the agenda or the free-value counter: its step does the same
beside any other. -/
def Obligations.AgentsShareNothing : Prop :=
  (∀ (s : State) (e : Enc) (ag : List Move) (c : Nat),
    decMove { s with enc := e, agenda := ag, freeCtr := c } =
      match decMove s with
      | .next t => .next { t with enc := e, agenda := ag, freeCtr := c }
      | .fault f => .fault f
      | .refused r => .refused r) ∧
  (∀ (s : State) (d : Dec) (ag : List Move) (c : Nat),
    encMove { s with dec := d, agenda := ag, freeCtr := c } =
      match encMove s with
      | .next t => .next { t with dec := d, agenda := ag, freeCtr := c }
      | .fault f => .fault f
      | .refused r => .refused r)

/-- R203: no value from one conversion affects a later one. Two states with the same parameters and input, launched,
show the same at every later step, whatever the registers held before and whatever START left in them. -/
def Obligations.NothingPersists : Prop :=
  (∀ (s s' : State) (k : Nat), s.cfg = s'.cfg → s.dec.IN = s'.dec.IN → s.dec.inLen = s'.dec.inLen →
    s.launchOk .dec = true →
    ∃ t t', moves decMove k (s.launch .dec) = .next t ∧ moves decMove k (s'.launch .dec) = .next t' ∧
      t.dec.observe = t'.dec.observe) ∧
  (∀ (s s' : State) (k : Nat), s.cfg = s'.cfg → s.enc.PIN = s'.enc.PIN → s.enc.inLen = s'.enc.inLen →
    s.launchOk .enc = true →
    ∃ t t', moves encMove k (s.launch .enc) = .next t ∧ moves encMove k (s'.launch .enc) = .next t' ∧
      t.enc.observe = t'.enc.observe)

/-! ## Reset, START and the host -/

/-- R39: DEC after a hardware reset and after START. The first two clauses do not speak of the registers R39 leaves
unspecified. The third does: that a reset of the state after reset gives those registers the same values too is the
model's choice (log 5). That the pulse waits in State and is seen by the step is the model's form of it (log 15). -/
def Obligations.DecoderResetAndStart : Prop :=
  (∀ s : State, ∃ t, hostMove (.reset .dec) s = .next t ∧ t.enc = s.enc ∧ t.dec.dmode = .idle ∧ t.dec.ip = 0 ∧
    t.dec.OUT = [] ∧ t.dec.endKind = .none ∧ t.dec.err = 0 ∧ t.dec.errInfo = 0 ∧ t.dec.inLen = 0 ∧
    t.dec.IN = s.dec.IN) ∧
  (∀ s : State, s.dec.start = true → s.dec.busy = false → s.launchOk .dec = true →
    ∃ t, step s = .next t ∧ t.enc = s.enc ∧ t.dec.dmode = .cmd ∧ t.dec.ip = 0 ∧ t.dec.OUT = [] ∧
      t.dec.endKind = .none ∧ t.dec.err = 0 ∧ t.dec.errInfo = 0 ∧ t.dec.inLen = s.dec.inLen ∧
      t.dec.IN = s.dec.IN ∧ t.dec.start = false) ∧
  (∀ cfg : Config, hostMove (.reset .dec) (State.resetWith cfg) = .next (State.resetWith cfg))

/-- R40: ENC after a hardware reset and after START. The first two clauses do not speak of the registers R40 leaves
unspecified. The third does: that a reset of the state after reset gives those registers the same values too is the
model's choice (log 5). That the pulse waits in State and is seen by the step is the model's form of it (log 15). -/
def Obligations.EncoderResetAndStart : Prop :=
  (∀ s : State, ∃ t, hostMove (.reset .enc) s = .next t ∧ t.dec = s.dec ∧ t.enc.emode = .idle ∧ t.enc.pos = 0 ∧
    t.enc.BOUT = [] ∧ t.enc.err = 0 ∧ t.enc.errInfo = 0 ∧ t.enc.inLen = 0 ∧ t.enc.PIN = s.enc.PIN) ∧
  (∀ s : State, s.dec.start = false → s.enc.start = true → s.enc.busy = false → s.launchOk .enc = true →
    ∃ t, step s = .next t ∧ t.dec = s.dec ∧ t.enc.emode = .scan ∧ t.enc.pos = 0 ∧ t.enc.BOUT = [] ∧
      t.enc.err = 0 ∧ t.enc.errInfo = 0 ∧ t.enc.inLen = s.enc.inLen ∧ t.enc.PIN = s.enc.PIN ∧
      t.enc.start = false) ∧
  (∀ cfg : Config, hostMove (.reset .enc) (State.resetWith cfg) = .next (State.resetWith cfg))

/-- R202: a START pulse while BUSY has no effect. -/
def Obligations.StartWhileBusyHasNoEffect : Prop :=
  (∀ s : State, s.dec.start = true → s.dec.busy = true →
    step s = .next { s with dec := { s.dec with start := false } }) ∧
  (∀ s : State, s.dec.start = false → s.enc.start = true → s.enc.busy = true →
    step s = .next { s with enc := { s.enc with start := false } })

/-- R204, U8: a launch of DEC or of ENC is refused exactly when it breaks the host's duties: a capacity or the length
is not below `2^W_ADDR`, or an index below the length was not written. That a missing capacity breaks them when
W_ADDR is given, and that either agent's launch checks both capacities, are the model's choices (log 3); that such a
launch stops the block under this name is its reading of "outside the model" (log 12). -/
def Obligations.LaunchNeedsTheHostsDuties : Prop :=
  (∀ s : State, s.dec.start = true → s.dec.busy = false →
    (step s = .refused (.launchOutsideModel .dec) ↔
      (∃ w, s.cfg.wAddr = some w ∧
        ((∀ c, s.cfg.outCapPix = some c → 2 ^ w ≤ c) ∨ (∀ c, s.cfg.outCapBytes = some c → 2 ^ w ≤ c) ∨
          2 ^ w ≤ s.dec.inLen)) ∨
      ∃ i < s.dec.inLen, Buffer.get s.dec.IN i = none)) ∧
  (∀ s : State, s.dec.start = false → s.enc.start = true → s.enc.busy = false →
    (step s = .refused (.launchOutsideModel .enc) ↔
      (∃ w, s.cfg.wAddr = some w ∧
        ((∀ c, s.cfg.outCapPix = some c → 2 ^ w ≤ c) ∨ (∀ c, s.cfg.outCapBytes = some c → 2 ^ w ≤ c) ∨
          2 ^ w ≤ s.enc.inLen)) ∨
      ∃ i < s.enc.inLen, Buffer.get s.enc.PIN i = none))

/-- R205: while an agent is BUSY no step changes its input buffer, a write of IN_LEN is ignored, and a write of the
buffer is refused. -/
def Obligations.InputIsStableWhileBusy : Prop :=
  (∀ s : State, s.dec.busy = true →
    (∀ t, step s = .next t → t.dec.IN = s.dec.IN) ∧
    (∀ v, hostMove (.writeInLen .dec v) s = .next s) ∧
    (∀ i b, hostMove (.writeIn i b) s = .refused (.inputWrittenWhileBusy .dec))) ∧
  (∀ s : State, s.enc.busy = true →
    (∀ t, step s = .next t → t.enc.PIN = s.enc.PIN) ∧
    (∀ v, hostMove (.writeInLen .enc v) s = .next s) ∧
    (∀ i p, hostMove (.writePin i p) s = .refused (.inputWrittenWhileBusy .enc)))

/-- R34, R60, R61, R191, R204: outside BUSY a host write of IN or PIN changes the one element it names and nothing
else, a write of IN_LEN sets that agent's length and nothing else, and START is written at any time. -/
def Obligations.HostWritesTakeEffect : Prop :=
  (∀ (s : State) (i : Nat) (b : Byte), s.dec.busy = false → (∀ w, s.cfg.wAddr = some w → i < 2 ^ w) →
    ∃ t, hostMove (.writeIn i b) s = .next t ∧ t = { s with dec := { s.dec with IN := t.dec.IN } } ∧
      ∀ j, Buffer.get t.dec.IN j = if j = i then some b else Buffer.get s.dec.IN j) ∧
  (∀ (s : State) (i : Nat) (p : Pixel), s.enc.busy = false → (∀ w, s.cfg.wAddr = some w → i < 2 ^ w) →
    ∃ t, hostMove (.writePin i p) s = .next t ∧ t = { s with enc := { s.enc with PIN := t.enc.PIN } } ∧
      ∀ j, Buffer.get t.enc.PIN j = if j = i then some p else Buffer.get s.enc.PIN j) ∧
  (∀ (s : State) (v : Nat), s.dec.busy = false →
    hostMove (.writeInLen .dec v) s = .next { s with dec := { s.dec with inLen := v } }) ∧
  (∀ (s : State) (v : Nat), s.enc.busy = false →
    hostMove (.writeInLen .enc v) s = .next { s with enc := { s.enc with inLen := v } }) ∧
  (∀ s : State, hostMove (.start .dec) s = .next { s with dec := { s.dec with start := true } } ∧
    hostMove (.start .enc) s = .next { s with enc := { s.enc with start := true } })

/-- R206, R207: the host has a defined output exactly when the conversion has succeeded, and then it is all of it
(log 11). -/
def Obligations.OutputIsVisibleAtSuccessOnly : Prop :=
  ∀ s : State, Inv s →
    (s.dec.port.output = if s.dec.status = .succeeded then some (s.dec.OUT, s.dec.OUT.length) else none) ∧
    (s.enc.port.output = if s.enc.status = .succeeded then some (s.enc.BOUT, s.enc.BOUT.length) else none)

/-! ## The encoder's reads -/

/-- R61, R141, R210: ENC reads no pixel at or beyond N, and none below the first pixel of the record being built:
`pos` in SCAN and RUN, `litStart` in LIT, where it also reads none past the lookahead window at `pos`. Its step does
the same with any other pixels there, or with none. R61's last two sentences are the spec's own inference, and the
window's use is its decision D8. -/
def Obligations.EncoderReadsOnlyItsRecordAndWindow : Prop :=
  ∀ (s : State) (pin : Buffer Pixel) (base top : Nat),
    ((s.enc.emode ≠ .lit ∧ base = s.enc.pos ∧ top = s.enc.inLen) ∨
      (s.enc.emode = .lit ∧ s.enc.pos = s.enc.litStart + s.enc.litLen.toNat ∧ base = s.enc.litStart ∧
        top = min (s.enc.pos + 8) s.enc.inLen)) →
    (∀ j, base ≤ j → j < top → Buffer.get pin j = Buffer.get s.enc.PIN j) →
    encMove { s with enc := { s.enc with PIN := pin } } =
      match encMove s with
      | .next t => .next { t with enc := { t.enc with PIN := pin } }
      | .fault f => .fault f
      | .refused r => .refused r
end

