-- ==== Sys2Proof/Laws/Buffers.lean ====
section
/-! SUPPORT. The laws of the indexed buffers: a write is read back, leaves every other index alone, and keeps the
canonical form. -/

namespace Sys2Proof.Machine

variable {α : Type}

@[simp] theorem Buffer.get_nil (i : Nat) : Buffer.get ([] : Buffer α) i = none := rfl

theorem Buffer.get_cons (j i : Nat) (v : α) (m : Buffer α) :
    Buffer.get ((j, v) :: m) i = if j = i then some v else Buffer.get m i := rfl

/-- What an index reads as after a write: at the written index the value, elsewhere what it was. -/
theorem Buffer.get_set (m : Buffer α) (i j : Nat) (v : α) :
    Buffer.get (Buffer.set m i v) j = if i = j then some v else Buffer.get m j := by
  induction m with
  | nil => simp [Buffer.set, Buffer.get_cons]
  | cons c m ih =>
    obtain ⟨k, w⟩ := c
    rw [Buffer.set]
    split
    · rfl
    · split
      · next h => subst h; simp only [Buffer.get_cons]; split <;> rfl
      · simp only [Buffer.get_cons, ih]; split <;> split <;> simp_all

theorem Buffer.get_setMany (m : Buffer α) (vs : List α) (i j : Nat) :
    Buffer.get (Buffer.setMany m i vs) j =
      if i ≤ j ∧ j < i + vs.length then vs[j - i]? else Buffer.get m j := by
  induction vs generalizing i with
  | nil => simp only [Buffer.setMany, List.length_nil]; split <;> [omega; rfl]
  | cons v vs ih =>
    simp only [Buffer.setMany, Buffer.get_set, ih, List.length_cons]
    by_cases h : i = j
    · subst h; simp
    · by_cases h' : i ≤ j
      · obtain ⟨d, rfl⟩ : ∃ d, j = i + 1 + d := ⟨j - i - 1, by omega⟩
        simp only [h, show i + 1 + d - i = d + 1 by omega, show i + 1 + d - (i + 1) = d by omega,
          List.getElem?_cons_succ, if_false]
        split <;> split <;> first | rfl | omega
      · rw [if_neg h, if_neg (by omega), if_neg (by omega)]

/-- The indices of a written buffer are the old ones and the written one. -/
theorem Buffer.mem_set_index {m : Buffer α} {i x : Nat} {v : α}
    (h : x ∈ (Buffer.set m i v).map Prod.fst) : x = i ∨ x ∈ m.map Prod.fst := by
  induction m with
  | nil => simp_all [Buffer.set]
  | cons c m ih =>
    obtain ⟨k, w⟩ := c
    rw [Buffer.set] at h
    split at h
    · simpa using h
    · split at h
      · next hk => simp only [List.map_cons, List.mem_cons] at h ⊢; tauto
      · simp only [List.map_cons, List.mem_cons] at h ⊢
        obtain h | h := h
        · exact .inr (.inl h)
        · exact (ih h).imp id .inr

theorem Buffer.wf_iff (m : Buffer α) : Buffer.wf m = true ↔ (m.map Prod.fst).Pairwise (· < ·) := by
  simp [Buffer.wf]

/-- A write keeps the canonical form. -/
theorem Buffer.set_wf {m : Buffer α} (h : Buffer.wf m = true) (i : Nat) (v : α) :
    Buffer.wf (Buffer.set m i v) = true := by
  rw [Buffer.wf_iff] at *
  induction m with
  | nil => simp [Buffer.set]
  | cons c m ih =>
    obtain ⟨k, w⟩ := c
    rw [List.map_cons, List.pairwise_cons] at h
    rw [Buffer.set]
    split
    · next hlt =>
      simp only [List.map_cons, List.pairwise_cons, List.mem_cons]
      refine ⟨?_, h⟩
      rintro x (rfl | hx)
      · exact hlt
      · exact lt_trans hlt (h.1 x hx)
    · split
      · next hk => subst hk; simpa using h
      · next hlt hne =>
        simp only [List.map_cons, List.pairwise_cons]
        refine ⟨fun x hx => ?_, ih h.2⟩
        obtain rfl | hx := Buffer.mem_set_index hx
        · omega
        · exact h.1 x hx

/-- A byte write keeps the canonical form. -/
theorem Memory.set_wf {m : Memory} (h : Memory.wf m = true) (i : Nat) (b : Byte) :
    Memory.wf (Buffer.set m i b) = true := Buffer.set_wf h i b

/-- A run of writes keeps the canonical form. -/
theorem Buffer.setMany_wf {m : Buffer α} (h : Buffer.wf m = true) (i : Nat) (vs : List α) :
    Buffer.wf (Buffer.setMany m i vs) = true := by
  induction vs generalizing i with
  | nil => exact h
  | cons v vs ih => exact Buffer.set_wf (ih (i + 1)) i v

/-- Everything a range read can answer. -/
theorem Buffer.range_eq_some (m : Buffer α) (i n : Nat) (vs : List α) :
    Buffer.range m i n = some vs ↔ vs.length = n ∧ ∀ j < n, Buffer.get m (i + j) = vs[j]? := by
  induction n generalizing i vs with
  | zero =>
    simp only [Buffer.range, Option.some.injEq, List.length_eq_zero_iff, Nat.not_lt_zero, false_implies,
      implies_true, and_true]
    exact eq_comm
  | succ n ih =>
    rw [Buffer.range]
    constructor
    · intro h
      split at h
      · next v t hv ht =>
        obtain ⟨hlen, hget⟩ := (ih (i + 1) t).1 ht
        cases Option.some.inj h
        refine ⟨by simp [hlen], fun j hj => ?_⟩
        cases j with
        | zero => simpa using hv
        | succ j => rw [show i + (j + 1) = i + 1 + j by omega, hget j (by omega)]; simp
      · cases h
    · rintro ⟨hlen, hget⟩
      obtain ⟨v, t, rfl⟩ : ∃ v t, vs = v :: t := by
        cases vs with
        | nil => simp at hlen
        | cons v t => exact ⟨v, t, rfl⟩
      have hv : Buffer.get m i = some v := by simpa using hget 0 (by omega)
      have ht : Buffer.range m (i + 1) n = some t := by
        refine (ih (i + 1) t).2 ⟨by simpa using hlen, fun j hj => ?_⟩
        simpa [show i + (j + 1) = i + 1 + j by omega] using hget (j + 1) (by omega)
      simp [hv, ht]

theorem Buffer.full_iff (m : Buffer α) (n : Nat) :
    Buffer.full m n = true ↔ ∀ i < n, (Buffer.get m i).isSome = true := by
  simp [Buffer.full]

/-- A range below a full length is there. -/
theorem Buffer.range_of_full {m : Buffer α} {l : Nat} (h : Buffer.full m l = true) (i n : Nat)
    (hle : i + n ≤ l) : ∃ vs, Buffer.range m i n = some vs := by
  rw [Buffer.full_iff] at h
  induction n generalizing i with
  | zero => exact ⟨[], rfl⟩
  | succ n ih =>
    obtain ⟨t, ht⟩ := ih (i + 1) (by omega)
    obtain ⟨v, hv⟩ := Option.isSome_iff_exists.1 (h i (by omega))
    exact ⟨v :: t, by simp [Buffer.range, hv, ht]⟩

/-- A range inside a range that is there. -/
theorem Buffer.range_sub {m : Buffer α} {l : Nat} {vs : List α} (h : Buffer.range m 0 l = some vs) (i n : Nat)
    (hle : i + n ≤ l) : Buffer.range m i n = some ((vs.drop i).take n) := by
  rw [Buffer.range_eq_some] at *
  obtain ⟨hlen, hget⟩ := h
  refine ⟨by simp; omega, fun j hj => ?_⟩
  have := hget (i + j) (by omega)
  rw [Nat.zero_add] at this
  rw [this, List.getElem?_take, if_pos hj, List.getElem?_drop]

/-- `MemRead` answers exactly the bytes that are there, below L. -/
theorem Dec.memRead_eq_ok (d : Dec) (a n : Nat) (bs : List Byte) :
    d.memRead a n = .ok bs ↔ a + n ≤ d.inLen ∧ Buffer.range d.IN a n = some bs := by
  rw [Dec.memRead]
  split
  · next h =>
    cases hr : Buffer.range d.IN a n with
    | none => simp
    | some t => simp [h]
  · next h => simp [h]

/-- `PixRead` answers exactly the pixel that is there, below N. -/
theorem Enc.pixRead_eq_ok (e : Enc) (i : Nat) (p : Pixel) :
    e.pixRead i = .ok p ↔ i < e.inLen ∧ Buffer.get e.PIN i = some p := by
  rw [Enc.pixRead]
  split
  · next h => cases Buffer.get e.PIN i <;> simp [h]
  · next h => simp [h]

/-- A range of PIN is answered exactly when it is there, below N. -/
theorem Enc.pixRange_eq_ok (e : Enc) (i n : Nat) (ps : List Pixel) :
    e.pixRange i n = .ok ps ↔ i + n ≤ e.inLen ∧ Buffer.range e.PIN i n = some ps := by
  rw [Enc.pixRange]
  split
  · next h => cases Buffer.range e.PIN i n <;> simp [h]
  · next h => simp [h]

end Sys2Proof.Machine
end

