-- ==== Sys2Proof/Laws/Codec.lean ====
section
/-! SUPPORT. The small laws of the command byte and of the pixel groups. -/

namespace Sys2Proof

theorem countOk_iff (n : Nat) : countOk n = true ↔ 1 ≤ n ∧ n ≤ 128 := by
  rw [countOk, maxCount, Bool.and_eq_true, decide_eq_true_iff, decide_eq_true_iff]

/-- R82: bits 6 to 0 of the command byte, and one more. -/
theorem cmdCount_toNat (c : Byte) : (cmdCount c).toNat = c.toNat % 128 + 1 := by
  have h : c.toNat % 128 < 128 := Nat.mod_lt _ (by omega)
  have h1 : (1 : BitVec 8).toNat = 1 := rfl
  simp only [cmdCount, BitVec.toNat_add, BitVec.toNat_setWidth, BitVec.extractLsb'_toNat, Nat.shiftRight_zero, h1]
  omega

/-- R82: "so `1 <= n <= 128`". -/
theorem cmdCount_range (c : Byte) : 1 ≤ (cmdCount c).toNat ∧ (cmdCount c).toNat ≤ 128 := by
  rw [cmdCount_toNat]; omega

/-- R10: bit 7 is the most significant bit. -/
theorem cmdFlag_eq (c : Byte) : cmdFlag c = decide (128 ≤ c.toNat) := by
  rw [cmdFlag, BitVec.getLsbD, Nat.testBit_eq_decide_div_mod_eq]
  have := c.isLt
  congr 1
  simp only [eq_iff_iff]
  omega

/-- R89: the value of a command byte. -/
theorem cmdByte_toNat (f : Bool) (n : Nat) (h : 1 ≤ n ∧ n ≤ 128) :
    (cmdByte f n).toNat = (if f then 128 else 0) + (n - 1) := by
  have h1 : (n - 1) % 128 = n - 1 := Nat.mod_eq_of_lt (by omega)
  have hor : 128 ||| (n - 1) = 128 + (n - 1) := by
    have := Nat.two_pow_add_eq_or_of_lt (i := 7) (b := n - 1) (by omega) 1
    simpa using this.symm
  have happ : (cmdByte f n).toNat = (BitVec.ofBool f).toNat <<< 7 ||| (BitVec.ofNat 7 (n - 1)).toNat :=
    BitVec.toNat_append (BitVec.ofBool f) (BitVec.ofNat 7 (n - 1))
  rw [happ, BitVec.toNat_ofNat, h1]
  cases f
  · simp
  · simpa using hor

/-- R89 undoes R81: the flag. -/
theorem cmdFlag_cmdByte (f : Bool) (n : Nat) (h : 1 ≤ n ∧ n ≤ 128) : cmdFlag (cmdByte f n) = f := by
  rw [cmdFlag_eq, cmdByte_toNat f n h]
  cases f
  · simp; omega
  · simp

/-- R89 undoes R82: the count. -/
theorem cmdCount_cmdByte (f : Bool) (n : Nat) (h : 1 ≤ n ∧ n ≤ 128) : (cmdCount (cmdByte f n)).toNat = n := by
  rw [cmdCount_toNat, cmdByte_toNat f n h]
  cases f <;> simp <;> omega

/-- R81, R89: a command byte is made of its flag and its count. -/
theorem cmdByte_of_fields (c : Byte) : cmdByte (cmdFlag c) (cmdCount c).toNat = c := by
  apply BitVec.eq_of_toNat_eq
  rw [cmdByte_toNat _ _ (cmdCount_range c), cmdFlag_eq, cmdCount_toNat]
  have := c.isLt
  by_cases h : 128 ≤ c.toNat <;> simp [h] <;> omega

theorem pixelBytes_length (p : Pixel) : (pixelBytes p).length = 4 := rfl

theorem flatMap_pixelBytes_length (ps : List Pixel) : (ps.flatMap pixelBytes).length = 4 * ps.length := by
  induction ps with
  | nil => rfl
  | cons p ps ih => simp only [List.flatMap_cons, List.length_append, ih, pixelBytes_length, List.length_cons]; omega

theorem recordBytes_length (f : Bool) (n : Nat) (ps : List Pixel) :
    (recordBytes f n ps).length = 1 + 4 * ps.length := by
  simp only [recordBytes, List.length_cons, flatMap_pixelBytes_length]; omega

/-- R63: one whole group in front. -/
theorem pixelGroups_cons (n : Nat) (p : Pixel) (rest : List Byte) :
    pixelGroups (n + 1) (pixelBytes p ++ rest) = (p :: (pixelGroups n rest).1, (pixelGroups n rest).2) := rfl

/-- Fewer than four bytes hold no group. -/
theorem pixelGroups_short (n : Nat) (bs : List Byte) (h : bs.length < 4) : pixelGroups (n + 1) bs = ([], bs) := by
  match bs, h with
  | [], _ => rfl
  | [_], _ => rfl
  | [_, _], _ => rfl
  | [_, _, _], _ => rfl

/-- Everything `pixelGroups` can answer: the groups found and the incomplete one are the list's front; it finds
fewer groups than asked for only when the list ends first. -/
theorem pixelGroups_spec (n : Nat) (bs : List Byte) :
    (pixelGroups n bs).1.length ≤ n ∧ (pixelGroups n bs).2.length < 4 ∧
      ((pixelGroups n bs).1.length = n → (pixelGroups n bs).2 = []) ∧
      ∃ rest, bs = (pixelGroups n bs).1.flatMap pixelBytes ++ (pixelGroups n bs).2 ++ rest ∧
        ((pixelGroups n bs).1.length < n → rest = []) := by
  induction n generalizing bs with
  | zero => exact ⟨by simp [pixelGroups], by simp [pixelGroups], by simp [pixelGroups], bs, by simp [pixelGroups]⟩
  | succ n ih =>
    by_cases h : bs.length < 4
    · rw [pixelGroups_short n bs h]
      exact ⟨by simp, h, by simp, [], by simp⟩
    · match bs, h with
      | r :: g :: b :: a :: t, _ =>
        rw [show r :: g :: b :: a :: t = pixelBytes ⟨r, g, b, a⟩ ++ t from rfl, pixelGroups_cons]
        obtain ⟨h1, h2, h3, rest, h4, h5⟩ := ih t
        refine ⟨by simpa using h1, h2, fun h => h3 (by simpa using h), rest, ?_, fun h => h5 (by simpa using h)⟩
        conv_lhs => rw [h4]
        simp [List.append_assoc]
      | [], h => simp at h
      | [_], h => simp at h
      | [_, _], h => simp at h
      | [_, _, _], h => simp at h

end Sys2Proof
end

