-- ==== Sys2Proof/Laws/Emission.lean ====
section
/-! SUPPORT. What the shared append operations can answer. -/

namespace Sys2Proof.Machine

@[simp] theorem within_none (n : Nat) : within none n = true := rfl

theorem within_some (c n : Nat) : within (some c) n = true ↔ n ≤ c := by simp [within]

theorem within_mono {cap : Option Nat} {m n : Nat} (h : within cap n = true) (hle : m ≤ n) : within cap m = true := by
  cases cap with
  | none => rfl
  | some c => rw [within_some] at *; omega

/-- R66, R76: what `Emit` answers. -/
theorem emit_eq_some (cap : Option Nat) (p : Pixel) (out out' : List Pixel) :
    emit cap p out = some out' ↔ within cap (out.length + 1) = true ∧ out' = out ++ [p] := by
  rw [emit]
  split
  · next h => simp [h, eq_comm]
  · next h => simp [h]

theorem emit_eq_none (cap : Option Nat) (p : Pixel) (out : List Pixel) :
    emit cap p out = none ↔ within cap (out.length + 1) = false := by
  rw [emit]
  split
  · next h => simp [h]
  · next h => simp [h]

/-- Everything `emitRecord` can answer. -/
theorem emitRecord_cases (cap : Option Nat) (f : Bool) (c : Nat) (pix : List Pixel) (pos : Nat) (bout : List Byte) :
    ((c = 0 ∨ 128 < c) ∧ emitRecord cap f c pix pos bout = .raised (.encOverflow c)) ∨
    ((1 ≤ c ∧ c ≤ 128) ∧ within cap (bout.length + (1 + 4 * pix.length)) = true ∧
      emitRecord cap f c pix pos bout = .ok (bout ++ recordBytes f c pix)) ∨
    ((1 ≤ c ∧ c ≤ 128) ∧ within cap (bout.length + (1 + 4 * pix.length)) = false ∧
      emitRecord cap f c pix pos bout = .raised (.capacity pos)) := by
  have hlen : (recordBytes f c pix).length = 1 + 4 * pix.length := by
    simp only [recordBytes, List.length_cons, List.length_flatMap, pixelBytes]
    simp; omega
  by_cases h : c = 0 ∨ maxCount < c
  · exact .inl ⟨h, by rw [emitRecord, if_pos h]⟩
  · have h' : 1 ≤ c ∧ c ≤ 128 := by simp only [maxCount] at h; omega
    cases hw : within cap (bout.length + (1 + 4 * pix.length)) with
    | true => exact .inr (.inl ⟨h', rfl, by rw [emitRecord, if_neg h]; simp only [hlen, hw, if_true]⟩)
    | false => exact .inr (.inr ⟨h', rfl, by rw [emitRecord, if_neg h]; simp only [hlen, hw]; rfl⟩)

/-- The registers a run of `Emit`s leaves alone, whether or not all fit. -/
structure Dec.SameButOutput (d d' : Dec) : Prop where
  start : d'.start = d.start
  inLen : d'.inLen = d.inLen
  IN : d'.IN = d.IN
  ip : d'.ip = d.ip
  dmode : d'.dmode = d.dmode
  cmd : d'.cmd = d.cmd
  cnt : d'.cnt = d.cnt
  endKind : d'.endKind = d.endKind
  err : d'.err = d.err
  errInfo : d'.errInfo = d.errInfo

theorem Dec.SameButOutput.refl (d : Dec) : d.SameButOutput d := by constructor <;> rfl

theorem Dec.SameButOutput.trans {d d' d'' : Dec} (h : d.SameButOutput d') (h' : d'.SameButOutput d'') :
    d.SameButOutput d'' := by
  constructor
  · exact h'.start.trans h.start
  · exact h'.inLen.trans h.inLen
  · exact h'.IN.trans h.IN
  · exact h'.ip.trans h.ip
  · exact h'.dmode.trans h.dmode
  · exact h'.cmd.trans h.cmd
  · exact h'.cnt.trans h.cnt
  · exact h'.endKind.trans h.endKind
  · exact h'.err.trans h.err
  · exact h'.errInfo.trans h.errInfo

/-- What the copies of a RUN leave: the registers that are not outputs, and an output that grew by copies. -/
theorem Dec.emitCopies_frame (cap : Option Nat) (p : Pixel) (n : Nat) (d : Dec) :
    d.SameButOutput (d.emitCopies cap p n).1 ∧ (d.emitCopies cap p n).1.pixbuf = d.pixbuf ∧
      (d.emitCopies cap p n).1.k = d.k ∧
      ∃ m ≤ n, (d.emitCopies cap p n).1.OUT = d.OUT ++ List.replicate m p ∧
        ((d.emitCopies cap p n).2 = true → m = n) ∧
        ((d.emitCopies cap p n).2 = false → m < n ∧ within cap (d.OUT.length + m + 1) = false) := by
  induction n generalizing d with
  | zero => exact ⟨.refl d, rfl, rfl, 0, le_refl 0, by simp [Dec.emitCopies], by simp, by simp [Dec.emitCopies]⟩
  | succ n ih =>
    rw [Dec.emitCopies]
    cases he : emit cap p d.OUT with
    | none =>
      refine ⟨.refl d, rfl, rfl, 0, Nat.zero_le _, by simp, by simp, fun _ => ⟨by omega, ?_⟩⟩
      simpa using (emit_eq_none cap p d.OUT).1 he
    | some out =>
      obtain ⟨-, rfl⟩ := (emit_eq_some cap p d.OUT out).1 he
      obtain ⟨hs, hp, hk, m, hm, ho, ht, hf⟩ := ih { d with OUT := d.OUT ++ [p], rem := d.rem - 1 }
      refine ⟨.trans (by constructor <;> rfl) hs, hp, hk, m + 1, by omega, ?_, fun h => by rw [ht h], fun h => ?_⟩
      · rw [ho, List.replicate_succ]; simp
      · obtain ⟨hlt, hw⟩ := hf h
        refine ⟨by omega, ?_⟩
        rw [← hw]; congr 1; simp; omega

/-- What the groups of a LIT leave: the registers that are not outputs, and an output that grew by some of the
groups, in order. -/
theorem Dec.emitGroups_frame (cap : Option Nat) (ps : List Pixel) (a : Nat) (d : Dec) :
    d.SameButOutput (d.emitGroups cap ps a).1 ∧
      ∃ m ≤ ps.length, (d.emitGroups cap ps a).1.OUT = d.OUT ++ ps.take m ∧
        ((d.emitGroups cap ps a).2 = none → m = ps.length) ∧
        (∀ e, (d.emitGroups cap ps a).2 = some e →
          m < ps.length ∧ e = a + 4 * m + 4 ∧ within cap (d.OUT.length + m + 1) = false) := by
  induction ps generalizing a d with
  | nil => exact ⟨.refl d, 0, le_refl 0, by simp [Dec.emitGroups], by simp, by simp [Dec.emitGroups]⟩
  | cons p ps ih =>
    rw [Dec.emitGroups]
    cases he : emit cap p d.OUT with
    | none =>
      refine ⟨by constructor <;> rfl, 0, Nat.zero_le _, by simp, by simp, fun e h => ⟨by simp, ?_, ?_⟩⟩
      · simpa using (Option.some.inj h).symm
      · simpa using (emit_eq_none cap p d.OUT).1 he
    | some out =>
      obtain ⟨-, rfl⟩ := (emit_eq_some cap p d.OUT out).1 he
      obtain ⟨hs, m, hm, ho, ht, hf⟩ :=
        ih (a + 4) { d with OUT := d.OUT ++ [p], rem := d.rem - 1, pixbuf := p }
      refine ⟨.trans (by constructor <;> rfl) hs, m + 1, by simpa using hm, ?_, fun h => by simp [ht h], fun e h => ?_⟩
      · rw [ho]; simp
      · obtain ⟨hlt, rfl, hw⟩ := hf e h
        refine ⟨by simpa using hlt, by omega, ?_⟩
        rw [← hw]; congr 1; simp; omega

/-- Counting `rem` down once more. -/
theorem rem_sub_succ (x : BitVec 8) (n : Nat) : x - 1 - BitVec.ofNat 8 n = x - BitVec.ofNat 8 (n+1) := by
  rw [BitVec.ofNat_add]; rw [BitVec.sub_eq_add_neg, BitVec.sub_eq_add_neg, BitVec.sub_eq_add_neg, BitVec.neg_add]
  rw [BitVec.sub_eq_add_neg]
  have : BitVec.ofNat 8 1 = 1 := rfl
  rw [this]; ac_rfl

/-- Counting down by `m` from a count `n`. -/
theorem rem_ofNat_sub (n m : Nat) (h : m ≤ n) : BitVec.ofNat 8 n - BitVec.ofNat 8 m = BitVec.ofNat 8 (n - m) := by
  obtain ⟨k, rfl⟩ := Nat.exists_eq_add_of_le h
  rw [BitVec.ofNat_add]; simp [BitVec.sub_eq_add_neg, BitVec.add_comm (BitVec.ofNat 8 m), BitVec.add_assoc]

/-- R103: all `n` copies fit. -/
theorem Dec.emitCopies_fits (cap : Option Nat) (p : Pixel) (n : Nat) (d : Dec)
    (h : within cap (d.OUT.length + n) = true) :
    d.emitCopies cap p n = ({ d with OUT := d.OUT ++ List.replicate n p, rem := d.rem - BitVec.ofNat 8 n }, true) := by
  induction n generalizing d with
  | zero => simp [Dec.emitCopies]
  | succ n ih =>
    have h1 : emit cap p d.OUT = some (d.OUT ++ [p]) := (emit_eq_some _ _ _ _).2 ⟨within_mono h (by omega), rfl⟩
    rw [Dec.emitCopies, h1]
    simp only
    rw [ih _ (by simpa [Nat.add_assoc, Nat.add_comm 1 n] using h)]
    have : d.rem - 1 - BitVec.ofNat 8 n = d.rem - BitVec.ofNat 8 (n+1) := rem_sub_succ _ _
    simp only [this]; simp [List.replicate_succ]

/-- R103, R127: the copies that fit, when not all do. -/
theorem Dec.emitCopies_over (c : Nat) (p : Pixel) (n : Nat) (d : Dec)
    (h : c < d.OUT.length + n) (hn : 1 ≤ n) :
    d.emitCopies (some c) p n = ({ d with OUT := d.OUT ++ List.replicate (c - d.OUT.length) p, rem := d.rem - BitVec.ofNat 8 (c - d.OUT.length) }, false) := by
  induction n generalizing d with
  | zero => omega
  | succ n ih =>
    rw [Dec.emitCopies]
    by_cases hf : d.OUT.length + 1 ≤ c
    · have h1 : emit (some c) p d.OUT = some (d.OUT ++ [p]) := (emit_eq_some _ _ _ _).2 ⟨by simpa [within] using hf, rfl⟩
      rw [h1]
      simp only
      rw [ih _ (by simp; omega) (by omega)]
      obtain ⟨m, hm⟩ : ∃ m, c - d.OUT.length = m + 1 := ⟨c - d.OUT.length - 1, by omega⟩
      have hm' : c - (d.OUT ++ [p]).length = m := by simp; omega
      have : d.rem - 1 - BitVec.ofNat 8 m = d.rem - BitVec.ofNat 8 (m+1) := rem_sub_succ _ _
      rw [hm', this, hm]; simp [List.replicate_succ]
    · have h1 : emit (some c) p d.OUT = none := (emit_eq_none _ _ _).2 (by simpa [within] using hf)
      rw [h1]
      have : c - d.OUT.length = 0 := by omega
      simp [this]

/-- R104: all the groups fit. -/
theorem Dec.emitGroups_fits (cap : Option Nat) (ps : List Pixel) (a : Nat) (d : Dec)
    (h : within cap (d.OUT.length + ps.length) = true) :
    d.emitGroups cap ps a = ({ d with OUT := d.OUT ++ ps, rem := d.rem - BitVec.ofNat 8 ps.length, pixbuf := ps.getLast?.getD d.pixbuf }, none) := by
  induction ps generalizing d a with
  | nil => simp [Dec.emitGroups]
  | cons p ps ih =>
    rw [List.length_cons] at h
    have h1 : emit cap p d.OUT = some (d.OUT ++ [p]) := (emit_eq_some _ _ _ _).2 ⟨within_mono h (by omega), rfl⟩
    rw [Dec.emitGroups, h1]
    simp only
    rw [ih _ _ (by simpa [Nat.add_assoc, Nat.add_comm 1 ps.length] using h)]
    have : d.rem - 1 - BitVec.ofNat 8 ps.length = d.rem - BitVec.ofNat 8 (ps.length+1) := rem_sub_succ _ _
    simp only [this]; simp [List.getLast?_cons]

/-- R104, R127: the groups that fit, and the one, `p`, that does not. -/
theorem Dec.emitGroups_over (c : Nat) (ps : List Pixel) (p : Pixel) (a : Nat) (d : Dec) (h : ps[c - d.OUT.length]? = some p) :
    d.emitGroups (some c) ps a = ({ d with
        OUT := d.OUT ++ ps.take (c - d.OUT.length), rem := d.rem - BitVec.ofNat 8 (c - d.OUT.length), k := 3,
        pixbuf := { p with a := ((ps.take (c - d.OUT.length)).getLast?.getD d.pixbuf).a } }, some (a + 4 * (c - d.OUT.length) + 4)) := by
  induction ps generalizing d a with
  | nil => simp at h
  | cons q ps ih =>
    rw [Dec.emitGroups]
    by_cases hf : d.OUT.length + 1 ≤ c
    · have h1 : emit (some c) q d.OUT = some (d.OUT ++ [q]) := (emit_eq_some _ _ _ _).2 ⟨by simpa [within] using hf, rfl⟩
      rw [h1]
      simp only
      obtain ⟨m, hm⟩ : ∃ m, c - d.OUT.length = m + 1 := ⟨c - d.OUT.length - 1, by omega⟩
      have hm' : c - (d.OUT ++ [q]).length = m := by simp; omega
      rw [ih _ _ (by simp only [hm']; simpa [hm] using h)]
      have : d.rem - 1 - BitVec.ofNat 8 m = d.rem - BitVec.ofNat 8 (m+1) := rem_sub_succ _ _
      simp only [hm, hm', this, List.take_succ_cons, List.getLast?_cons]
      simp; omega
    · have h1 : emit (some c) q d.OUT = none := (emit_eq_none _ _ _).2 (by simpa [within] using hf)
      rw [h1]
      have h0 : c - d.OUT.length = 0 := by omega
      rw [h0] at h ⊢
      simp at h
      simp [h]

end Sys2Proof.Machine
end

