-- ==== Sys2Proof/Laws/Listing.lean ====
section
/-! SUPPORT. What one more line does to a listing. -/

namespace Sys2Proof.Machine

/-- R90: a whole record in front of a listing. -/
theorem assemble_record (i : Instr) (ls : List AsmLine) (h : i.wellFormed = true) :
    assemble (.record i :: ls) = (assemble ls).map (encode i ++ ·) := by
  cases hl : assemble ls <;> simp [assemble, lineRecords, lineLeftOver, h, hl]

/-- A refused rest refuses the listing. -/
theorem assemble_refused_append (before ls : List AsmLine) (h : assemble ls = none) :
    assemble (before ++ ls) = none := by
  induction before with
  | nil => exact h
  | cons l before ih => rw [List.cons_append, assemble, ih]; cases lineRecords l <;> cases lineLeftOver l <;> rfl

/-- R92: bytes left over are never none. -/
theorem cutOff_ne_nil {bs : List Byte} (h : cutOff bs = true) : bs ≠ [] := by
  rintro rfl
  cases h

end Sys2Proof.Machine
end

