-- ==== Sys2Proof/Laws/PerInstr.lean ====
section
/-! SUPPORT. Facts about every instruction as syntax, one lemma per constructor. -/

namespace Sys2Proof.Laws.EncodedLength

/-- R83, R84: a whole record has as many bytes as its format says, and a fetched one never more. -/
def Statement (i : Instr) : Prop :=
  (i.wellFormed = true → (encode i).length = i.size) ∧ (i.fetchable = true → (encode i).length ≤ i.size)

theorem run (n : Nat) (p : Option Pixel) (cut : List Byte) : Statement (.run n p cut) := by
  refine ⟨fun h => ?_, fun h => ?_⟩ <;> cases p <;>
    simp_all [Instr.wellFormed, Instr.fetchable, encode, recordBytes_length, Instr.size]
  omega

theorem lit (n : Nat) (ps : List Pixel) (cut : List Byte) : Statement (.lit n ps cut) := by
  refine ⟨fun h => ?_, fun h => ?_⟩
  · simp only [Instr.wellFormed, Bool.and_eq_true, decide_eq_true_eq, List.isEmpty_iff] at h
    simp [encode, recordBytes_length, Instr.size, h]
  · simp only [Instr.fetchable, Bool.and_eq_true, Bool.or_eq_true, decide_eq_true_eq, List.isEmpty_iff] at h
    obtain ⟨⟨⟨-, h4⟩, hle⟩, h | rfl⟩ := h
    · simp only [encode, recordBytes_length, Instr.size, List.length_append]; omega
    · simp only [encode, recordBytes_length, Instr.size, List.length_append, List.length_nil]; omega

end Sys2Proof.Laws.EncodedLength

namespace Sys2Proof.Laws.WholeIsFetchable

/-- R90, R102: a whole record can stand at a record boundary. -/
def Statement (i : Instr) : Prop := i.wellFormed = true → i.fetchable = true

theorem run (n : Nat) (p : Option Pixel) (cut : List Byte) : Statement (.run n p cut) := by
  intro h
  simp_all [Instr.wellFormed, Instr.fetchable]

theorem lit (n : Nat) (ps : List Pixel) (cut : List Byte) : Statement (.lit n ps cut) := by
  intro h
  simp_all [Instr.wellFormed, Instr.fetchable]

end Sys2Proof.Laws.WholeIsFetchable
end

