-- ==== Sys2Proof/Laws/Reads.lean ====
section
/-! SUPPORT. What the encoder's reads of PIN answer, and which pixels they look at. -/

namespace Sys2Proof.Machine

theorem leading_take (p : Pixel) (l : List Pixel) (n : Nat) : leading p (l.take n) = min (leading p l) n := by
  induction l generalizing n with
  | nil => simp [leading]
  | cons q t ih =>
    cases n with
    | zero => simp [leading]
    | succ n =>
      rw [List.take_succ_cons, leading, leading, ih]
      split <;> omega

theorem Enc.leadingFrom_eq (e : Enc) (p : Pixel) (l : List Pixel) (i : Nat) (hle : i + l.length ≤ e.inLen)
    (h : ∀ j < l.length, Buffer.get e.PIN (i + j) = l[j]?) : e.leadingFrom p i l.length = .ok (leading p l) := by
  induction l generalizing i with
  | nil => rfl
  | cons q t ih =>
    simp only [List.length_cons] at hle h
    have hq : e.pixRead i = .ok q := (e.pixRead_eq_ok i q).2 ⟨by omega, by simpa using h 0 (by omega)⟩
    have ht := ih (i + 1) (by omega) fun j hj => by
      simpa [show i + (j + 1) = i + 1 + j by omega] using h (j + 1) (by omega)
    rw [List.length_cons, Enc.leadingFrom, hq, leading]
    simp only [ht]
    split <;> rfl

/-- The run read at `i` is the run of the pixels PIN holds there, as far as it lies below `hi`. -/
theorem Enc.readRunBelow_eq {e : Enc} {base : Nat} {pin : List Pixel} (h : e.HoldsFrom base pin) (i hi : Nat)
    (hb : base ≤ i) (hlt : i < hi) (hle : hi ≤ e.inLen) : e.readRunBelow i hi = .ok (min (runLen pin i) (hi - i)) := by
  have hl := h.length
  have hd : pin.drop i = pin[i] :: pin.drop (i + 1) := List.drop_eq_getElem_cons (by omega)
  have hp : e.pixRead i = .ok pin[i] :=
    (e.pixRead_eq_ok i _).2 ⟨by omega, (h.pixels i (by omega) hb).trans (List.getElem?_eq_getElem (by omega))⟩
  have hlen : ((pin.drop (i + 1)).take (hi - (i + 1))).length = hi - (i + 1) := by simp; omega
  have hrun := e.leadingFrom_eq pin[i] ((pin.drop (i + 1)).take (hi - (i + 1))) (i + 1) (by omega) fun j hj => by
    rw [h.pixels _ (by omega) (by omega), List.getElem?_take, if_pos (by omega), List.getElem?_drop]
  rw [hlen, leading_take] at hrun
  rw [Enc.readRunBelow, hp, runLen, hd]
  simp only [hrun]
  congr 1
  omega

theorem leading_le (p : Pixel) (l : List Pixel) : leading p l ≤ l.length := by
  induction l with
  | nil => simp [leading]
  | cons q t ih => rw [leading]; split <;> simp; omega

/-- R140: a run stays inside the input. -/
theorem runLen_le (pin : List Pixel) (i : Nat) : runLen pin i ≤ pin.length - i := by
  rw [← List.length_drop, runLen]
  cases pin.drop i with
  | nil => simp
  | cons p t => simpa using leading_le p t

/-- R140: `RunLen(i)` read from PIN. -/
theorem Enc.readRun_eq {e : Enc} {base : Nat} {pin : List Pixel} (h : e.HoldsFrom base pin) (i : Nat)
    (hb : base ≤ i) (hlt : i < e.inLen) : e.readRun i = .ok (runLen pin i) := by
  have := runLen_le pin i
  rw [Enc.readRun, Enc.readRunBelow_eq h i _ hb hlt (le_refl _), ← h.length, Nat.min_eq_left this]

/-- R141: `RunLenW(i)` read from PIN. -/
theorem Enc.readRunW_eq {e : Enc} {base : Nat} {pin : List Pixel} (h : e.HoldsFrom base pin) (i : Nat)
    (hb : base ≤ i) (hlt : i < e.inLen) : e.readRunW i = .ok (runLenW pin i) := by
  have := runLen_le pin i
  rw [h.length] at this
  rw [Enc.readRunW, Enc.readRunBelow_eq h i _ hb (by simp only [lookahead]; omega) (Nat.min_le_right _ _), runLenW]
  congr 1
  omega

/-- `PIN[i .. i + n)` read from PIN. -/
theorem Enc.pixRange_eq {e : Enc} {base : Nat} {pin : List Pixel} (h : e.HoldsFrom base pin) (i n : Nat)
    (hb : base ≤ i) (hle : i + n ≤ e.inLen) : e.pixRange i n = .ok (slice pin i n) := by
  have hl := h.length
  refine (e.pixRange_eq_ok i n _).2 ⟨hle, (Buffer.range_eq_some _ _ _ _).2 ⟨by simp [slice]; omega, fun j hj => ?_⟩⟩
  rw [h.pixels _ (by omega) (by omega), slice, List.getElem?_take, if_pos hj, List.getElem?_drop]

/-- R144: when the open literal block absorbs the pixel at `pos`. -/
theorem Enc.litExtends_eq {e : Enc} {base : Nat} {pin : List Pixel} (h : e.HoldsFrom base pin) (hb : base ≤ e.pos) :
    e.litExtends =
      .ok (decide (e.litLen.toNat < maxCount ∧ e.pos < pin.length ∧ runLenW pin e.pos < threshold)) := by
  rw [Enc.litExtends, h.length]
  split
  · next hc => rw [Enc.readRunW_eq h _ hb hc.2]; simp [hc]
  · next hc => simp; omega

/-- R144, R145: the block's pixels, when its count is legal. -/
theorem Enc.litBlock_eq {e : Enc} {base : Nat} {pin : List Pixel} (h : e.HoldsFrom base pin) (hb : base ≤ e.litStart)
    (hc : 1 ≤ e.litLen.toNat ∧ e.litLen.toNat ≤ 128) (hle : e.litStart + e.litLen.toNat ≤ e.inLen) :
    e.litBlock = .ok (slice pin e.litStart e.litLen.toNat) := by
  rw [Enc.litBlock, if_pos ((countOk_iff _).2 hc), Enc.pixRange_eq h _ _ hb hle]

/-- The whole input, where the host has written all of it. -/
theorem Enc.holdsFrom_of_range {e : Enc} {pin : List Pixel} (h : Buffer.range e.PIN 0 e.inLen = some pin) (base : Nat) :
    e.HoldsFrom base pin := by
  rw [Buffer.range_eq_some] at h
  exact ⟨h.1, fun j hj _ => by simpa using h.2 j hj⟩

/-! Each read depends on the pixels of its own range only. -/

theorem Enc.pixRead_congr (e : Enc) (pin : Buffer Pixel) (i : Nat) (h : Buffer.get pin i = Buffer.get e.PIN i) :
    Enc.pixRead { e with PIN := pin } i = e.pixRead i := by
  simp only [Enc.pixRead, h]

theorem Enc.leadingFrom_congr (e : Enc) (pin : Buffer Pixel) (p : Pixel) (i n : Nat)
    (h : ∀ j, i ≤ j → j < i + n → Buffer.get pin j = Buffer.get e.PIN j) :
    Enc.leadingFrom { e with PIN := pin } p i n = e.leadingFrom p i n := by
  induction n generalizing i with
  | zero => rfl
  | succ n ih =>
    rw [Enc.leadingFrom, Enc.leadingFrom, e.pixRead_congr pin i (h i (le_refl i) (by omega)),
      ih (i + 1) fun j h1 h2 => h j (by omega) (by omega)]

theorem Enc.readRunBelow_congr (e : Enc) (pin : Buffer Pixel) (i hi : Nat) (hlt : i < hi)
    (h : ∀ j, i ≤ j → j < hi → Buffer.get pin j = Buffer.get e.PIN j) :
    Enc.readRunBelow { e with PIN := pin } i hi = e.readRunBelow i hi := by
  simp only [Enc.readRunBelow, e.pixRead_congr pin i (h i (le_refl i) hlt)]
  cases e.pixRead i with
  | error f => rfl
  | ok p => simp only [e.leadingFrom_congr pin p (i + 1) (hi - (i + 1)) fun j h1 h2 => h j (by omega) (by omega)]

theorem Buffer.range_congr {α : Type} (m m' : Buffer α) (i n : Nat)
    (h : ∀ j, i ≤ j → j < i + n → Buffer.get m' j = Buffer.get m j) : Buffer.range m' i n = Buffer.range m i n := by
  induction n generalizing i with
  | zero => rfl
  | succ n ih =>
    rw [Buffer.range, Buffer.range, h i (le_refl i) (by omega), ih (i + 1) fun j h1 h2 => h j (by omega) (by omega)]

theorem Enc.pixRange_congr (e : Enc) (pin : Buffer Pixel) (i n : Nat)
    (h : ∀ j, i ≤ j → j < i + n → Buffer.get pin j = Buffer.get e.PIN j) :
    Enc.pixRange { e with PIN := pin } i n = e.pixRange i n := by
  simp only [Enc.pixRange, Buffer.range_congr e.PIN pin i n h]

end Sys2Proof.Machine
end

