-- ==== Sys2Proof/Laws/State.lean ====
section
/-! SUPPORT. One lemma per field and update of the state, each true by `rfl`, so that no proof unfolds a record
update. -/

namespace Sys2Proof.Machine

section

variable (buf : Memory)

@[simp] theorem Dec.afterReset_start : (Dec.afterReset buf).start = false := rfl
@[simp] theorem Dec.afterReset_inLen : (Dec.afterReset buf).inLen = 0 := rfl
@[simp] theorem Dec.afterReset_IN : (Dec.afterReset buf).IN = buf := rfl
@[simp] theorem Dec.afterReset_ip : (Dec.afterReset buf).ip = 0 := rfl
@[simp] theorem Dec.afterReset_OUT : (Dec.afterReset buf).OUT = [] := rfl
@[simp] theorem Dec.afterReset_dmode : (Dec.afterReset buf).dmode = .idle := rfl
@[simp] theorem Dec.afterReset_cmd : (Dec.afterReset buf).cmd = 0 := rfl
@[simp] theorem Dec.afterReset_cnt : (Dec.afterReset buf).cnt = 0 := rfl
@[simp] theorem Dec.afterReset_rem : (Dec.afterReset buf).rem = 0 := rfl
@[simp] theorem Dec.afterReset_pixbuf : (Dec.afterReset buf).pixbuf = ⟨0, 0, 0, 0⟩ := rfl
@[simp] theorem Dec.afterReset_k : (Dec.afterReset buf).k = 0 := rfl
@[simp] theorem Dec.afterReset_endKind : (Dec.afterReset buf).endKind = .none := rfl
@[simp] theorem Dec.afterReset_err : (Dec.afterReset buf).err = 0 := rfl
@[simp] theorem Dec.afterReset_errInfo : (Dec.afterReset buf).errInfo = 0 := rfl

end

section

variable (buf : Buffer Pixel)

@[simp] theorem Enc.afterReset_start : (Enc.afterReset buf).start = false := rfl
@[simp] theorem Enc.afterReset_inLen : (Enc.afterReset buf).inLen = 0 := rfl
@[simp] theorem Enc.afterReset_PIN : (Enc.afterReset buf).PIN = buf := rfl
@[simp] theorem Enc.afterReset_pos : (Enc.afterReset buf).pos = 0 := rfl
@[simp] theorem Enc.afterReset_BOUT : (Enc.afterReset buf).BOUT = [] := rfl
@[simp] theorem Enc.afterReset_emode : (Enc.afterReset buf).emode = .idle := rfl
@[simp] theorem Enc.afterReset_runPix : (Enc.afterReset buf).runPix = ⟨0, 0, 0, 0⟩ := rfl
@[simp] theorem Enc.afterReset_runRem : (Enc.afterReset buf).runRem = 0 := rfl
@[simp] theorem Enc.afterReset_litStart : (Enc.afterReset buf).litStart = 0 := rfl
@[simp] theorem Enc.afterReset_litLen : (Enc.afterReset buf).litLen = 0 := rfl
@[simp] theorem Enc.afterReset_err : (Enc.afterReset buf).err = 0 := rfl
@[simp] theorem Enc.afterReset_errInfo : (Enc.afterReset buf).errInfo = 0 := rfl

end

section

variable (ev : Event) (d : Dec)

@[simp] theorem Dec.take_start : (d.take ev).start = d.start := rfl
@[simp] theorem Dec.take_inLen : (d.take ev).inLen = d.inLen := rfl
@[simp] theorem Dec.take_IN : (d.take ev).IN = d.IN := rfl
@[simp] theorem Dec.take_ip : (d.take ev).ip = ev.info := rfl
@[simp] theorem Dec.take_OUT : (d.take ev).OUT = d.OUT := rfl
@[simp] theorem Dec.take_dmode : (d.take ev).dmode = .error := rfl
@[simp] theorem Dec.take_cmd : (d.take ev).cmd = d.cmd := rfl
@[simp] theorem Dec.take_cnt : (d.take ev).cnt = d.cnt := rfl
@[simp] theorem Dec.take_rem : (d.take ev).rem = d.rem := rfl
@[simp] theorem Dec.take_pixbuf : (d.take ev).pixbuf = d.pixbuf := rfl
@[simp] theorem Dec.take_k : (d.take ev).k = d.k := rfl
@[simp] theorem Dec.take_endKind : (d.take ev).endKind = d.endKind := rfl
@[simp] theorem Dec.take_err : (d.take ev).err = ev.code := rfl
@[simp] theorem Dec.take_errInfo : (d.take ev).errInfo = ev.info := rfl

end

section

variable (ev : Event) (e : Enc)

@[simp] theorem Enc.take_start : (e.take ev).start = e.start := rfl
@[simp] theorem Enc.take_inLen : (e.take ev).inLen = e.inLen := rfl
@[simp] theorem Enc.take_PIN : (e.take ev).PIN = e.PIN := rfl
@[simp] theorem Enc.take_pos : (e.take ev).pos = e.pos := rfl
@[simp] theorem Enc.take_BOUT : (e.take ev).BOUT = e.BOUT := rfl
@[simp] theorem Enc.take_emode : (e.take ev).emode = .error := rfl
@[simp] theorem Enc.take_runPix : (e.take ev).runPix = e.runPix := rfl
@[simp] theorem Enc.take_runRem : (e.take ev).runRem = e.runRem := rfl
@[simp] theorem Enc.take_litStart : (e.take ev).litStart = e.litStart := rfl
@[simp] theorem Enc.take_litLen : (e.take ev).litLen = e.litLen := rfl
@[simp] theorem Enc.take_err : (e.take ev).err = ev.code := rfl
@[simp] theorem Enc.take_errInfo : (e.take ev).errInfo = ev.info := rfl

end

section

variable (c : Nat) (d : Dec)

@[simp] theorem Dec.afterStart_start : (d.afterStart c).start = false := rfl
@[simp] theorem Dec.afterStart_inLen : (d.afterStart c).inLen = d.inLen := rfl
@[simp] theorem Dec.afterStart_IN : (d.afterStart c).IN = d.IN := rfl
@[simp] theorem Dec.afterStart_ip : (d.afterStart c).ip = 0 := rfl
@[simp] theorem Dec.afterStart_OUT : (d.afterStart c).OUT = [] := rfl
@[simp] theorem Dec.afterStart_dmode : (d.afterStart c).dmode = .cmd := rfl
@[simp] theorem Dec.afterStart_cmd : (d.afterStart c).cmd = Config.freeCmd c := rfl
@[simp] theorem Dec.afterStart_cnt : (d.afterStart c).cnt = Config.freeCnt c := rfl
@[simp] theorem Dec.afterStart_rem : (d.afterStart c).rem = Config.freeRem c := rfl
@[simp] theorem Dec.afterStart_pixbuf : (d.afterStart c).pixbuf = Config.freePixbuf c := rfl
@[simp] theorem Dec.afterStart_k : (d.afterStart c).k = Config.freeK c := rfl
@[simp] theorem Dec.afterStart_endKind : (d.afterStart c).endKind = .none := rfl
@[simp] theorem Dec.afterStart_err : (d.afterStart c).err = 0 := rfl
@[simp] theorem Dec.afterStart_errInfo : (d.afterStart c).errInfo = 0 := rfl

end

section

variable (c : Nat) (e : Enc)

@[simp] theorem Enc.afterStart_start : (e.afterStart c).start = false := rfl
@[simp] theorem Enc.afterStart_inLen : (e.afterStart c).inLen = e.inLen := rfl
@[simp] theorem Enc.afterStart_PIN : (e.afterStart c).PIN = e.PIN := rfl
@[simp] theorem Enc.afterStart_pos : (e.afterStart c).pos = 0 := rfl
@[simp] theorem Enc.afterStart_BOUT : (e.afterStart c).BOUT = [] := rfl
@[simp] theorem Enc.afterStart_emode : (e.afterStart c).emode = .scan := rfl
@[simp] theorem Enc.afterStart_runPix : (e.afterStart c).runPix = Config.freeRunPix c := rfl
@[simp] theorem Enc.afterStart_runRem : (e.afterStart c).runRem = Config.freeRunRem c := rfl
@[simp] theorem Enc.afterStart_litStart : (e.afterStart c).litStart = Config.freeLitStart c := rfl
@[simp] theorem Enc.afterStart_litLen : (e.afterStart c).litLen = Config.freeLitLen c := rfl
@[simp] theorem Enc.afterStart_err : (e.afterStart c).err = 0 := rfl
@[simp] theorem Enc.afterStart_errInfo : (e.afterStart c).errInfo = 0 := rfl

end

section

variable (d : Dec)

@[simp] theorem Dec.endClean_start : (d.endClean).start = d.start := rfl
@[simp] theorem Dec.endClean_inLen : (d.endClean).inLen = d.inLen := rfl
@[simp] theorem Dec.endClean_IN : (d.endClean).IN = d.IN := rfl
@[simp] theorem Dec.endClean_ip : (d.endClean).ip = d.ip := rfl
@[simp] theorem Dec.endClean_OUT : (d.endClean).OUT = d.OUT := rfl
@[simp] theorem Dec.endClean_dmode : (d.endClean).dmode = .done := rfl
@[simp] theorem Dec.endClean_cmd : (d.endClean).cmd = d.cmd := rfl
@[simp] theorem Dec.endClean_cnt : (d.endClean).cnt = d.cnt := rfl
@[simp] theorem Dec.endClean_rem : (d.endClean).rem = d.rem := rfl
@[simp] theorem Dec.endClean_pixbuf : (d.endClean).pixbuf = d.pixbuf := rfl
@[simp] theorem Dec.endClean_k : (d.endClean).k = d.k := rfl
@[simp] theorem Dec.endClean_endKind : (d.endClean).endKind = .clean := rfl
@[simp] theorem Dec.endClean_err : (d.endClean).err = d.err := rfl
@[simp] theorem Dec.endClean_errInfo : (d.endClean).errInfo = d.errInfo := rfl

end

section

variable (cut : List Byte) (d : Dec)

@[simp] theorem Dec.endTruncated_start : (d.endTruncated cut).start = d.start := rfl
@[simp] theorem Dec.endTruncated_inLen : (d.endTruncated cut).inLen = d.inLen := rfl
@[simp] theorem Dec.endTruncated_IN : (d.endTruncated cut).IN = d.IN := rfl
@[simp] theorem Dec.endTruncated_ip : (d.endTruncated cut).ip = d.inLen := rfl
@[simp] theorem Dec.endTruncated_OUT : (d.endTruncated cut).OUT = d.OUT := rfl
@[simp] theorem Dec.endTruncated_dmode : (d.endTruncated cut).dmode = .done := rfl
@[simp] theorem Dec.endTruncated_cmd : (d.endTruncated cut).cmd = d.cmd := rfl
@[simp] theorem Dec.endTruncated_cnt : (d.endTruncated cut).cnt = d.cnt := rfl
@[simp] theorem Dec.endTruncated_rem : (d.endTruncated cut).rem = d.rem := rfl
@[simp] theorem Dec.endTruncated_pixbuf : (d.endTruncated cut).pixbuf = fillLanes d.pixbuf cut := rfl
@[simp] theorem Dec.endTruncated_k : (d.endTruncated cut).k = BitVec.ofNat 2 cut.length := rfl
@[simp] theorem Dec.endTruncated_endKind : (d.endTruncated cut).endKind = .truncated := rfl
@[simp] theorem Dec.endTruncated_err : (d.endTruncated cut).err = d.err := rfl
@[simp] theorem Dec.endTruncated_errInfo : (d.endTruncated cut).errInfo = d.errInfo := rfl

end

section

variable (f : Bool) (n : Nat) (d : Dec)

@[simp] theorem Dec.latch_start : (d.latch f n).start = d.start := rfl
@[simp] theorem Dec.latch_inLen : (d.latch f n).inLen = d.inLen := rfl
@[simp] theorem Dec.latch_IN : (d.latch f n).IN = d.IN := rfl
@[simp] theorem Dec.latch_ip : (d.latch f n).ip = d.ip := rfl
@[simp] theorem Dec.latch_OUT : (d.latch f n).OUT = d.OUT := rfl
@[simp] theorem Dec.latch_dmode : (d.latch f n).dmode = d.dmode := rfl
@[simp] theorem Dec.latch_cmd : (d.latch f n).cmd = cmdByte f n := rfl
@[simp] theorem Dec.latch_cnt : (d.latch f n).cnt = BitVec.ofNat 8 n := rfl
@[simp] theorem Dec.latch_rem : (d.latch f n).rem = BitVec.ofNat 8 n := rfl
@[simp] theorem Dec.latch_pixbuf : (d.latch f n).pixbuf = d.pixbuf := rfl
@[simp] theorem Dec.latch_k : (d.latch f n).k = 0 := rfl
@[simp] theorem Dec.latch_endKind : (d.latch f n).endKind = d.endKind := rfl
@[simp] theorem Dec.latch_err : (d.latch f n).err = d.err := rfl
@[simp] theorem Dec.latch_errInfo : (d.latch f n).errInfo = d.errInfo := rfl

end

section

variable (ev : Event) (s : State)

@[simp] theorem State.take_dec_cfg : (s.take .dec ev).cfg = s.cfg := rfl
@[simp] theorem State.take_dec_dec : (s.take .dec ev).dec = s.dec.take ev := rfl
@[simp] theorem State.take_dec_enc : (s.take .dec ev).enc = s.enc := rfl
@[simp] theorem State.take_dec_agenda : (s.take .dec ev).agenda = s.agenda := rfl
@[simp] theorem State.take_dec_freeCtr : (s.take .dec ev).freeCtr = s.freeCtr := rfl

end

section

variable (ev : Event) (s : State)

@[simp] theorem State.take_enc_cfg : (s.take .enc ev).cfg = s.cfg := rfl
@[simp] theorem State.take_enc_dec : (s.take .enc ev).dec = s.dec := rfl
@[simp] theorem State.take_enc_enc : (s.take .enc ev).enc = s.enc.take ev := rfl
@[simp] theorem State.take_enc_agenda : (s.take .enc ev).agenda = s.agenda := rfl
@[simp] theorem State.take_enc_freeCtr : (s.take .enc ev).freeCtr = s.freeCtr := rfl

end

section

variable (s : State)

@[simp] theorem State.resetAgent_dec_cfg : (s.resetAgent .dec).cfg = s.cfg := rfl
@[simp] theorem State.resetAgent_dec_dec : (s.resetAgent .dec).dec = Dec.afterReset s.dec.IN := rfl
@[simp] theorem State.resetAgent_dec_enc : (s.resetAgent .dec).enc = s.enc := rfl
@[simp] theorem State.resetAgent_dec_agenda : (s.resetAgent .dec).agenda = s.agenda := rfl
@[simp] theorem State.resetAgent_dec_freeCtr : (s.resetAgent .dec).freeCtr = s.freeCtr := rfl

end

section

variable (s : State)

@[simp] theorem State.resetAgent_enc_cfg : (s.resetAgent .enc).cfg = s.cfg := rfl
@[simp] theorem State.resetAgent_enc_dec : (s.resetAgent .enc).dec = s.dec := rfl
@[simp] theorem State.resetAgent_enc_enc : (s.resetAgent .enc).enc = Enc.afterReset s.enc.PIN := rfl
@[simp] theorem State.resetAgent_enc_agenda : (s.resetAgent .enc).agenda = s.agenda := rfl
@[simp] theorem State.resetAgent_enc_freeCtr : (s.resetAgent .enc).freeCtr = s.freeCtr := rfl

end

section

variable (s : State)

@[simp] theorem State.launch_dec_cfg : (s.launch .dec).cfg = s.cfg := rfl
@[simp] theorem State.launch_dec_dec : (s.launch .dec).dec = s.dec.afterStart s.freeCtr := rfl
@[simp] theorem State.launch_dec_enc : (s.launch .dec).enc = s.enc := rfl
@[simp] theorem State.launch_dec_agenda : (s.launch .dec).agenda = s.agenda := rfl
@[simp] theorem State.launch_dec_freeCtr : (s.launch .dec).freeCtr = s.freeCtr + 1 := rfl

end

section

variable (s : State)

@[simp] theorem State.launch_enc_cfg : (s.launch .enc).cfg = s.cfg := rfl
@[simp] theorem State.launch_enc_dec : (s.launch .enc).dec = s.dec := rfl
@[simp] theorem State.launch_enc_enc : (s.launch .enc).enc = s.enc.afterStart s.freeCtr := rfl
@[simp] theorem State.launch_enc_agenda : (s.launch .enc).agenda = s.agenda := rfl
@[simp] theorem State.launch_enc_freeCtr : (s.launch .enc).freeCtr = s.freeCtr + 1 := rfl

end

section

variable (v : Bool) (n : Nat) (s : State)

@[simp] theorem State.setStart_dec : s.setStart .dec v = { s with dec := { s.dec with start := v } } := rfl
@[simp] theorem State.setStart_enc : s.setStart .enc v = { s with enc := { s.enc with start := v } } := rfl
@[simp] theorem State.setInLen_dec : s.setInLen .dec n = { s with dec := { s.dec with inLen := n } } := rfl
@[simp] theorem State.setInLen_enc : s.setInLen .enc n = { s with enc := { s.enc with inLen := n } } := rfl
@[simp] theorem State.busy_dec : s.busy .dec = s.dec.busy := rfl
@[simp] theorem State.busy_enc : s.busy .enc = s.enc.busy := rfl

end

end Sys2Proof.Machine
end

