-- ==== Sys2Proof/Laws/Steps.lean ====
section
/-! SUPPORT. What the shared pieces of a step can answer: reading the next byte, fetching a record, seeing START, and
runs of moves. -/

namespace Sys2Proof.Machine

/-- Everything `withNextByte` can answer. -/
theorem withNextByte_cases (s : State) (go : Byte → State) :
    (∃ b, s.dec.ip < s.dec.inLen ∧ Buffer.get s.dec.IN s.dec.ip = some b ∧ withNextByte s go = .next (go b)) ∨
    (s.dec.ip < s.dec.inLen ∧ Buffer.get s.dec.IN s.dec.ip = none ∧
      withNextByte s go = .fault (.inputAbsent .dec)) ∨
    (s.dec.inLen ≤ s.dec.ip ∧ withNextByte s go = .fault (.readBeyondInput .dec)) := by
  by_cases h : s.dec.ip < s.dec.inLen
  · have hle : s.dec.ip + 1 ≤ s.dec.inLen := h
    cases hb : Buffer.get s.dec.IN s.dec.ip with
    | some b =>
      exact .inl ⟨b, h, rfl, by simp [withNextByte, Dec.memRead, hle, Buffer.range, hb]⟩
    | none => exact .inr (.inl ⟨h, rfl, by simp [withNextByte, Dec.memRead, hle, Buffer.range, hb]⟩)
  · have hle : ¬ s.dec.ip + 1 ≤ s.dec.inLen := by omega
    exact .inr (.inr ⟨by omega, by simp [withNextByte, Dec.memRead, hle]⟩)

/-- What `recordAt` answers when the bytes it needs are there: a command byte and as much of its record as L
leaves. -/
theorem Dec.recordAt_of_range (d : Dec) (c : Byte) (t : List Byte) (h : d.ip < d.inLen)
    (hr : Buffer.range d.IN d.ip (min (recLen c) (d.inLen - d.ip)) = some (c :: t)) :
    d.recordAt = .ok (c :: t) := by
  have hlen : 1 ≤ min (recLen c) (d.inLen - d.ip) := by
    have h1 := ((Buffer.range_eq_some _ _ _ _).1 hr).1
    simp only [List.length_cons] at h1
    omega
  have hc : Buffer.get d.IN d.ip = some c := by
    have := ((Buffer.range_eq_some _ _ _ _).1 hr).2 0 (by omega)
    simpa using this
  have h1 : d.memRead d.ip 1 = .ok [c] :=
    (Dec.memRead_eq_ok d d.ip 1 [c]).2 ⟨by omega, by simp [Buffer.range, hc]⟩
  have h2 : d.memRead d.ip (min (recLen c) (d.inLen - d.ip)) = .ok (c :: t) :=
    (Dec.memRead_eq_ok d d.ip _ _).2 ⟨by omega, hr⟩
  rw [Dec.recordAt, h1]
  exact h2

/-- R101: at the end of the input there is no record. -/
theorem Dec.fetch_end (d : Dec) (h : d.ip = d.inLen) : d.fetch = .ok none := by simp [Dec.fetch, h]

/-- R102: before the end, the record the bytes decode to. -/
theorem Dec.fetch_record (d : Dec) (bytes : List Byte) (i : Instr) (h : d.ip ≠ d.inLen)
    (hr : d.recordAt = .ok bytes) (hd : decode bytes = .ok i) : d.fetch = .ok (some i) := by
  simp [Dec.fetch, h, hr, hd]

/-- R201, R202, R204: everything seeing a START pulse can do. -/
theorem seeStart_cases (ag : Agent) (s : State) :
    (s.busy ag = true ∧ seeStart ag s = .next (s.setStart ag false)) ∨
    (s.busy ag = false ∧ s.launchOk ag = true ∧ seeStart ag s = .next (s.launch ag)) ∨
    (s.busy ag = false ∧ s.launchOk ag = false ∧ seeStart ag s = .refused (.launchOutsideModel ag)) := by
  rw [seeStart]
  cases hb : s.busy ag with
  | true => exact .inl ⟨rfl, by simp⟩
  | false =>
    cases hl : s.launchOk ag with
    | true => exact .inr (.inl ⟨rfl, rfl, by simp⟩)
    | false => exact .inr (.inr ⟨rfl, rfl, by simp⟩)

/-- The order in which a step looks at what waits. -/
theorem step_cases (s : State) :
    (s.dec.start = true ∧ step s = seeStart .dec s) ∨
    (s.dec.start = false ∧ s.enc.start = true ∧ step s = seeStart .enc s) ∨
    (s.dec.start = false ∧ s.enc.start = false ∧ s.agenda = [] ∧ step s = idleMove s) ∨
    (∃ m rest, s.dec.start = false ∧ s.enc.start = false ∧ s.agenda = m :: rest ∧
      step s = doMove m { s with agenda := rest }) := by
  rw [step, blockMove]
  cases hd : s.dec.start with
  | true => exact .inl ⟨rfl, by simp⟩
  | false =>
    cases he : s.enc.start with
    | true => exact .inr (.inl ⟨rfl, rfl, by simp⟩)
    | false =>
      cases ha : s.agenda with
      | nil => exact .inr (.inr (.inl ⟨rfl, rfl, rfl, by simp⟩))
      | cons m rest => exact .inr (.inr (.inr ⟨m, rest, rfl, rfl, rfl, by simp⟩))

@[simp] theorem moves_zero (f : State → Host.Outcome State Fault Refusal) (s : State) : moves f 0 s = .next s := rfl

theorem moves_succ {f : State → Host.Outcome State Fault Refusal} {s t : State} (h : f s = .next t) (k : Nat) :
    moves f (k + 1) s = moves f k t := by
  simp [moves, h]

/-- Moves one after another. -/
theorem moves_add {f : State → Host.Outcome State Fault Refusal} {j : Nat} {s t : State}
    (h : moves f j s = .next t) (k : Nat) : moves f (j + k) s = moves f k t := by
  induction j generalizing s with
  | zero => cases h; rw [Nat.zero_add]
  | succ j ih =>
    rw [moves] at h
    rw [Nat.succ_add, moves]
    split at h
    · exact ih h
    · cases h
    · cases h

/-- R126: outside a conversion the decoder's moves do nothing, at either level. -/
theorem decMove_idle (s : State) (h : s.dec.busy = false) : decMove s = .next s := by
  rw [Dec.busy] at h
  cases hm : s.dec.dmode <;> rw [hm] at h <;> first | (cases h; done) | skip
  all_goals cases hl : s.cfg.level <;> simp [decMove, hl, decRecordMove, decByteMove, hm]

/-- R196: outside a conversion the encoder's moves do nothing. -/
theorem encMove_idle (s : State) (h : s.enc.busy = false) : encMove s = .next s := by
  rw [Enc.busy] at h
  cases hm : s.enc.emode <;> rw [hm] at h <;> first | (cases h; done) | skip
  all_goals simp [encMove, hm]

end Sys2Proof.Machine
end

