-- ==== Sys2Proof/Tests/Slice0.lean ====
section
/-! SUPPORT. Small tests whose expected results come from the spec's own tables and vectors (95_test_vectors.md), and
one witness for the hypotheses of each statement, for each of its clauses. -/

namespace Sys2Proof.Tests

open Sys2Proof Sys2Proof.Machine

/-! ## Helpers -/

/-- A buffer holding a list from index 0. -/
def bufferOf {α : Type} (l : List α) : Buffer α := Buffer.setMany [] 0 l

/-- The configuration with these capacities. -/
def cfgOf (pix bytes : Option Nat) (lv : Level) : Config :=
  { wAddr := none, outCapPix := pix, outCapBytes := bytes, level := lv }

/-- DEC in CMD at index 0 of an input, nothing emitted. -/
def decOn (cfg : Config) (inp : List Byte) : State :=
  { State.resetWith cfg with
    dec := { Dec.afterReset (bufferOf inp) with inLen := inp.length, dmode := .cmd } }

/-- ENC in SCAN at index 0 of an input, nothing emitted. -/
def encOn (cfg : Config) (pin : List Pixel) : State :=
  { State.resetWith cfg with
    enc := { Enc.afterReset (bufferOf pin) with inLen := pin.length, emode := .scan } }

/-- DEC in IDLE with a START pulse on an input. -/
def decPulsed (cfg : Config) (inp : List Byte) : State :=
  { State.resetWith cfg with dec := { Dec.afterReset (bufferOf inp) with inLen := inp.length, start := true } }

/-- ENC in IDLE with a START pulse on an input. -/
def encPulsed (cfg : Config) (pin : List Pixel) : State :=
  { State.resetWith cfg with enc := { Enc.afterReset (bufferOf pin) with inLen := pin.length, start := true } }

/-- The next state, if there is one. -/
def nextOf (o : Host.Outcome State Fault Refusal) : Option State :=
  match o with
  | .next t => some t
  | .fault _ => none
  | .refused _ => none

def std : Config := cfgOf none none .record
def byteCfg : Config := cfgOf none none .byte

def A : Pixel := ⟨0x11, 0x11, 0x11, 0xFF⟩
def B : Pixel := ⟨0x22, 0x22, 0x22, 0xFF⟩

/-! ## WellFormed refuses what R90 refuses -/

theorem test_wf_run_count_zero : (Instr.wholeRun 0 A).wellFormed = false := by decide
theorem test_wf_run_count_129 : (Instr.wholeRun 129 A).wellFormed = false := by decide
theorem test_wf_run_no_pixel : (Instr.run 3 none []).wellFormed = false := by decide
theorem test_wf_run_cut : (Instr.run 3 (some A) [1]).wellFormed = false := by decide
theorem test_wf_lit_count_zero : (Instr.wholeLit 0 []).wellFormed = false := by decide
theorem test_wf_lit_count_129 : (Instr.wholeLit 129 (List.replicate 129 A)).wellFormed = false := rfl
theorem test_wf_lit_short : (Instr.wholeLit 3 [A, B]).wellFormed = false := by decide
theorem test_wf_lit_long : (Instr.wholeLit 1 [A, B]).wellFormed = false := by decide
theorem test_wf_lit_cut : (Instr.lit 1 [A] [1]).wellFormed = false := by decide
theorem test_wf_run_128 : (Instr.wholeRun 128 A).wellFormed = true := by decide
theorem test_fetchable_run_count_zero : (Instr.run 0 none []).fetchable = false := by decide
theorem test_fetchable_run_cut_four : (Instr.run 3 none [1, 2, 3, 4]).fetchable = false := by decide
theorem test_fetchable_run_pixel_and_cut : (Instr.run 3 (some A) [1]).fetchable = false := by decide
theorem test_fetchable_lit_count_129 : (Instr.lit 129 [] []).fetchable = false := by decide
theorem test_fetchable_lit_cut_four : (Instr.lit 2 [A] [1, 2, 3, 4]).fetchable = false := by decide
theorem test_fetchable_lit_long : (Instr.lit 1 [A, B] []).fetchable = false := by decide
theorem test_fetchable_lit_full_and_cut : (Instr.lit 1 [A] [1]).fetchable = false := by decide

/-! ## Decoding, from words written out bit by bit (R81, R83, R84) -/

/-- V1: flag 1, C = 0000010, then R, G, B, A. -/
theorem test_decode_run : decode [0b10000010, 0x0A, 0x14, 0x1E, 0xFF] = .ok (.wholeRun 3 ⟨10, 20, 30, 255⟩) := rfl

/-- V2: flag 0, C = 0000010, then three groups. -/
theorem test_decode_lit : decode [0b00000010, 1, 2, 3, 4, 5, 6, 7, 8, 9, 10, 11, 12] =
    .ok (.wholeLit 3 [⟨1, 2, 3, 4⟩, ⟨5, 6, 7, 8⟩, ⟨9, 10, 11, 12⟩]) := rfl

/-- T10, T4: 0xC0 is RUN 65, and 0x40 is LIT 65 of 261 bytes. -/
theorem test_command_byte_c0 : cmdFlag 0xC0 = true ∧ (cmdCount 0xC0).toNat = 65 ∧ recLen 0xC0 = 5 := by decide
theorem test_command_byte_40 : cmdFlag 0x40 = false ∧ (cmdCount 0x40).toNat = 65 ∧ recLen 0x40 = 261 := by decide

/-- Section 2.1, encoder direction. -/
theorem test_cmdByte : cmdByte true 128 = 0xFF ∧ cmdByte true 72 = 0xC7 ∧ cmdByte true 1 = 0x80 ∧
    cmdByte false 1 = 0x00 ∧ cmdByte false 128 = 0x7F := by decide

/-- Section 2.1: `CmdByte(F, 0)` and `CmdByte(F, 129)` raise ENC_OVERFLOW. -/
theorem test_emitRecord_overflow :
    emitRecord none true 0 [A] 7 [] = .raised (.encOverflow 0) ∧
    emitRecord none true 129 [A] 7 [] = .raised (.encOverflow 129) := by decide

/-- The table's rows, read as the table numbers them, and run as the first instruction after reset. -/
theorem test_table_word_run : decodeTableWord 8 0x80 = some (.wholeRun 1 ⟨0, 0, 0, 0⟩) := by decide
theorem test_table_word_lit : decodeTableWord 40 0x0403020100 = some (.wholeLit 1 [⟨1, 2, 3, 4⟩]) := by decide
theorem test_placed_run : (nextOf (step (State.reset.withFetchWord 40 0xFF1E140A82))).map
    (fun t => (t.dec.OUT, t.dec.ip, t.dec.dmode)) = some (List.replicate 3 ⟨10, 20, 30, 255⟩, 5, .cmd) := by decide
theorem test_placed_lit : (nextOf (step (State.reset.withFetchWord 8 0x00))).map
    (fun t => (t.dec.OUT, t.dec.ip, t.dec.dmode)) = some ([⟨0, 0, 0, 0⟩], 5, .cmd) := by decide

/-! ## RUN and LIT, one step each -/

/-- V6: truncation drops every copy. -/
theorem test_run_truncated : (nextOf (step (decOn std [0x82, 10, 20, 30]))).map
    (fun t => (t.dec.OUT, t.dec.ip, t.dec.endKind, t.dec.err)) = some ([], 4, .truncated, 0) := by decide

/-- X15: the third copy does not fit a capacity of 2. -/
theorem test_run_capacity : (nextOf (step (decOn (cfgOf (some 2) none .record) [0x82, 1, 2, 3, 4]))).map
    (fun t => (t.dec.OUT, t.dec.ip, t.dec.dmode, t.dec.err, t.dec.errInfo)) =
    some ([⟨1, 2, 3, 4⟩, ⟨1, 2, 3, 4⟩], 5, .error, 2, 5) := by decide

/-- X8: the partial second group is dropped. -/
theorem test_lit_truncated : (nextOf (step (decOn std [0x01, 1, 2, 3, 4, 5]))).map
    (fun t => (t.dec.OUT, t.dec.ip, t.dec.endKind, t.dec.err)) = some ([⟨1, 2, 3, 4⟩], 6, .truncated, 0) := by decide

/-- X16: the third group does not fit a capacity of 2. -/
theorem test_lit_capacity :
    (nextOf (step (decOn (cfgOf (some 2) none .record) [0x02, 1, 2, 3, 4, 5, 6, 7, 8, 9, 10, 11, 12]))).map
      (fun t => (t.dec.OUT, t.dec.ip, t.dec.dmode, t.dec.err, t.dec.errInfo)) =
    some ([⟨1, 2, 3, 4⟩, ⟨5, 6, 7, 8⟩], 13, .error, 2, 13) := by decide

/-! ## The byte level: rows of the trace of P2 -/

/-- P2, step 1. -/
theorem test_byte_cmd : (nextOf (step (decOn byteCfg [0x81, 0x0A, 0x14, 0x1E, 0xFF, 0, 1, 2]))).map
    (fun t => (t.dec.dmode, t.dec.ip, t.dec.k, t.dec.rem, t.dec.cmd, t.dec.cnt)) =
    some (.runpix, 1, 0, 2, 0x81, 2) := by decide

/-- P2, step 5: lane A is filled and `k` returns to 0. -/
theorem test_byte_runpix :
    let s := decOn byteCfg [0x81, 0x0A, 0x14, 0x1E, 0xFF]
    (nextOf (decByteMove { s with dec := { s.dec with
      dmode := .runpix, ip := 4, k := 3, rem := 2, pixbuf := ⟨0x0A, 0x14, 0x1E, 0⟩ } })).map
      (fun t => (t.dec.dmode, t.dec.ip, t.dec.k, t.dec.pixbuf)) =
    some (.expand, 5, 0, ⟨0x0A, 0x14, 0x1E, 0xFF⟩) := by decide

/-- P2, step 7: the last copy. -/
theorem test_byte_expand :
    let s := decOn byteCfg [0x81, 0x0A, 0x14, 0x1E, 0xFF]
    (nextOf (decByteMove { s with dec := { s.dec with
      dmode := .expand, ip := 5, rem := 1, pixbuf := A } })).map
      (fun t => (t.dec.dmode, t.dec.ip, t.dec.rem, t.dec.OUT)) = some (.cmd, 5, 0, [A]) := by decide

/-- P2, step 11: the input ends inside a group, whose lanes are dropped. -/
theorem test_byte_litpix_truncated :
    let s := decOn byteCfg [0x00, 0x01, 0x02]
    (nextOf (decByteMove { s with dec := { s.dec with dmode := .litpix, ip := 3, k := 2, rem := 1 } })).map
      (fun t => (t.dec.dmode, t.dec.endKind, t.dec.k, t.dec.OUT)) = some (.done, .truncated, 2, []) := by decide

/-- R127, X16: the pixel that does not fit is not appended, and `ip` counts the byte read. -/
theorem test_byte_litpix_capacity :
    let s := decOn (cfgOf (some 0) none .byte) [0x00, 1, 2, 3, 4]
    (nextOf (decByteMove { s with dec := { s.dec with dmode := .litpix, ip := 4, k := 3, rem := 1 } })).map
      (fun t => (t.dec.dmode, t.dec.ip, t.dec.errInfo, t.dec.err, t.dec.k, t.dec.rem)) =
    some (.error, 5, 5, 2, 3, 1) := by decide

/-! ## The encoder -/

/-- R140, P3: run lengths of `[A, B, B]`. -/
theorem test_runLen : runLen [A, B, B] 0 = 1 ∧ runLen [A, B, B] 1 = 2 := by decide

/-- R142: at `pos = 0` with `[A, A, A, B]`, RUN with `runRem = 3`. -/
theorem test_scan_run : (nextOf (encMove (encOn std [A, A, A, B]))).map
    (fun t => (t.enc.emode, t.enc.runRem, t.enc.runPix, t.enc.pos)) = some (.run, 3, A, 0) := by decide

/-- E3: a run of 2 opens a literal block. -/
theorem test_scan_lit : (nextOf (encMove (encOn std [A, A]))).map
    (fun t => (t.enc.emode, t.enc.litStart, t.enc.litLen, t.enc.pos)) = some (.lit, 0, 1, 1) := by decide

/-- R143: `runRem = 200` emits `0xFF p` with 72 left. -/
theorem test_run_chunk :
    let s := encOn std []
    (nextOf (encMove { s with enc := { s.enc with emode := .run, runRem := 200, runPix := A } })).map
      (fun t => (t.enc.BOUT, t.enc.runRem, t.enc.pos, t.enc.emode)) =
    some ([0xFF, 0x11, 0x11, 0x11, 0xFF], 72, 128, .run) := by decide

/-- R144: `[A, B, B, B]` closes the block `[A]` at `pos = 1` and emits `0x00 A`. -/
theorem test_lit_close :
    let s := encOn std [A, B, B, B]
    (nextOf (encMove { s with enc := { s.enc with emode := .lit, litStart := 0, litLen := 1, pos := 1 } })).map
      (fun t => (t.enc.BOUT, t.enc.pos, t.enc.emode)) = some ([0x00, 0x11, 0x11, 0x11, 0xFF], 1, .scan) := by decide

/-- E22: with a capacity of 6 the record `00 B` is not written and `ERR_INFO` is `pos`. -/
theorem test_lit_capacity_enc :
    let s := encOn (cfgOf none (some 6) .record) [A, A, A, B]
    (nextOf (encMove { s with enc := { s.enc with
      emode := .lit, litStart := 3, litLen := 1, pos := 4, BOUT := [0x82, 0x11, 0x11, 0x11, 0xFF] } })).map
      (fun t => (t.enc.emode, t.enc.err, t.enc.errInfo, t.enc.BOUT)) =
    some (.error, 2, 4, [0x82, 0x11, 0x11, 0x11, 0xFF]) := by decide

/-! ## The host, reset and the notation -/

/-- R39: RESET from DONE goes to IDLE and leaves IN alone. -/
theorem test_reset_dec :
    let s := decOn std [1, 2]
    (nextOf (hostMove (.reset .dec) { s with dec := { s.dec with dmode := .done, ip := 2 } })).map
      (fun t => (t.dec.dmode, t.dec.ip, t.dec.inLen, t.dec.IN)) = some (.idle, 0, 0, [(0, 1), (1, 2)]) := by decide

/-- R201: START from DONE. The values R39 leaves unspecified are not looked at. -/
theorem test_start_dec :
    (nextOf (step (decPulsed std [0x80, 1, 2, 3, 4]))).map
      (fun t => (t.dec.dmode, t.dec.ip, t.dec.OUT, t.dec.inLen, t.dec.start)) = some (.cmd, 0, [], 5, false) := by decide

/-- P1: the listing and its 19 bytes. -/
theorem test_assemble_p1 :
    assemble [.atIndex 0, .record (.wholeRun 2 ⟨10, 20, 30, 255⟩), .atIndex 5,
      .record (.wholeLit 2 [⟨1, 2, 3, 4⟩, ⟨5, 6, 7, 8⟩]), .atIndex 14, .record (.wholeRun 1 ⟨0, 0, 0, 0⟩)] =
    some [0x81, 0x0A, 0x14, 0x1E, 0xFF, 0x01, 1, 2, 3, 4, 5, 6, 7, 8, 0x80, 0, 0, 0, 0] := by decide

/-- P2: the listing with a truncated final record, and its 8 bytes. -/
theorem test_assemble_p2 :
    assemble [.atIndex 0, .record (.wholeRun 2 ⟨10, 20, 30, 255⟩), .atIndex 5, .truncated [0x00, 0x01, 0x02]] =
    some [0x81, 0x0A, 0x14, 0x1E, 0xFF, 0x00, 0x01, 0x02] := by decide

/-- R92: bytes left over that are not at the end, and bytes that are a whole record. -/
theorem test_assemble_truncated_refused : assemble [.truncated [0x00, 0x01], .record (.wholeRun 1 A)] = none ∧
    assemble [.truncated [0x80, 1, 2, 3, 4]] = none := by decide

/-- R90, R91: a refused line, and `RUNS 200, p`. -/
theorem test_assemble_refused : assemble [.record (.wholeRun 129 A)] = none := by decide
theorem test_runs_200 : lineRecords (.runs 200 A) = some [.wholeRun 128 A, .wholeRun 72 A] := by decide

/-- P3's stream, from the one-piece form. -/
theorem test_encode_p3 : encodeStream [A, B, B, ⟨1, 1, 1, 1⟩, ⟨1, 1, 1, 1⟩, ⟨1, 1, 1, 1⟩, ⟨1, 1, 1, 1⟩, A] =
    encode (.wholeLit 3 [A, B, B]) ++ encode (.wholeRun 4 ⟨1, 1, 1, 1⟩) ++ encode (.wholeLit 1 [A]) := by decide

/-- ListingSpellsItsBytes: a whole record, one cut off, and one that is refused. -/
theorem witness_listing : (∀ i ∈ [Instr.wholeRun 2 A], i.wellFormed = true) ∧ (Instr.lit 1 [] [1, 2]).fetchable = true ∧
    (Instr.lit 1 [] [1, 2]).wellFormed = false := by decide

/-- The memory of the reset state has the canonical form. -/
theorem test_reset_canonical : Memory.wf State.reset.dec.IN = true ∧ Buffer.wf State.reset.enc.PIN = true := by decide

/-! ## Witnesses for the statements' hypotheses -/

/-- A state inside a RUN record, in which the invariant speaks of everything it knows. -/
def insideRecord : State :=
  let s := decOn std [0x81, 1, 2, 3, 4]
  { s with dec := { s.dec with dmode := .expand, ip := 5, cmd := 0x81, cnt := 2, rem := 1, OUT := [A], pixbuf := A } }

theorem enc_reset_inv (cfg : Config) : EncInv cfg (Enc.afterReset []) where
  canonical := by decide
  inputPresent := by decide
  posInRange := by decide
  outFits := by cases h : cfg.outCapBytes <;> simp [within]
  runLeft := by decide
  litOpen := by decide
  errCode := by decide
  errInfoCode := by decide

theorem witness_inv_insideRecord : Inv insideRecord where
  dec := by constructor <;> decide
  enc := enc_reset_inv std

/-- A decoder about to end cleanly. -/
theorem witness_inv_atEnd : Inv (decOn std []) where
  dec := by constructor <;> decide
  enc := enc_reset_inv std

/-- An encoder in RUN and one in LIT. -/
theorem witness_inv_encRun :
    let s := encOn std [A, A, A]
    Inv { s with enc := { s.enc with emode := .run, runRem := 3, runPix := A } } where
  dec := by constructor <;> decide
  enc := by constructor <;> decide

theorem witness_inv_encLit :
    let s := encOn std [A, B]
    Inv { s with enc := { s.enc with emode := .lit, litLen := 1, pos := 1 } } where
  dec := by constructor <;> decide
  enc := by constructor <;> decide

/-- EveryCommandByteNamesOneRecord: both clauses, at the values where they meet. -/
theorem witness_commandByte : (0x7F : Byte).toNat ≤ 0x7F ∧ 0x80 ≤ (0x80 : Byte).toNat := by decide

/-- DecodeOfEncodeGivesTheRecordBack, CommandByteGivesTheRecordLength, PrefixProperty, SumLaw. -/
theorem witness_wellFormed : (Instr.wholeRun 128 A).wellFormed = true ∧ (Instr.wholeLit 2 [A, B]).wellFormed = true ∧
    (Instr.lit 2 [A] [1, 2, 3]).fetchable = true ∧ (Instr.lit 2 [A] [1, 2, 3]).wellFormed = false ∧
    (Instr.run 1 none [1]).fetchable = true := by decide

/-- EncodeOfDecodeGivesTheBytesBack. -/
theorem witness_decodes : decode [0x82, 1] = .ok (.run 3 none [1]) := rfl

/-- RecordBytesStandWhereTheFormatSays. -/
theorem witness_recordBytes : 1 ≤ 128 ∧ 128 ≤ 128 ∧ (List.replicate 128 A).length = 128 ∧
    (List.replicate 128 A)[127]? = some A := by simp

/-- RunsExpandsToItsChunks, OneRunGivesItsChunks. -/
theorem witness_runLength : 1 ≤ 1 ∧ 3 ≤ 130 := by decide

/-- RunRecordEffect: both capacity clauses. -/
theorem witness_runEffect :
    within (decOn (cfgOf (some 3) none .record) []).cfg.outCapPix (0 + 3) = true ∧
    (decOn (cfgOf (some 2) none .record) []).cfg.outCapPix = some 2 ∧ 2 < 0 + 3 := by decide

/-- LitRecordEffect: a whole record, one cut off, and one that does not fit. -/
theorem witness_litEffect :
    within (some 2) (0 + [A, B].length) = true ∧ [A, B].length = 2 ∧ [A].length < 2 ∧
    [A, B][1 - 0]? = some B := by decide

/-- RunRecordAtIp: 3 of 4 payload bytes, and 4 of 4, with room and without. -/
theorem witness_runAtIp_cut :
    let s := decOn std [0x82, 1, 2, 3]
    s.dec.dmode = .cmd ∧ Buffer.full s.dec.IN s.dec.inLen = true ∧ s.dec.ip < s.dec.inLen ∧
      Buffer.get s.dec.IN s.dec.ip = some 0x82 ∧ (0x82 : Byte).getLsbD 7 = true ∧
      s.dec.inLen - (s.dec.ip + 1) < 4 := by decide

theorem witness_runAtIp_whole :
    let s := decOn (cfgOf (some 2) none .record) [0x82, 1, 2, 3, 4]
    s.dec.dmode = .cmd ∧ Buffer.full s.dec.IN s.dec.inLen = true ∧ s.dec.ip < s.dec.inLen ∧
      Buffer.get s.dec.IN s.dec.ip = some 0x82 ∧ 4 ≤ s.dec.inLen - (s.dec.ip + 1) ∧
      Buffer.get s.dec.IN 1 = some 1 ∧ Buffer.get s.dec.IN 2 = some 2 ∧ Buffer.get s.dec.IN 3 = some 3 ∧
      Buffer.get s.dec.IN 4 = some 4 ∧ s.cfg.outCapPix = some 2 ∧ s.dec.OUT.length ≤ 2 ∧
      2 < s.dec.OUT.length + ((0x82 : Byte).toNat % 128 + 1) ∧
      within none (s.dec.OUT.length + ((0x82 : Byte).toNat % 128 + 1)) = true := by decide

/-- LitRecordAtIp: one of two groups, and two of two, with room and without. -/
theorem witness_litAtIp_cut :
    let s := decOn std [0x01, 1, 2, 3, 4, 5]
    s.dec.dmode = .cmd ∧ Buffer.full s.dec.IN s.dec.inLen = true ∧ s.dec.ip < s.dec.inLen ∧
      Buffer.get s.dec.IN s.dec.ip = some 0x01 ∧ (0x01 : Byte).getLsbD 7 = false ∧ 2 = (0x01 : Byte).toNat % 128 + 1 ∧
      1 = min 2 ((s.dec.inLen - (s.dec.ip + 1)) / 4) ∧
      Buffer.range s.dec.IN (s.dec.ip + 1) (4 * 1) = some ([⟨1, 2, 3, 4⟩].flatMap pixelBytes) ∧ 1 < 2 ∧
      within s.cfg.outCapPix (s.dec.OUT.length + 1) = true := by decide

theorem witness_litAtIp_whole :
    let s := decOn (cfgOf (some 1) none .record) [0x01, 1, 2, 3, 4, 5, 6, 7, 8]
    s.dec.dmode = .cmd ∧ Buffer.full s.dec.IN s.dec.inLen = true ∧
      Buffer.get s.dec.IN s.dec.ip = some 0x01 ∧ 2 = min 2 ((s.dec.inLen - (s.dec.ip + 1)) / 4) ∧
      Buffer.range s.dec.IN (s.dec.ip + 1) (4 * 2) = some ([⟨1, 2, 3, 4⟩, ⟨5, 6, 7, 8⟩].flatMap pixelBytes) ∧
      s.cfg.outCapPix = some 1 ∧ s.dec.OUT.length ≤ 1 ∧ 1 < s.dec.OUT.length + 2 ∧
      within none (s.dec.OUT.length + 2) = true := by decide

/-- RecordFrame: RUN and LIT answer a next state. -/
theorem witness_recordFrame : (nextOf (exec (.wholeRun 2 A) (decOn std []))).isSome = true ∧
    (nextOf (exec (.wholeLit 1 [A]) (decOn std []))).isSome = true := by decide

/-- StepRunsTheRecordAtIp: a whole record before more input, and a cut one at the end; both agenda clauses. -/
theorem witness_stepRuns :
    let s := decOn std [0x82, 1, 2, 3, 4, 0x00]
    s.dec.start = false ∧ s.enc.start = false ∧ s.cfg.level = .record ∧ s.dec.dmode = .cmd ∧
      s.dec.ip + 5 ≤ s.dec.inLen ∧ Buffer.range s.dec.IN s.dec.ip 5 = some [0x82, 1, 2, 3, 4] ∧
      (Instr.wholeRun 3 ⟨1, 2, 3, 4⟩).wellFormed = true ∧ s.agenda = [] ∧
      ({ s with agenda := [.dec] } : State).agenda = .dec :: [] := by decide

theorem witness_stepRuns_decodes : decode [0x82, 1, 2, 3, 4] = .ok (.wholeRun 3 ⟨1, 2, 3, 4⟩) := rfl

theorem witness_stepRuns_cut :
    let s := { decOn std [0x82, 1, 2] with agenda := [.dec] }
    s.dec.ip + 3 = s.dec.inLen ∧ Buffer.range s.dec.IN s.dec.ip 3 = some [0x82, 1, 2] ∧ s.agenda = .dec :: [] := by
  decide

/-- EndOfInputEndsCleanly. -/
theorem witness_endOfInput : (decOn byteCfg []).dec.dmode = .cmd ∧
    (decOn byteCfg []).dec.ip = (decOn byteCfg []).dec.inLen := by decide

/-- EmptyInputGivesEmptyOutput, ConversionRunsDecode. -/
theorem witness_decLaunch_empty : (decPulsed std []).DecLaunch [] := by constructor <;> decide

theorem witness_decLaunch : (decPulsed std [0x80, 1, 2, 3, 4]).DecLaunch [0x80, 1, 2, 3, 4] := by
  constructor <;> decide

/-- BothLevelsReachDecode, ByteLevelStepCount. -/
theorem witness_atStart : (decOn byteCfg [0x80, 1, 2, 3, 4, 0x00]).dec.AtStart
    ([Instr.wholeRun 1 ⟨1, 2, 3, 4⟩].flatMap encode ++ (some (Instr.lit 1 [] [])).toList.flatMap encode) := by
  constructor <;> decide

theorem witness_stepCount_records :
    (∀ i ∈ [Instr.wholeRun 1 ⟨1, 2, 3, 4⟩], i.wellFormed = true) ∧
    (∀ i ∈ some (Instr.lit 1 [] []), i.fetchable = true ∧ i.wellFormed = false) := by decide

/-- ByteLevelSimulatesRecordLevel. -/
theorem witness_simulates :
    let s := decOn std [0x80, 1, 2, 3, 4]
    s.dec.dmode = .cmd ∧ Buffer.full s.dec.IN s.dec.inLen = true ∧ s.dec.ip ≤ s.dec.inLen ∧
      (nextOf (decRecordMove s)).isSome = true := by decide

/-- EndingsConsumeTheInput: with witness_inv_atEnd. -/
theorem witness_endings : (decOn std []).dec.busy = true ∧
    (nextOf (decMove (decOn std []))).map (fun t => t.dec.dmode) = some .done := by decide

/-- ByteStepReadsOneEmitsOne, AgentsWriteOnlyTheirOwn, OutputGrowsByWholeRecords. -/
theorem witness_agentsMove : (nextOf (decByteMove insideRecord)).isSome = true ∧
    (nextOf (decMove insideRecord)).isSome = true ∧ (nextOf (encMove (encOn std [A]))).isSome = true := by decide

/-- RunLenIsTheMaximalRun. -/
theorem witness_runLen : 1 < [A, B, B].length ∧ 1 + 2 ≤ [A, B, B].length ∧ ∀ j < 2, [A, B, B][1 + j]? = [A, B, B][1]? := by
  decide

/-- ScanStepChooses: the three clauses. -/
theorem witness_scan :
    (encOn std []).enc.emode = .scan ∧ (encOn std []).enc.pos = (encOn std []).enc.inLen ∧
    [A, A, A][(encOn std [A, A, A]).enc.pos]? = some A ∧ 3 ≤ runLen [A, A, A] 0 ∧ runLen [A, A] 0 < 3 := by decide

theorem witness_scan_pixels : (encOn std [A, A, A]).enc.HoldsFrom (encOn std [A, A, A]).enc.pos [A, A, A] := by
  constructor <;> decide

/-- RunStepEmitsOneChunk: the three clauses. -/
theorem witness_run :
    let s := encOn std [A, A, A]
    ({ s with enc := { s.enc with emode := .run, runRem := 3 } } : State).enc.emode = .run ∧ 1 ≤ 3 ∧
      within none (s.enc.BOUT.length + 5) = true ∧ within (some 4) (s.enc.BOUT.length + 5) = false ∧ s.enc.runRem = 0 := by
  decide

/-- RunStepEmitsOneChunk: one chunk exactly, and one and a pixel. -/
theorem witness_run_chunks :
    let u (r : Nat) : State :=
      { encOn std [] with enc := { (encOn std []).enc with emode := .run, runRem := r, runPix := A } }
    (u 128).enc.emode = .run ∧ 1 ≤ (u 128).enc.runRem ∧ (u 129).enc.emode = .run ∧ 1 ≤ (u 129).enc.runRem ∧
      within (u 129).cfg.outCapBytes ((u 129).enc.BOUT.length + 5) = true := by decide

/-- ENC in LIT over the first `n` of an input, at the end of the block. -/
def litAt (pin : List Pixel) (n : Nat) : State :=
  { encOn std pin with
    enc := { (encOn std pin).enc with emode := .lit, litStart := 0, litLen := BitVec.ofNat 8 n, pos := n } }

theorem litAt_holds (pin : List Pixel) (n : Nat) :
    (litAt pin n).enc.HoldsFrom (min (litAt pin n).enc.litStart (litAt pin n).enc.pos) pin where
  length := rfl
  pixels j hj _ := by
    show Buffer.get (Buffer.setMany [] 0 pin) j = pin[j]?
    rw [Buffer.get_setMany, if_pos ⟨Nat.zero_le j, (Nat.zero_add pin.length).symm ▸ hj⟩, Nat.sub_zero]

/-- LitStepExtendsOrCloses at the greatest counts, with litAt_holds: 127 extends; 128 closes with a whole record; 129
is the first count that raises. -/
theorem witness_lit_127 : (litAt (List.replicate 127 A ++ [B]) 127).enc.litLen.toNat = 127 ∧
    0 + 127 ≤ (List.replicate 127 A ++ [B]).length ∧
    (127 < 128 ∧ (litAt (List.replicate 127 A ++ [B]) 127).enc.pos < (List.replicate 127 A ++ [B]).length ∧
      min (runLen (List.replicate 127 A ++ [B]) 127) 8 < 3) := by
  refine ⟨rfl, by simp, by omega, ?_, ?_⟩
  · show 127 < _
    simp
  · rw [show runLen (List.replicate 127 A ++ [B]) 127 = 1 from rfl]
    decide

theorem witness_lit_128 : (litAt (List.replicate 128 A ++ [B]) 128).enc.litLen.toNat = 128 ∧
    0 + 128 ≤ (List.replicate 128 A ++ [B]).length ∧
    ¬ (128 < 128 ∧ (litAt (List.replicate 128 A ++ [B]) 128).enc.pos < (List.replicate 128 A ++ [B]).length ∧
      min (runLen (List.replicate 128 A ++ [B]) 128) 8 < 3) ∧ 1 ≤ 128 ∧ 128 ≤ 128 ∧
    within (litAt (List.replicate 128 A ++ [B]) 128).cfg.outCapBytes
      ((litAt (List.replicate 128 A ++ [B]) 128).enc.BOUT.length + (1 + 4 * 128)) = true :=
  ⟨rfl, by simp, fun h => absurd h.1 (by omega), by omega, by omega, rfl⟩

theorem witness_lit_129 : (litAt (List.replicate 129 A) 129).enc.litLen.toNat = 129 ∧
    0 + 129 ≤ (List.replicate 129 A).length ∧
    ¬ (129 < 128 ∧ (litAt (List.replicate 129 A) 129).enc.pos < (List.replicate 129 A).length ∧
      min (runLen (List.replicate 129 A) 129) 8 < 3) ∧ (129 = 0 ∨ 128 < 129) :=
  ⟨rfl, by simp, fun h => absurd h.1 (by omega), by omega⟩

/-- LitStepExtendsOrCloses: extending at 1, closing at the end with room and without, and a count of 0. -/
theorem witness_lit :
    let s := encOn std [A, B]
    let u : State := { s with enc := { s.enc with emode := .lit, litLen := 1, pos := 1 } }
    u.enc.emode = .lit ∧ u.enc.litStart + 1 ≤ [A, B].length ∧
      (1 < 128 ∧ u.enc.pos < [A, B].length ∧ min (runLen [A, B] u.enc.pos) 8 < 3) ∧
      ¬ (1 < 128 ∧ 2 < [A, B].length ∧ min (runLen [A, B] 2) 8 < 3) ∧
      within none (0 + (1 + 4 * 1)) = true ∧ within (some 4) (0 + (1 + 4 * 1)) = false ∧ s.enc.litLen.toNat = 0 := by
  decide

/-- ConversionRunsEncode, RoundTripThroughTheMachine. -/
theorem witness_encLaunch : (encPulsed std [A, A, A]).EncLaunch [A, A, A] := by constructor <;> decide

theorem witness_roundTrip : (encPulsed std [A, A, A]).cfg.outCapBytes = none ∧
    (encodeAll none [A, A, A]).bout = [0x82, 0x11, 0x11, 0x11, 0xFF] := by decide

theorem witness_roundTrip_decoder :
    (decPulsed std [0x82, 0x11, 0x11, 0x11, 0xFF]).DecLaunch [0x82, 0x11, 0x11, 0x11, 0xFF] := by
  constructor <;> decide

/-- StepKeepsTheInvariant: with witness_inv_insideRecord. -/
theorem witness_stepKeeps : (nextOf (step insideRecord)).isSome = true := by decide

/-- OnlyTheHostStopsTheMachine: a host write that no index names, and one while BUSY. -/
theorem witness_hostStops :
    step { State.reset with cfg := { wAddr := some 1, outCapPix := none, outCapBytes := none, level := .record },
                            agenda := [.host (.writeIn 2 0)] } = .fault (.noSuchIndex .dec 2) ∧
    step { insideRecord with agenda := [.host (.writeIn 0 0)] } = .refused (.inputWrittenWhileBusy .dec) := ⟨rfl, rfl⟩

/-- ErrorIsFinal: both agents in ERROR, and a step that leaves it. -/
theorem witness_error :
    let s := decOn std []
    let u : State := { s with dec := { s.dec with dmode := .error, err := 2 }, enc := { s.enc with emode := .error } }
    (nextOf (step u)).map (fun t => (t.dec.dmode, t.enc.emode)) = some (.error, .error) ∧
    (nextOf (step { u with agenda := [.host (.reset .dec)] })).map (fun t => t.dec.dmode) = some .idle := by decide

/-- NothingPersists: two states that differ in everything but the parameters and the input. -/
theorem witness_persists :
    let s := decOn std [0x80, 1, 2, 3, 4]
    let u : State := { s with dec := { s.dec with OUT := [A], cmd := 7, pixbuf := A, ip := 3 }, enc := Enc.afterReset [(1, A)] }
    s.cfg = u.cfg ∧ s.dec.IN = u.dec.IN ∧ s.dec.inLen = u.dec.inLen ∧ s.launchOk .dec = true ∧ s ≠ u := by decide

theorem witness_persists_enc :
    let s := encOn std [A, B]
    let u : State := { s with enc := { s.enc with BOUT := [1], runRem := 9, pos := 2 } }
    s.cfg = u.cfg ∧ s.enc.PIN = u.enc.PIN ∧ s.enc.inLen = u.enc.inLen ∧ s.launchOk .enc = true ∧ s ≠ u := by decide

/-- DecoderResetAndStart, EncoderResetAndStart, LaunchNeedsTheHostsDuties. -/
theorem witness_launch :
    (decPulsed std [1]).dec.start = true ∧ (decPulsed std [1]).dec.busy = false ∧
      (decPulsed std [1]).launchOk .dec = true ∧ (encPulsed std [A]).dec.start = false ∧
      (encPulsed std [A]).enc.start = true ∧ (encPulsed std [A]).enc.busy = false ∧
      (encPulsed std [A]).launchOk .enc = true := by decide

/-- LaunchNeedsTheHostsDuties: each breach, at the value where it begins; the last is an unwritten index. -/
theorem witness_launch_refused :
    let u (w : Nat) (p b : Option Nat) (l : Nat) : State :=
      { State.resetWith { wAddr := some w, outCapPix := p, outCapBytes := b, level := .record } with
        dec := { Dec.afterReset (bufferOf [1, 2]) with inLen := l, start := true } }
    (u 2 (some 3) (some 3) 2).launchOk .dec = true ∧ (u 2 (some 4) (some 3) 2).launchOk .dec = false ∧
      (u 2 (some 3) (some 4) 2).launchOk .dec = false ∧ (u 1 (some 1) (some 1) 2).launchOk .dec = false ∧
      (u 2 none (some 3) 2).launchOk .dec = false ∧ (u 2 (some 3) (some 3) 3).launchOk .dec = false := by decide

/-- LaunchNeedsTheHostsDuties for ENC: each breach, at the value where it begins. -/
theorem witness_launch_refused_enc :
    let u (w : Nat) (p b : Option Nat) (l : Nat) : State :=
      { State.resetWith { wAddr := some w, outCapPix := p, outCapBytes := b, level := .record } with
        enc := { Enc.afterReset (bufferOf [A, B]) with inLen := l, start := true } }
    (u 2 (some 3) (some 3) 2).dec.start = false ∧ (u 2 (some 3) (some 3) 2).enc.start = true ∧
      (u 2 (some 3) (some 3) 2).enc.busy = false ∧
      (u 2 (some 3) (some 3) 2).launchOk .enc = true ∧ (u 2 (some 4) (some 3) 2).launchOk .enc = false ∧
      (u 2 (some 3) (some 4) 2).launchOk .enc = false ∧ (u 1 (some 1) (some 1) 2).launchOk .enc = false ∧
      (u 2 (some 3) none 2).launchOk .enc = false ∧ (u 2 (some 3) (some 3) 3).launchOk .enc = false := by decide

/-- StartWhileBusyHasNoEffect, InputIsStableWhileBusy, OutputIsVisibleAtSuccessOnly. -/
theorem witness_busy :
    ({ insideRecord with dec := { insideRecord.dec with start := true } } : State).dec.busy = true ∧
    insideRecord.dec.start = false ∧
    ({ encOn std [A] with enc := { (encOn std [A]).enc with start := true } } : State).enc.busy = true ∧
    (nextOf (step insideRecord)).isSome = true ∧ (nextOf (step (encOn std [A]))).isSome = true := by decide

/-- HostWritesTakeEffect: the last index that W_ADDR = 2 names. -/
theorem witness_hostWrite : State.reset.dec.busy = false ∧ State.reset.enc.busy = false ∧
    (∀ w, some 2 = some w → 3 < 2 ^ w) := by
  refine ⟨by decide, by decide, fun w h => ?_⟩
  cases h
  decide

/-- EncoderReadsOnlyItsRecordAndWindow: a SCAN at 1 with no pixel below it, and a LIT with none past its window. -/
theorem witness_reads_scan :
    let s : State := { encOn std [A, B, B] with enc := { (encOn std [A, B, B]).enc with pos := 1 } }
    s.enc.emode ≠ .lit ∧ ∀ j < s.enc.inLen, 1 ≤ j → Buffer.get [(1, B), (2, B)] j = Buffer.get s.enc.PIN j := by decide

theorem witness_reads_lit :
    let s := litAt [A, B, A, B, A, B, A, B, A, B] 1
    s.enc.emode = .lit ∧ s.enc.pos = s.enc.litStart + s.enc.litLen.toNat ∧ min (s.enc.pos + 8) s.enc.inLen = 9 ∧
      ∀ j < 9, Buffer.get (bufferOf [A, B, A, B, A, B, A, B, A]) j = Buffer.get s.enc.PIN j := by decide

/-- R61: a SCAN at `pos = N` reads no pixel, and one at `pos = 1` none below it. -/
theorem test_scan_reads_from_pos :
    let s : State := { encOn std [A, B, B, B] with enc := { (encOn std [A, B, B, B]).enc with PIN := [(1, B), (2, B), (3, B)] } }
    (nextOf (encMove { s with enc := { s.enc with pos := 4, PIN := [] } })).map (fun t => t.enc.emode) = some .done ∧
    (nextOf (encMove { s with enc := { s.enc with pos := 1 } })).map (fun t => (t.enc.emode, t.enc.runRem)) =
      some (.run, 3) := by decide

end Sys2Proof.Tests
end

section
/-! PROOFS of the state's family: the size bounds of R33. A record of the format meets both ratios (bytes to pixels
and pixels to bytes), the unbounded `Decode` and `Encode` go record by record, and the bounds add up. -/

namespace Sys2Proof

/-! ## Records -/

theorem Instr.fetchable_run_iff (n : Nat) (p : Option Pixel) (cut : List Byte) :
    (Instr.run n p cut).fetchable = true ↔ (1 ≤ n ∧ n ≤ 128) ∧ cut.length < 4 ∧ (p = none ∨ cut = []) := by
  simp [Instr.fetchable, countOk_iff, and_assoc]

theorem Instr.fetchable_lit_iff (n : Nat) (ps : List Pixel) (cut : List Byte) :
    (Instr.lit n ps cut).fetchable = true ↔
      (1 ≤ n ∧ n ≤ 128) ∧ cut.length < 4 ∧ ps.length ≤ n ∧ (ps.length < n ∨ cut = []) := by
  simp [Instr.fetchable, countOk_iff, and_assoc]

theorem Instr.wellFormed_run_iff (n : Nat) (p : Option Pixel) (cut : List Byte) :
    (Instr.run n p cut).wellFormed = true ↔ (1 ≤ n ∧ n ≤ 128) ∧ p.isSome = true ∧ cut = [] := by
  simp [Instr.wellFormed, countOk_iff, and_assoc]

theorem Instr.wellFormed_lit_iff (n : Nat) (ps : List Pixel) (cut : List Byte) :
    (Instr.lit n ps cut).wellFormed = true ↔ (1 ≤ n ∧ n ≤ 128) ∧ ps.length = n ∧ cut = [] := by
  simp [Instr.wellFormed, countOk_iff, and_assoc]

theorem encode_length_of_wellFormed {i : Instr} (h : i.wellFormed = true) : (encode i).length = i.size := by
  cases i with
  | run n p cut => exact (Laws.EncodedLength.run n p cut).1 h
  | lit n ps cut => exact (Laws.EncodedLength.lit n ps cut).1 h

/-- R33: a record yields at most 128 pixels for every 5 of its bytes, cut off or not. -/
theorem expand_length_le {i : Instr} (h : i.fetchable = true) : i.expand.length ≤ 128 * ((encode i).length / 5) := by
  match i with
  | .run n none cut => simp [Instr.expand]
  | .run n (some p) cut =>
    obtain ⟨⟨-, hn⟩, -⟩ := (Instr.fetchable_run_iff ..).1 h
    rw [encode, List.length_append, recordBytes_length]
    simp only [Instr.expand, Option.toList, List.flatMap_singleton, List.length_replicate, List.length_singleton]
    omega
  | .lit n ps cut =>
    obtain ⟨⟨-, hn⟩, -, hle, -⟩ := (Instr.fetchable_lit_iff ..).1 h
    rw [encode, List.length_append, recordBytes_length, Instr.expand]
    omega

/-- R33: a whole record of `c` pixels costs at most `4c + 1` bytes, so at most 5 a pixel. -/
theorem encode_length_le {i : Instr} (h : i.wellFormed = true) : (encode i).length ≤ 5 * i.expand.length := by
  match i with
  | .run n none cut => simp [Instr.wellFormed] at h
  | .run n (some p) cut =>
    obtain ⟨⟨hn, -⟩, -⟩ := (Instr.wellFormed_run_iff ..).1 h
    rw [encode_length_of_wellFormed h, Instr.size]
    simp only [Instr.expand, Option.toList, List.flatMap_singleton, List.length_replicate]
    omega
  | .lit n ps cut =>
    obtain ⟨⟨hn, -⟩, hps, -⟩ := (Instr.wellFormed_lit_iff ..).1 h
    rw [encode_length_of_wellFormed h, Instr.size, Instr.expand]
    omega

theorem flatMap_encode_length_le {rs : List Instr} (h : ∀ i ∈ rs, i.wellFormed = true) :
    (rs.flatMap encode).length ≤ 5 * (rs.flatMap Instr.expand).length := by
  induction rs with
  | nil => simp
  | cons i rs ih =>
    have hi := encode_length_le (h i List.mem_cons_self)
    have hrs := ih fun j hj => h j (List.mem_cons_of_mem i hj)
    simp only [List.flatMap_cons, List.length_append]
    omega

/-- R86, R87: whatever decodes stands at the front of the bytes, and is all of them when it is cut off. -/
theorem decode_eq_ok {bs : List Byte} {i : Instr} (h : decode bs = .ok i) :
    i.fetchable = true ∧ ∃ rest, bs = encode i ++ rest ∧ (i.wellFormed = false → rest = []) := by
  cases bs with
  | nil => cases h
  | cons c t =>
    have hn := cmdCount_range c
    have hc := cmdByte_of_fields c
    simp only [decode] at h
    split at h
    next hf =>
      rw [hf] at hc
      have hspec := pixelGroups_spec 1 t
      split at h
      next p ps cut hg =>
        cases h
        obtain ⟨hle, -, hcut, rest, ht, -⟩ := hspec
        simp only [hg, List.length_cons] at hle hcut ht
        obtain rfl : ps = [] := List.eq_nil_of_length_eq_zero (by omega)
        obtain rfl : cut = [] := hcut rfl
        refine ⟨(Instr.fetchable_run_iff ..).2 ⟨hn, by simp, .inr rfl⟩, rest, ?_, fun hw => ?_⟩
        · simpa [encode, recordBytes, hc] using ht
        · rw [(Instr.wellFormed_run_iff ..).2 ⟨hn, rfl, rfl⟩] at hw
          cases hw
      next cut hg =>
        cases h
        obtain ⟨-, hlt, -, rest, ht, hrest⟩ := hspec
        simp only [hg] at hlt ht hrest
        exact ⟨(Instr.fetchable_run_iff ..).2 ⟨hn, hlt, .inl rfl⟩, rest, by simpa [encode, recordBytes, hc] using ht,
          fun _ => hrest Nat.zero_lt_one⟩
    next hf =>
      rw [Bool.not_eq_true] at hf
      rw [hf] at hc
      cases h
      obtain ⟨hle, hlt, hcut, rest, ht, hrest⟩ := pixelGroups_spec (cmdCount c).toNat t
      refine ⟨(Instr.fetchable_lit_iff ..).2 ⟨hn, hlt, hle, hle.lt_or_eq.imp_right hcut⟩, rest, ?_, fun hw => ?_⟩
      · simpa [encode, recordBytes, hc] using ht
      · refine hrest (hle.lt_of_ne fun heq => ?_)
        rw [(Instr.wellFormed_lit_iff ..).2 ⟨hn, heq, hcut heq⟩] at hw
        cases hw

theorem decode_eq_error {bs : List Byte} {e : DecodeError} (h : decode bs = .error e) : bs = [] := by
  cases bs with
  | nil => rfl
  | cons c t =>
    simp only [decode] at h
    split at h
    · split at h <;> cases h
    · cases h

end Sys2Proof

namespace Sys2Proof.Machine

/-! ## Decode, with an unbounded output -/

theorem emitList_none (ps out : List Pixel) : emitList none ps out = (out ++ ps, 0) := by
  induction ps generalizing out with
  | nil => rw [emitList, List.append_nil]
  | cons p ps ih => rw [emitList, (emit_eq_some none p out _).2 ⟨rfl, rfl⟩]; simp [ih]

/-- R101: the loop's round at the end of the input. -/
theorem decodeLoop_end {cap : Option Nat} {inp : List Byte} {ip : Nat} {e : DecodeError}
    (h : decode (inp.drop ip) = .error e) (fuel : Nat) (out : List Pixel) :
    decodeLoop cap inp (fuel + 1) ip out = ⟨.done, ip, out, .clean, 0, 0⟩ := by
  cases e
  rw [decodeLoop, h]

/-- R102 to R104: the loop's round on a record. -/
theorem decodeLoop_none_record {inp : List Byte} {ip : Nat} {i : Instr} (h : decode (inp.drop ip) = .ok i)
    (fuel : Nat) (out : List Pixel) :
    decodeLoop none inp (fuel + 1) ip out =
      if i.wellFormed = true then decodeLoop none inp fuel (ip + i.size) (out ++ i.expand)
      else ⟨.done, inp.length, out ++ i.expand, .truncated, 0, 0⟩ := by
  obtain ⟨hf, -⟩ := decode_eq_ok h
  rw [decodeLoop, h]
  match i with
  | .run n none cut => simp [Instr.wellFormed, Instr.expand]
  | .run n (some p) cut =>
    obtain ⟨hn, -, hcut⟩ := (Instr.fetchable_run_iff ..).1 hf
    rw [if_pos ((Instr.wellFormed_run_iff ..).2 ⟨hn, rfl, by simpa using hcut⟩)]
    simp [emitList_none, Instr.size, Instr.expand]
  | .lit n ps cut =>
    obtain ⟨hn, -, hle, hcut⟩ := (Instr.fetchable_lit_iff ..).1 hf
    simp only [emitList_none, Instr.size, Instr.expand, Instr.wellFormed_lit_iff, ← Nat.add_assoc]
    by_cases hlt : ps.length < n
    · rw [if_pos hlt, if_neg fun hw => hlt.ne hw.2.1]
    · rw [if_neg hlt, if_pos ⟨hn, by omega, hcut.resolve_left hlt⟩]

/-- R33's ratio is kept by each round, and the last one ends at `L`. -/
theorem decodeLoop_none_bounds (inp : List Byte) (fuel ip : Nat) (out : List Pixel) (hip : ip ≤ inp.length)
    (hfuel : inp.length < ip + fuel) (hout : out.length ≤ 128 * (ip / 5)) :
    (decodeLoop none inp fuel ip out).ip = inp.length ∧
      (decodeLoop none inp fuel ip out).out.length ≤ 128 * (inp.length / 5) := by
  induction fuel generalizing ip out with
  | zero => omega
  | succ fuel ih =>
    cases hd : decode (inp.drop ip) with
    | error e =>
      have hend : ip = inp.length := hip.antisymm (List.drop_eq_nil_iff.1 (decode_eq_error hd))
      rw [decodeLoop_end hd]
      exact ⟨hend, hend ▸ hout⟩
    | ok i =>
      obtain ⟨hf, rest, hbytes, -⟩ := decode_eq_ok hd
      have hlen : inp.length - ip = (encode i).length + rest.length := by
        rw [← List.length_drop, hbytes, List.length_append]
      have hexp := expand_length_le hf
      have hout' : (out ++ i.expand).length ≤ 128 * ((ip + (encode i).length) / 5) := by
        rw [List.length_append]; omega
      rw [decodeLoop_none_record hd]
      split
      next hw =>
        have hpos : 0 < i.size := by cases i <;> simp [Instr.size]
        rw [encode_length_of_wellFormed hw] at hlen hout'
        exact ih _ _ (by omega) (by omega) hout'
      next => exact ⟨rfl, hout'.trans (by gcongr; omega)⟩

/-! ## Encode, with an unbounded output -/

theorem emitRecord_none (f : Bool) {c : Nat} (hc : 1 ≤ c ∧ c ≤ 128) (pix : List Pixel) (pos : Nat) (bout : List Byte) :
    emitRecord none f c pix pos bout = .ok (bout ++ recordBytes f c pix) := by
  obtain ⟨h, -⟩ | ⟨-, -, h⟩ | ⟨-, h, -⟩ := emitRecord_cases none f c pix pos bout
  · omega
  · exact h
  · cases h

@[simp] theorem runsRecords_zero (p : Pixel) : runsRecords 0 p = [] := rfl

/-- R91: the first record of `RUNS R, p` takes as many pixels as one record can. -/
theorem runsRecords_cons {len : Nat} (h : 1 ≤ len) (p : Pixel) :
    runsRecords len p = .wholeRun (min len 128) p :: runsRecords (len - min len 128) p := by
  by_cases hlt : len < 128
  · have hmod : len % 128 = len := Nat.mod_eq_of_lt hlt
    simp [runsRecords, maxCount, Nat.div_eq_of_lt hlt, hmod, Nat.min_eq_left hlt.le, show len ≠ 0 by omega]
  · obtain ⟨k, rfl⟩ : ∃ k, len = k + 128 := ⟨len - 128, by omega⟩
    simp [runsRecords, maxCount, List.replicate_succ]

/-- R91: the records of `RUNS R, p` are whole, and stand for `R` copies of the pixel. -/
theorem runsRecords_spec (len : Nat) (p : Pixel) :
    (∀ i ∈ runsRecords len p, i.wellFormed = true) ∧
      (runsRecords len p).flatMap Instr.expand = List.replicate len p := by
  induction len using Nat.strongRecOn with
  | _ len ih =>
    obtain rfl | hpos := Nat.eq_zero_or_pos len
    · simp
    · obtain ⟨hwf, hexp⟩ := ih (len - min len 128) (by omega)
      rw [runsRecords_cons hpos]
      refine ⟨List.forall_mem_cons.2 ⟨(Instr.wellFormed_run_iff ..).2 ⟨by omega, rfl, rfl⟩, hwf⟩, ?_⟩
      rw [List.flatMap_cons, hexp]
      simp only [Instr.expand, Option.toList, List.flatMap_singleton, List.replicate_append_replicate]
      congr 1
      omega

/-- R143: the chunks of a run are the records of `RUNS`. -/
theorem chunkLoop_none (p : Pixel) (fuel rem pos : Nat) (bout : List Byte) (h : rem ≤ fuel) :
    chunkLoop none p fuel rem pos bout = .ok (pos + rem, bout ++ (runsRecords rem p).flatMap encode) := by
  induction fuel generalizing rem pos bout with
  | zero => obtain rfl := Nat.le_zero.1 h; simp [chunkLoop]
  | succ fuel ih =>
    rw [chunkLoop]
    split
    next h0 => subst h0; simp
    next h0 =>
      have hstep := ih (rem - min rem 128) (pos + min rem 128) (bout ++ encode (.wholeRun (min rem 128) p)) (by omega)
      rw [runsRecords_cons (by omega)]
      simp only [maxCount, emitRecord_none true (show 1 ≤ min rem 128 ∧ min rem 128 ≤ 128 by omega)]
      rw [show recordBytes true (min rem 128) [p] = encode (.wholeRun (min rem 128) p) by simp [encode], hstep]
      simp only [List.flatMap_cons, List.append_assoc, Nat.add_assoc]
      rw [Nat.add_sub_cancel' (Nat.min_le_left rem 128)]

theorem take_leading (p : Pixel) (l : List Pixel) : l.take (leading p l) = List.replicate (leading p l) p := by
  induction l with
  | nil => rfl
  | cons q t ih =>
    rw [leading]
    split
    next h => rw [List.take_succ_cons, List.replicate_succ, ih, h]
    next => rfl

/-- R140: the run at `pos` is as many copies of its first pixel. -/
theorem slice_runLen {pin : List Pixel} {pos : Nat} {p : Pixel} (h : pin[pos]? = some p) :
    slice pin pos (runLen pin pos) = List.replicate (runLen pin pos) p := by
  obtain ⟨hlt, rfl⟩ := List.getElem?_eq_some_iff.1 h
  rw [slice, runLen, List.drop_eq_getElem_cons hlt]
  simp only [List.take_succ_cons, List.replicate_succ, take_leading]

theorem slice_length {pin : List Pixel} {pos n : Nat} (h : pos + n ≤ pin.length) : (slice pin pos n).length = n := by
  rw [slice, List.length_take, List.length_drop]; omega

/-- R144: a literal block only grows, to at most 128 pixels, all of them pixels of the input. -/
theorem litLoop_bounds (pin : List Pixel) (fuel len pos : Nat) (hlen : len ≤ 128) (hpos : pos ≤ pin.length) :
    len ≤ litLoop pin fuel len pos ∧ litLoop pin fuel len pos ≤ 128 ∧
      pos + litLoop pin fuel len pos ≤ pin.length + len := by
  induction fuel generalizing len pos with
  | zero => rw [litLoop]; omega
  | succ fuel ih =>
    rw [litLoop]
    split
    next h =>
      obtain ⟨hlt, hin, -⟩ := h
      have := ih (len + 1) (pos + 1) hlt hin
      omega
    next => omega

/-- R146: a round of the loop emits whole records for the next `n` pixels, `n` at least 1. -/
theorem encodeLoop_none_round {pin : List Pixel} {pos : Nat} {p : Pixel} (h : pin[pos]? = some p) :
    ∃ (n : Nat) (rs : List Instr), 1 ≤ n ∧ pos + n ≤ pin.length ∧ (∀ i ∈ rs, i.wellFormed = true) ∧
      rs.flatMap Instr.expand = slice pin pos n ∧ ∀ fuel bout,
        encodeLoop none pin (fuel + 1) pos bout = encodeLoop none pin fuel (pos + n) (bout ++ rs.flatMap encode) := by
  obtain ⟨hlt, -⟩ := List.getElem?_eq_some_iff.1 h
  by_cases hr : threshold ≤ runLen pin pos
  · obtain ⟨hwf, hexp⟩ := runsRecords_spec (runLen pin pos) p
    have hle := runLen_le pin pos
    refine ⟨runLen pin pos, runsRecords (runLen pin pos) p, ?_, by omega, hwf, hexp.trans (slice_runLen h).symm,
      fun fuel bout => ?_⟩
    · rw [threshold] at hr; omega
    · simp only [encodeLoop, h, if_pos hr, chunkLoop_none p _ _ pos bout le_rfl]
  · obtain ⟨hpos, hmax, hin⟩ := litLoop_bounds pin maxCount 1 (pos + 1) (by omega) hlt
    generalize hn : litLoop pin maxCount 1 (pos + 1) = n at hpos hmax hin
    refine ⟨n, [.wholeLit n (slice pin pos n)], hpos, by omega, ?_, by simp [Instr.expand], fun fuel bout => ?_⟩
    · exact List.forall_mem_singleton.2 ((Instr.wellFormed_lit_iff ..).2 ⟨⟨hpos, hmax⟩, slice_length (by omega), rfl⟩)
    · simp only [encodeLoop, h, if_neg hr, hn, emitRecord_none false ⟨hpos, hmax⟩]
      simp [encode]

/-- R146, R148, R152: the loop ends at `N` with no error, having emitted whole records for the pixels from `pos` on. -/
theorem encodeLoop_none_records (pin : List Pixel) (fuel pos : Nat) (hpos : pos ≤ pin.length)
    (hfuel : pin.length < pos + fuel) :
    ∃ rs : List Instr, (∀ i ∈ rs, i.wellFormed = true) ∧ rs.flatMap Instr.expand = pin.drop pos ∧
      ∀ bout, encodeLoop none pin fuel pos bout = ⟨.done, pin.length, bout ++ rs.flatMap encode, 0, 0⟩ := by
  induction fuel generalizing pos with
  | zero => omega
  | succ fuel ih =>
    cases hp : pin[pos]? with
    | none =>
      obtain rfl : pos = pin.length := hpos.antisymm (List.getElem?_eq_none_iff.1 hp)
      exact ⟨[], by simp, by simp, fun bout => by simp [encodeLoop]⟩
    | some p =>
      obtain ⟨n, rs, hn, hle, hwf, hexp, hround⟩ := encodeLoop_none_round hp
      obtain ⟨rs', hwf', hexp', hrest⟩ := ih (pos + n) hle (by omega)
      refine ⟨rs ++ rs', List.forall_mem_append.2 ⟨hwf, hwf'⟩, ?_, fun bout => ?_⟩
      · rw [List.flatMap_append, hexp, hexp', slice, ← List.drop_drop, List.take_append_drop]
      · rw [hround, hrest, List.flatMap_append, List.append_assoc]

theorem encodeAll_none_records (pin : List Pixel) :
    ∃ rs : List Instr, (∀ i ∈ rs, i.wellFormed = true) ∧ rs.flatMap Instr.expand = pin ∧
      encodeAll none pin = ⟨.done, pin.length, rs.flatMap encode, 0, 0⟩ := by
  obtain ⟨rs, hwf, hexp, hrun⟩ := encodeLoop_none_records pin (pin.length + 1) 0 (Nat.zero_le _) (by omega)
  exact ⟨rs, hwf, hexp, hrun []⟩

/-- Settles O24: the decoder's bounds hold round by round, the encoder's record by record. -/
theorem sizeBounds : Obligations.SizeBounds := by
  unfold Obligations.SizeBounds
  refine ⟨fun inp => ?_, fun pin => ?_⟩
  · exact decodeLoop_none_bounds inp (inp.length + 1) 0 [] (Nat.zero_le _) (by omega) (Nat.zero_le _)
  · obtain ⟨rs, hwf, hexp, hrun⟩ := encodeAll_none_records pin
    have hle := flatMap_encode_length_le hwf
    rw [hexp] at hle
    rw [encodeStream, hrun]
    exact ⟨rfl, hle⟩

end Sys2Proof.Machine
end

section
/-! PROOFS of the encoding's family: what a command byte says of its record (R85, R86), and where the bytes of a
record stand (R83, R84). -/

namespace Sys2Proof

/-- R102, R103: a command byte with bit 7 set decodes to RUN, whatever follows it. -/
theorem decode_cons_of_cmdFlag {c : Byte} (h : cmdFlag c = true) (rest : List Byte) :
    ∃ p cut, decode (c :: rest) = .ok (.run (cmdCount c).toNat p cut) := by
  simp only [decode, h, if_true]
  split
  next p ps cut _ => exact ⟨some p, [], rfl⟩
  next cut _ => exact ⟨none, cut, rfl⟩

/-- R102, R104: a command byte with bit 7 clear decodes to LIT, whatever follows it. -/
theorem decode_cons_of_not_cmdFlag {c : Byte} (h : cmdFlag c = false) (rest : List Byte) :
    ∃ ps cut, decode (c :: rest) = .ok (.lit (cmdCount c).toNat ps cut) := by
  simp [decode, h]

/-- Settles O1: bit 7 says which operation, and bits 6 to 0 its count. -/
theorem everyCommandByteNamesOneRecord : Obligations.EveryCommandByteNamesOneRecord := by
  unfold Obligations.EveryCommandByteNamesOneRecord
  intro c rest
  have hlt := c.isLt
  have hcount := cmdCount_toNat c
  cases hf : cmdFlag c with
  | true =>
    obtain ⟨p, cut, hd⟩ := decode_cons_of_cmdFlag hf rest
    rw [cmdFlag_eq, decide_eq_true_iff] at hf
    have hn : (cmdCount c).toNat = c.toNat - 0x7F := by omega
    exact ⟨_, hd, fun h => by omega, fun _ => ⟨p, cut, by rw [hn]⟩⟩
  | false =>
    obtain ⟨ps, cut, hd⟩ := decode_cons_of_not_cmdFlag hf rest
    rw [cmdFlag_eq, decide_eq_false_iff_not] at hf
    have hn : (cmdCount c).toNat = c.toNat + 1 := by omega
    exact ⟨_, hd, fun _ => ⟨ps, cut, by rw [hn]⟩, fun h => by omega⟩

/-- R85: the length, of the command byte that R89 makes. -/
theorem recLen_cmdByte (f : Bool) {n : Nat} (h : 1 ≤ n ∧ n ≤ 128) :
    recLen (cmdByte f n) = if f then 5 else 1 + 4 * n := by
  rw [recLen, cmdFlag_cmdByte f n h, cmdCount_cmdByte f n h]

/-- R80, R85: a whole record starts with a command byte that gives its size. -/
theorem encode_eq_cons_of_wellFormed {i : Instr} (h : i.wellFormed = true) :
    ∃ c t, encode i = c :: t ∧ recLen c = i.size := by
  cases i with
  | run n p cut => exact ⟨_, _, rfl, recLen_cmdByte true ((Instr.wellFormed_run_iff ..).1 h).1⟩
  | lit n ps cut => exact ⟨_, _, rfl, recLen_cmdByte false ((Instr.wellFormed_lit_iff ..).1 h).1⟩

/-- Settles O5: the command byte gives the record's size, and a whole record has as many bytes. -/
theorem commandByteGivesTheRecordLength : Obligations.CommandByteGivesTheRecordLength := by
  unfold Obligations.CommandByteGivesTheRecordLength
  intro i hw
  obtain ⟨c, t, hbytes, hlen⟩ := encode_eq_cons_of_wellFormed hw
  have hsize := encode_length_of_wellFormed hw
  exact ⟨c, t, hbytes, hlen.trans hsize.symm, hsize, by rw [recLen, cmdFlag, cmdCount_toNat]⟩

/-- R89: a command byte as the number that the format writes. -/
theorem cmdByte_eq_ofNat (f : Bool) {n : Nat} (h : 1 ≤ n ∧ n ≤ 128) :
    cmdByte f n = BitVec.ofNat 8 ((if f then 0x80 else 0) + (n - 1)) := by
  apply BitVec.eq_of_toNat_eq
  rw [cmdByte_toNat f n h, BitVec.toNat_ofNat, Nat.mod_eq_of_lt (by split <;> omega)]

/-- R63: channel `k` of pixel `j` is byte `4j + k`. -/
theorem flatMap_pixelBytes_getElem? {ps : List Pixel} {j : Nat} {p : Pixel} (h : ps[j]? = some p) {k : Nat}
    (hk : k < 4) : (ps.flatMap pixelBytes)[4 * j + k]? = (pixelBytes p)[k]? := by
  induction ps generalizing j with
  | nil => cases h
  | cons q ps ih =>
    rw [List.flatMap_cons]
    cases j with
    | zero =>
      obtain rfl : q = p := by simpa using h
      rw [Nat.mul_zero, Nat.zero_add, List.getElem?_append_left (by rwa [pixelBytes_length])]
    | succ j =>
      rw [List.getElem?_append_right (by rw [pixelBytes_length]; omega), pixelBytes_length,
        show 4 * (j + 1) + k - 4 = 4 * j + k by omega, ih (by simpa using h)]

/-- R84: the channels of pixel `j` stand behind the command byte and the `j` pixels before it. -/
theorem encode_wholeLit_getElem? (n : Nat) {ps : List Pixel} {j : Nat} {p : Pixel} (h : ps[j]? = some p) {k : Nat}
    (hk : k < 4) : (encode (.wholeLit n ps))[k + 1 + 4 * j]? = (pixelBytes p)[k]? := by
  rw [encode, recordBytes, List.append_nil, show k + 1 + 4 * j = 4 * j + k + 1 by omega, List.getElem?_cons_succ,
    flatMap_pixelBytes_getElem? h hk]

/-- Settles O6: R83 and R84 read off the encoding, the channels by `encode_wholeLit_getElem?`. -/
theorem recordBytesStandWhereTheFormatSays : Obligations.RecordBytesStandWhereTheFormatSays := by
  unfold Obligations.RecordBytesStandWhereTheFormatSays
  refine ⟨fun n p h1 h128 => ⟨?_, ?_⟩, fun n ps h1 h128 hps => ⟨?_, ?_, fun j p hj => ?_, rfl⟩⟩
  · simp [encode, recordBytes, pixelBytes, cmdByte_eq_ofNat true ⟨h1, h128⟩]
  · simp [Instr.expand]
  · exact encode_length_of_wellFormed ((Instr.wellFormed_lit_iff ..).2 ⟨⟨h1, h128⟩, hps, rfl⟩)
  · simp [encode, recordBytes, cmdByte_eq_ofNat false ⟨h1, h128⟩]
  · have channel {k : Nat} (hk : k < 4) := encode_wholeLit_getElem? n hj hk
    exact ⟨channel (k := 0) (by omega), channel (k := 1) (by omega), channel (k := 2) (by omega),
      channel (k := 3) (by omega)⟩

end Sys2Proof
end

section
/-! PROOFS of the decoder's family, first part: `decode` reads back what `encode` writes, every byte list is whole
records and at most one cut off, and what `Decode` gives on such a stream (R100, R109, R111). -/

namespace Sys2Proof

/-! ## The record at the front of a byte list -/

/-- R63: whole groups in front. -/
theorem pixelGroups_flatMap (ps : List Pixel) (m : Nat) (rest : List Byte) :
    pixelGroups (ps.length + m) (ps.flatMap pixelBytes ++ rest) =
      (ps ++ (pixelGroups m rest).1, (pixelGroups m rest).2) := by
  induction ps with
  | nil => simp
  | cons p ps ih =>
    rw [List.length_cons, Nat.add_right_comm, List.flatMap_cons, List.append_assoc, pixelGroups_cons, ih]
    rfl

/-- R103: fewer than 4 payload bytes. -/
theorem decode_run_cut {c : Byte} (hc : cmdFlag c = true) {cut : List Byte} (hcut : cut.length < 4) :
    decode (c :: cut) = .ok (.run (cmdCount c).toNat none cut) := by
  simp [decode, hc, pixelGroups_short 0 cut hcut]

/-- R103: 4 payload bytes or more. -/
theorem decode_run_whole {c : Byte} (hc : cmdFlag c = true) (p : Pixel) (rest : List Byte) :
    decode (c :: (pixelBytes p ++ rest)) = .ok (.wholeRun (cmdCount c).toNat p) := by
  simp [decode, hc, pixelGroups_cons 0 p rest]

/-- R104: `m` groups are missing. -/
theorem decode_lit {c : Byte} (hc : cmdFlag c = false) {ps : List Pixel} {m : Nat}
    (hn : (cmdCount c).toNat = ps.length + m) (rest : List Byte) :
    decode (c :: (ps.flatMap pixelBytes ++ rest)) =
      .ok (.lit (ps.length + m) (ps ++ (pixelGroups m rest).1) (pixelGroups m rest).2) := by
  simp [decode, hc, hn, pixelGroups_flatMap]

/-- R104: all the groups are there. -/
theorem decode_lit_whole {c : Byte} (hc : cmdFlag c = false) {ps : List Pixel} (hn : (cmdCount c).toNat = ps.length)
    (rest : List Byte) : decode (c :: (ps.flatMap pixelBytes ++ rest)) = .ok (.wholeLit ps.length ps) := by
  rw [decode_lit hc (m := 0) hn]
  simp [pixelGroups]

/-- R104: the input ends before or inside the group after `ps`. -/
theorem decode_lit_cut {c : Byte} (hc : cmdFlag c = false) {ps : List Pixel} {n : Nat}
    (hn : (cmdCount c).toNat = n) (hlt : ps.length < n) {cut : List Byte} (hcut : cut.length < 4) :
    decode (c :: (ps.flatMap pixelBytes ++ cut)) = .ok (.lit n ps cut) := by
  obtain ⟨m, rfl⟩ := Nat.exists_eq_add_of_lt hlt
  rw [Nat.add_assoc] at hn ⊢
  rw [decode_lit hc hn, pixelGroups_short m cut hcut, List.append_nil]

/-- R90: the two forms of a whole record. -/
theorem whole_cases {i : Instr} (h : i.wellFormed = true) :
    (∃ n p, i = .wholeRun n p ∧ 1 ≤ n ∧ n ≤ 128) ∨
      ∃ ps, i = .wholeLit ps.length ps ∧ 1 ≤ ps.length ∧ ps.length ≤ 128 := by
  match i with
  | .run n none cut => simp [Instr.wellFormed] at h
  | .run n (some p) cut =>
    obtain ⟨hn, -, rfl⟩ := (Instr.wellFormed_run_iff ..).1 h
    exact .inl ⟨n, p, rfl, hn⟩
  | .lit n ps cut =>
    obtain ⟨hn, rfl, rfl⟩ := (Instr.wellFormed_lit_iff ..).1 h
    exact .inr ⟨ps, rfl, hn⟩

/-- R103, R104, R108: the two forms of a record that the input's end cuts off. -/
theorem cut_cases {i : Instr} (hf : i.fetchable = true) (hw : i.wellFormed = false) :
    (∃ n cut, i = .run n none cut ∧ (1 ≤ n ∧ n ≤ 128) ∧ cut.length < 4) ∨
      ∃ n ps cut, i = .lit n ps cut ∧ (1 ≤ n ∧ n ≤ 128) ∧ cut.length < 4 ∧ ps.length < n := by
  match i with
  | .run n none cut =>
    obtain ⟨hn, hcut, -⟩ := (Instr.fetchable_run_iff ..).1 hf
    exact .inl ⟨n, cut, rfl, hn, hcut⟩
  | .run n (some p) cut =>
    obtain ⟨hn, -, hcut⟩ := (Instr.fetchable_run_iff ..).1 hf
    rw [(Instr.wellFormed_run_iff ..).2 ⟨hn, rfl, by simpa using hcut⟩] at hw
    cases hw
  | .lit n ps cut =>
    obtain ⟨hn, hcut, hle, hwhole⟩ := (Instr.fetchable_lit_iff ..).1 hf
    refine .inr ⟨n, ps, cut, rfl, hn, hcut, hle.lt_of_ne fun heq => ?_⟩
    rw [(Instr.wellFormed_lit_iff ..).2 ⟨hn, heq, hwhole.resolve_left heq.not_lt⟩] at hw
    cases hw

/-- R80, R102: decoding gives back a whole record whatever follows it, and a record cut off when nothing does. -/
theorem decode_encode_append {i : Instr} (hf : i.fetchable = true) {rest : List Byte}
    (hr : i.wellFormed = false → rest = []) : decode (encode i ++ rest) = .ok i := by
  cases hw : i.wellFormed with
  | true =>
    obtain ⟨n, p, rfl, hn⟩ | ⟨ps, rfl, hn⟩ := whole_cases hw
    · show decode (cmdByte true n :: (pixelBytes p ++ rest)) = _
      rw [decode_run_whole (cmdFlag_cmdByte true n hn), cmdCount_cmdByte true n hn]
    · rw [encode, List.append_nil]
      exact decode_lit_whole (cmdFlag_cmdByte false _ hn) (cmdCount_cmdByte false _ hn) rest
  | false =>
    rw [hr hw, List.append_nil]
    obtain ⟨n, cut, rfl, hn, hcut⟩ | ⟨n, ps, cut, rfl, hn, hcut, hlt⟩ := cut_cases hf hw
    · show decode (cmdByte true n :: cut) = _
      rw [decode_run_cut (cmdFlag_cmdByte true n hn) hcut, cmdCount_cmdByte true n hn]
    · exact decode_lit_cut (cmdFlag_cmdByte false n hn) (cmdCount_cmdByte false n hn) hlt hcut

/-- R80, R102: a record of its own. -/
theorem decode_encode {i : Instr} (hf : i.fetchable = true) : decode (encode i) = .ok i := by
  simpa using decode_encode_append hf (rest := []) fun _ => rfl

theorem fetchable_of_wellFormed {i : Instr} (h : i.wellFormed = true) : i.fetchable = true := by
  cases i with
  | run n p cut => exact Laws.WholeIsFetchable.run n p cut h
  | lit n ps cut => exact Laws.WholeIsFetchable.lit n ps cut h

theorem encode_length_pos (i : Instr) : 1 ≤ (encode i).length := by
  cases i <;> simp [encode, recordBytes]

/-- R103, R104: a whole record yields as many pixels as its count says. -/
theorem expand_length_of_wellFormed {i : Instr} (h : i.wellFormed = true) : i.expand.length = i.count := by
  obtain ⟨n, p, rfl, -⟩ | ⟨ps, rfl, -⟩ := whole_cases h
  · simp [Instr.expand, Instr.count]
  · rfl

/-- R83, R84: a whole record has its command byte and at least one group. -/
theorem four_lt_encode_length {i : Instr} (h : i.wellFormed = true) : 4 < (encode i).length := by
  rw [encode_length_of_wellFormed h]
  obtain ⟨n, p, rfl, -⟩ | ⟨ps, rfl, hn, -⟩ := whole_cases h
  · simp [Instr.size]
  · rw [Instr.size]; omega

/-- R109: what is left of a whole record without its last `d` bytes, 1 to 3 of them: the last group is incomplete. -/
def Instr.shorten (d : Nat) : Instr → Instr
  | .run n p _ => .run n none ((p.toList.flatMap pixelBytes).take (4 - d))
  | .lit n ps _ => .lit n ps.dropLast ((ps.getLast?.toList.flatMap pixelBytes).take (4 - d))

theorem shorten_spec {i : Instr} (hw : i.wellFormed = true) {d : Nat} (h1 : 1 ≤ d) (h3 : d ≤ 3) :
    (i.shorten d).fetchable = true ∧ (i.shorten d).wellFormed = false ∧
      encode (i.shorten d) = (encode i).take ((encode i).length - d) := by
  have hcut (p : Pixel) : ((pixelBytes p).take (4 - d)).length < 4 := by
    rw [List.length_take, pixelBytes_length]; omega
  obtain ⟨n, p, rfl, hn⟩ | ⟨ps, rfl, hn⟩ := whole_cases hw
  · refine ⟨(Instr.fetchable_run_iff ..).2 ⟨hn, ?_, .inl rfl⟩, by simp [Instr.shorten, Instr.wellFormed], ?_⟩
    · simpa using hcut p
    · simp [Instr.shorten, encode, recordBytes, pixelBytes_length, show 4 + 1 - d = 4 - d + 1 by omega]
  · obtain rfl | ⟨qs, p, rfl⟩ := ps.eq_nil_or_concat'
    · simp at hn
    · have henc : encode (.wholeLit (qs ++ [p]).length (qs ++ [p])) =
          recordBytes false (qs ++ [p]).length qs ++ pixelBytes p := by
        simp [encode, recordBytes]
      refine ⟨(Instr.fetchable_lit_iff ..).2 ⟨hn, ?_, ?_, .inl ?_⟩, by simp [Instr.shorten, Instr.wellFormed], ?_⟩
      · simpa using hcut p
      · simp
      · simp
      · rw [henc, List.length_append (bs := pixelBytes p), pixelBytes_length, Nat.add_sub_assoc (by omega),
          List.take_length_add_append]
        simp [Instr.shorten, encode]

/-! ## Streams -/

/-- The bytes of the records `rs` and of a last one, if there is one. -/
def streamBytes (rs : List Instr) (last : Option Instr) : List Byte :=
  rs.flatMap encode ++ last.toList.flatMap encode

/-- The pixels they yield in an unbounded output. -/
def streamPixels (rs : List Instr) (last : Option Instr) : List Pixel :=
  rs.flatMap Instr.expand ++ last.toList.flatMap Instr.expand

/-- R100, R108: whole records, and perhaps one more that the input's end cuts off. -/
structure IsStream (rs : List Instr) (last : Option Instr) : Prop where
  whole : ∀ i ∈ rs, i.wellFormed = true
  cut : ∀ i ∈ last, i.fetchable = true ∧ i.wellFormed = false

@[simp] theorem streamBytes_cons (i : Instr) (rs : List Instr) (last : Option Instr) :
    streamBytes (i :: rs) last = encode i ++ streamBytes rs last := by
  simp [streamBytes]

@[simp] theorem streamPixels_cons (i : Instr) (rs : List Instr) (last : Option Instr) :
    streamPixels (i :: rs) last = i.expand ++ streamPixels rs last := by
  simp [streamPixels]

@[simp] theorem streamBytes_nil_none : streamBytes [] none = [] := rfl

@[simp] theorem streamPixels_nil_none : streamPixels [] none = [] := rfl

@[simp] theorem streamBytes_nil_some (i : Instr) : streamBytes [] (some i) = encode i := by simp [streamBytes]

@[simp] theorem streamPixels_nil_some (i : Instr) : streamPixels [] (some i) = i.expand := by simp [streamPixels]

theorem IsStream.head {i : Instr} {rs : List Instr} {last : Option Instr} (h : IsStream (i :: rs) last) :
    i.wellFormed = true := h.whole i List.mem_cons_self

theorem IsStream.tail {i : Instr} {rs : List Instr} {last : Option Instr} (h : IsStream (i :: rs) last) :
    IsStream rs last := ⟨fun j hj => h.whole j (List.mem_cons_of_mem i hj), h.cut⟩

/-- R100: every byte list is a stream. -/
theorem exists_stream (bs : List Byte) : ∃ rs last, IsStream rs last ∧ bs = streamBytes rs last := by
  induction hl : bs.length using Nat.strongRecOn generalizing bs with
  | _ len ih =>
    cases hd : decode bs with
    | error e => exact ⟨[], none, ⟨by simp, by simp⟩, decode_eq_error hd⟩
    | ok i =>
      obtain ⟨hf, rest, rfl, hr⟩ := decode_eq_ok hd
      cases hw : i.wellFormed with
      | false => exact ⟨[], some i, ⟨by simp, by simp [hf, hw]⟩, by simp [hr hw]⟩
      | true =>
        have hpos := encode_length_pos i
        rw [List.length_append] at hl
        obtain ⟨rs, last, hs, rfl⟩ := ih rest.length (by omega) rest rfl
        exact ⟨i :: rs, last, ⟨List.forall_mem_cons.2 ⟨hw, hs.whole⟩, hs.cut⟩, by simp⟩

/-- Each record has at least its command byte. -/
theorem length_le_streamBytes (rs : List Instr) (last : Option Instr) : rs.length ≤ (streamBytes rs last).length := by
  induction rs with
  | nil => simp
  | cons i rs ih =>
    have hpos := encode_length_pos i
    simp only [List.length_cons, streamBytes_cons, List.length_append]
    omega

end Sys2Proof

namespace Sys2Proof.Machine

/-! ## Decode on a stream -/

/-- R28: the ending of a stream. -/
def endOfStream (last : Option Instr) : EndKind := if last.isSome then .truncated else .clean

/-- R106: the loop takes the whole records one by one, and ends on the one cut off or at the input's end. -/
theorem decodeLoop_none_stream {rs : List Instr} {last : Option Instr} (hs : IsStream rs last) {inp : List Byte}
    {fuel ip : Nat} (out : List Pixel) (hip : ip ≤ inp.length) (hbytes : inp.drop ip = streamBytes rs last)
    (hfuel : rs.length < fuel) :
    decodeLoop none inp fuel ip out =
      ⟨.done, inp.length, out ++ streamPixels rs last, endOfStream last, 0, 0⟩ := by
  induction rs generalizing fuel ip out with
  | nil =>
    obtain ⟨fuel, rfl⟩ := Nat.exists_eq_add_of_lt hfuel
    rw [List.length_nil, Nat.zero_add]
    cases last with
    | none =>
      have hend : ip = inp.length := hip.antisymm (List.drop_eq_nil_iff.1 hbytes)
      rw [decodeLoop_end (e := .endOfInput) (by rw [hbytes]; rfl), hend]
      simp [endOfStream]
    | some i =>
      obtain ⟨hf, hw⟩ := hs.cut i rfl
      have hd : decode (inp.drop ip) = .ok i := by rw [hbytes, streamBytes_nil_some, decode_encode hf]
      rw [decodeLoop_none_record hd, hw]
      simp [endOfStream]
  | cons i rs ih =>
    obtain ⟨fuel, rfl⟩ : ∃ k, fuel = k + 1 := ⟨fuel - 1, by omega⟩
    have hw := hs.head
    have hsize := encode_length_of_wellFormed hw
    rw [streamBytes_cons] at hbytes
    have hlen := congrArg List.length hbytes
    rw [List.length_drop, List.length_append, hsize] at hlen
    have hd : decode (inp.drop ip) = .ok i := by
      rw [hbytes, decode_encode_append (fetchable_of_wellFormed hw) (by simp [hw])]
    rw [decodeLoop_none_record hd, if_pos hw,
      ih hs.tail _ (by omega)
        (by rw [← List.drop_drop, hbytes, ← hsize, List.drop_left]) (by simpa using hfuel)]
    simp

/-- R106: what `Decode` gives on a stream with an unbounded output. -/
theorem decodeAll_none_stream {rs : List Instr} {last : Option Instr} (hs : IsStream rs last) :
    decodeAll none (streamBytes rs last) =
      ⟨.done, (streamBytes rs last).length, streamPixels rs last, endOfStream last, 0, 0⟩ :=
  decodeLoop_none_stream hs [] (Nat.zero_le _) rfl (Nat.lt_succ_of_le (length_le_streamBytes rs last))

theorem decodeAll_none_whole {rs : List Instr} (hs : ∀ i ∈ rs, i.wellFormed = true) :
    decodeAll none (rs.flatMap encode) =
      ⟨.done, (rs.flatMap encode).length, rs.flatMap Instr.expand, .clean, 0, 0⟩ := by
  simpa [streamBytes, streamPixels, endOfStream] using decodeAll_none_stream (last := none) ⟨hs, by simp⟩

theorem decodeAll_none_cut {rs : List Instr} (hs : ∀ i ∈ rs, i.wellFormed = true) {i : Instr}
    (hf : i.fetchable = true) (hw : i.wellFormed = false) :
    decodeAll none (rs.flatMap encode ++ encode i) =
      ⟨.done, (rs.flatMap encode ++ encode i).length, rs.flatMap Instr.expand ++ i.expand, .truncated, 0, 0⟩ := by
  simpa [streamBytes, streamPixels, endOfStream] using
    decodeAll_none_stream (last := some i) ⟨hs, by simp [hf, hw]⟩

/-- Settles O21: every input is a stream, and ends cleanly exactly when it has no record cut off. -/
theorem everyInputDecodes : Obligations.EveryInputDecodes := by
  unfold Obligations.EveryInputDecodes
  intro inp
  obtain ⟨rs, last, hs, rfl⟩ := exists_stream inp
  rw [decodeAll_none_stream hs]
  refine ⟨rfl, rfl, rfl, rfl, by cases last <;> simp [endOfStream], fun h => ?_, ?_⟩
  · cases last with
    | none => exact ⟨rs, hs.whole, by simp [streamBytes]⟩
    | some i => cases h
  · rintro ⟨rs', hwf, hbytes⟩
    have hclean := decodeAll_none_whole hwf
    rw [← hbytes, decodeAll_none_stream hs] at hclean
    exact congrArg Decoded.endKind hclean

theorem flatMap_expand_length {rs : List Instr} (h : ∀ i ∈ rs, i.wellFormed = true) :
    (rs.flatMap Instr.expand).length = (rs.map Instr.count).sum := by
  rw [List.length_flatMap]
  congr 1
  exact List.map_congr_left fun i hi => expand_length_of_wellFormed (h i hi)

/-- Settles O23: the pixels of a stream, counted record by record. -/
theorem sumLaw : Obligations.SumLaw := by
  unfold Obligations.SumLaw
  intro rs hs
  have hsum := flatMap_expand_length hs
  refine ⟨?_, ?_, fun n ps cut hf hw => ?_, fun n cut hf => ?_⟩
  · rw [decodeAll_none_whole hs]
  · rw [decodeAll_none_whole hs, hsum]
  · rw [decodeAll_none_cut hs hf hw, List.length_append, hsum]
    rfl
  · rw [decodeAll_none_cut hs hf (by simp [Instr.wellFormed]), List.length_append, hsum]
    rfl

/-- Settles O22: the shortened stream is the same whole records and the shortened last one. -/
theorem prefixProperty : Obligations.PrefixProperty := by
  unfold Obligations.PrefixProperty
  intro rs last d hs hw h1 h3
  have hsnoc : ∀ i ∈ rs ++ [last], i.wellFormed = true := List.forall_mem_append.2 ⟨hs, by simpa using hw⟩
  have hd : d ≤ (encode last).length := by have := four_lt_encode_length hw; omega
  obtain ⟨hf, hcut, hbytes⟩ := shorten_spec hw h1 h3
  have htake : ((rs ++ [last]).flatMap encode).take (((rs ++ [last]).flatMap encode).length - d) =
      rs.flatMap encode ++ encode (last.shorten d) := by
    simp only [List.flatMap_append, List.flatMap_singleton, List.length_append]
    rw [Nat.add_sub_assoc hd, List.take_length_add_append, hbytes]
  have hlen := congrArg List.length htake
  rw [List.length_take, Nat.min_eq_left (Nat.sub_le _ _)] at hlen
  refine ⟨?_, ?_⟩
  · rw [decodeAll_none_whole hsnoc]
    simp
  · rw [htake, decodeAll_none_cut hs hf hcut, ← hlen]
    cases last <;> rfl

end Sys2Proof.Machine
end

section
/-! PROOFS of the decoder's family, second part: the byte-level steps that make up one record, and their agreement
with the record's meaning on the whole state (R120 to R127, log 4). -/

namespace Sys2Proof

/-- R80, R85: what can stand at a record boundary starts with a command byte that gives its size. -/
theorem encode_eq_cons_of_fetchable {i : Instr} (h : i.fetchable = true) :
    ∃ c t, encode i = c :: t ∧ recLen c = i.size := by
  cases i with
  | run n p cut => exact ⟨_, _, rfl, recLen_cmdByte true ((Instr.fetchable_run_iff ..).1 h).1⟩
  | lit n ps cut => exact ⟨_, _, rfl, recLen_cmdByte false ((Instr.fetchable_lit_iff ..).1 h).1⟩

theorem encode_length_le_size {i : Instr} (h : i.fetchable = true) : (encode i).length ≤ i.size := by
  cases i with
  | run n p cut => exact (Laws.EncodedLength.run n p cut).2 h
  | lit n ps cut => exact (Laws.EncodedLength.lit n ps cut).2 h

end Sys2Proof

namespace Sys2Proof.Machine

/-! ## The input still to be read -/

/-- From index `a` up to the length `l`, the buffer holds exactly the bytes `bs`. -/
structure Memory.Ahead (m : Memory) (l a : Nat) (bs : List Byte) : Prop where
  length : l = a + bs.length
  bytes : ∀ j < bs.length, Buffer.get m (a + j) = bs[j]?

/-- DEC has exactly the bytes `bs` still to read. -/
abbrev Dec.Ahead (d : Dec) (bs : List Byte) : Prop := Memory.Ahead d.IN d.inLen d.ip bs

theorem Memory.ahead_of_range {m : Memory} {l : Nat} {bs : List Byte} (h : Buffer.range m 0 l = some bs) :
    Memory.Ahead m l 0 bs := by
  obtain ⟨rfl, hget⟩ := (Buffer.range_eq_some ..).1 h
  exact ⟨(Nat.zero_add _).symm, hget⟩

/-- R204: an input that is written up to its length. -/
theorem Memory.exists_ahead {m : Memory} {l a : Nat} (h : Buffer.full m l = true) (ha : a ≤ l) :
    ∃ bs, Memory.Ahead m l a bs := by
  obtain ⟨bs, hbs⟩ := Buffer.range_of_full h a (l - a) (by omega)
  obtain ⟨hlen, hget⟩ := (Buffer.range_eq_some ..).1 hbs
  exact ⟨bs, by omega, hlen ▸ hget⟩

namespace Memory.Ahead

variable {m : Memory} {l a : Nat} {b : Byte} {xs ys bs : List Byte}

theorem range_left (h : Memory.Ahead m l a (xs ++ ys)) : Buffer.range m a xs.length = some xs := by
  refine (Buffer.range_eq_some ..).2 ⟨rfl, fun j hj => ?_⟩
  rw [h.bytes j (by rw [List.length_append]; omega), List.getElem?_append_left hj]

theorem right (h : Memory.Ahead m l a (xs ++ ys)) : Memory.Ahead m l (a + xs.length) ys := by
  refine ⟨by rw [h.length, List.length_append, Nat.add_assoc], fun j hj => ?_⟩
  rw [Nat.add_assoc, h.bytes _ (by rw [List.length_append]; omega), List.getElem?_append_right (by omega),
    Nat.add_sub_cancel_left]

theorem tail (h : Memory.Ahead m l a (b :: bs)) : Memory.Ahead m l (a + 1) bs := h.right (xs := [b])

theorem get (h : Memory.Ahead m l a (b :: bs)) : Buffer.get m a = some b := by simpa using h.bytes 0 (by simp)

theorem lt (h : Memory.Ahead m l a (b :: bs)) : a < l := by
  have := h.length
  rw [List.length_cons] at this
  omega

theorem at_end (h : Memory.Ahead m l a []) : a = l := h.length.symm

end Memory.Ahead

/-! ## Fetching -/

/-- R102: the decoder fetches what the bytes left decode to. -/
theorem recordCmd_of_ahead {s : State} {bs : List Byte} (h : s.dec.Ahead bs)
    {i : Instr} (hd : decode bs = .ok i) : recordCmd s = exec i s := by
  obtain ⟨hf, rest, rfl, hr⟩ := decode_eq_ok hd
  obtain ⟨c, t, hct, hsize⟩ := encode_eq_cons_of_fetchable hf
  have hleft : s.dec.inLen - s.dec.ip = (encode i).length + rest.length := by
    rw [h.length, List.length_append]; omega
  have hmin : min (recLen c) (s.dec.inLen - s.dec.ip) = (encode i).length := by
    rw [hsize, hleft]
    cases hw : i.wellFormed with
    | true => rw [encode_length_of_wellFormed hw]; omega
    | false => simpa [hr hw] using encode_length_le_size hf
  have hpos := encode_length_pos i
  have hrec : s.dec.recordAt = .ok (encode i) := by
    rw [hct]
    refine s.dec.recordAt_of_range c t (by omega) ?_
    rw [hmin, ← hct]
    exact h.range_left
  rw [recordCmd, s.dec.fetch_record _ i (by omega) hrec (decode_encode hf)]

theorem recordCmd_end {s : State} (h : s.dec.ip = s.dec.inLen) :
    recordCmd s = .next { s with dec := s.dec.endClean } := by
  rw [recordCmd, s.dec.fetch_end h]

theorem decRecordMove_cmd {s : State} (h : s.dec.dmode = .cmd) : decRecordMove s = recordCmd s := by
  rw [decRecordMove, h]

/-! ## One byte-level step -/

theorem withNextByte_of_ahead {s : State} {b : Byte} {bs : List Byte}
    (h : s.dec.Ahead (b :: bs)) (go : Byte → State) :
    withNextByte s go = .next (go b) := by
  obtain ⟨b', -, hb, hgo⟩ | ⟨-, hb, -⟩ | ⟨hle, -⟩ := withNextByte_cases s go
  · rw [h.get] at hb
    cases hb
    exact hgo
  · rw [h.get] at hb
    cases hb
  · exact absurd h.lt (by omega)

theorem decByteMove_cmd_end {s : State} (hm : s.dec.dmode = .cmd) (h : s.dec.ip = s.dec.inLen) :
    decByteMove s = .next { s with dec := s.dec.endClean } := by
  simp [decByteMove, hm, byteCmd, h]

/-- R122: the command byte is read. -/
theorem decByteMove_cmd {s : State} (hm : s.dec.dmode = .cmd) {f : Bool} {n : Nat} (hn : 1 ≤ n ∧ n ≤ 128)
    {bs : List Byte} (h : s.dec.Ahead (cmdByte f n :: bs)) :
    decByteMove s = .next { s with dec :=
      { s.dec.latch f n with ip := s.dec.ip + 1, dmode := if f then .runpix else .litpix } } := by
  have hcount : cmdCount (cmdByte f n) = BitVec.ofNat 8 n := by
    apply BitVec.eq_of_toNat_eq
    rw [cmdCount_cmdByte f n hn, BitVec.toNat_ofNat, Nat.mod_eq_of_lt (by omega)]
  simp only [decByteMove, hm, byteCmd, if_neg h.lt.ne, withNextByte_of_ahead h, hcount, cmdFlag_cmdByte f n hn,
    Dec.latch]

/-- DEC is inside a group of four bytes. -/
def Dec.inGroup (d : Dec) : Prop := d.dmode = .runpix ∨ d.dmode = .litpix

/-- R123, R124: the input ends inside a record. -/
theorem decByteMove_cut_end {s : State} (hm : s.dec.inGroup) (h : s.dec.ip = s.dec.inLen) :
    decByteMove s = .next { s with dec := { s.dec with endKind := .truncated, dmode := .done } } := by
  obtain hm | hm := hm <;> simp [decByteMove, hm, byteRunpix, byteLitpix, h]

/-- R123, R124: one of the first three bytes of a group. -/
theorem decByteMove_lane {s : State} (hm : s.dec.inGroup) (hk : s.dec.k ≠ 3) {b : Byte} {bs : List Byte}
    (h : s.dec.Ahead (b :: bs)) :
    decByteMove s = .next { s with dec := { s.dec with
      pixbuf := setLane s.dec.pixbuf s.dec.k b, ip := s.dec.ip + 1, k := s.dec.k + 1 } } := by
  obtain hm | hm := hm <;>
    simp only [decByteMove, hm, byteRunpix, byteLitpix, if_neg h.lt.ne, withNextByte_of_ahead h, if_neg hk]

/-- R123: the last byte of a RUN's group. -/
theorem decByteMove_runpix_last {s : State} (hm : s.dec.dmode = .runpix) (hk : s.dec.k = 3) {b : Byte}
    {bs : List Byte} (h : s.dec.Ahead (b :: bs)) :
    decByteMove s = .next { s with dec := { s.dec with
      pixbuf := { s.dec.pixbuf with a := b }, ip := s.dec.ip + 1, k := 0, dmode := .expand } } := by
  simp [decByteMove, hm, byteRunpix, h.lt.ne, withNextByte_of_ahead h, hk, setLane]

/-- R124, R127: the last byte of a LIT's group, whose pixel does not fit. -/
theorem decByteMove_litpix_last_over {s : State} (hm : s.dec.dmode = .litpix) (hk : s.dec.k = 3) {b : Byte}
    {bs : List Byte} (h : s.dec.Ahead (b :: bs))
    (he : emit s.cfg.outCapPix { s.dec.pixbuf with a := b } s.dec.OUT = none) :
    decByteMove s = .next (State.take .dec (.capacity (s.dec.ip + 1)) s) := by
  simp [decByteMove, hm, byteLitpix, h.lt.ne, withNextByte_of_ahead h, hk, he]

/-- R124: the last byte of a LIT's group, whose pixel fits. -/
theorem decByteMove_litpix_last {s : State} (hm : s.dec.dmode = .litpix) (hk : s.dec.k = 3) {b : Byte}
    {bs : List Byte} (h : s.dec.Ahead (b :: bs)) {out : List Pixel}
    (he : emit s.cfg.outCapPix { s.dec.pixbuf with a := b } s.dec.OUT = some out) :
    decByteMove s = .next { s with dec := { s.dec with
      pixbuf := { s.dec.pixbuf with a := b }, ip := s.dec.ip + 1, OUT := out, k := 0, rem := s.dec.rem - 1,
      dmode := if s.dec.rem = 1 then .cmd else .litpix } } := by
  simp [decByteMove, hm, byteLitpix, h.lt.ne, withNextByte_of_ahead h, hk, he, setLane]

/-- R125, R127: a copy that does not fit. -/
theorem decByteMove_expand_over {s : State} (hm : s.dec.dmode = .expand)
    (he : emit s.cfg.outCapPix s.dec.pixbuf s.dec.OUT = none) :
    decByteMove s = .next (State.take .dec (.capacity s.dec.ip) s) := by
  simp [decByteMove, hm, byteExpand, he]

/-- R125: a copy that fits. -/
theorem decByteMove_expand {s : State} (hm : s.dec.dmode = .expand) {out : List Pixel}
    (he : emit s.cfg.outCapPix s.dec.pixbuf s.dec.OUT = some out) :
    decByteMove s = .next { s with dec := { s.dec with
      OUT := out, rem := s.dec.rem - 1, dmode := if s.dec.rem = 1 then .cmd else .expand } } := by
  simp [decByteMove, hm, byteExpand, he]

/-! ## The bytes of one group -/

/-- R121: one more of the first three lanes. -/
theorem fillLanes_append_singleton (p : Pixel) (bs : List Byte) (b : Byte) (h : bs.length < 3) :
    fillLanes p (bs ++ [b]) = setLane (fillLanes p bs) (BitVec.ofNat 2 bs.length) b := by
  match bs, h with
  | [], _ => rfl
  | [_], _ => rfl
  | [_, _], _ => rfl

theorem moves_one {f : State → Host.Outcome State Fault Refusal} {s t : State} (h : f s = .next t) :
    moves f 1 s = .next t := by
  rw [moves_succ h, moves_zero]

/-- One move more. -/
theorem moves_snoc {f : State → Host.Outcome State Fault Refusal} {j : Nat} {s t u : State}
    (h : moves f j s = .next t) (h' : f t = .next u) : moves f (j + 1) s = .next u :=
  (moves_add h 1).trans (moves_one h')

/-- DEC after the bytes `bs`, at most three, of a group. -/
def Dec.fill (bs : List Byte) (d : Dec) : Dec :=
  { d with pixbuf := fillLanes d.pixbuf bs, ip := d.ip + bs.length, k := BitVec.ofNat 2 bs.length }

/-- R123, R124: up to three bytes of a group. -/
theorem moves_lanes {s : State} (hm : s.dec.inGroup) (hk : s.dec.k = 0) {bs rest : List Byte} (hlt : bs.length < 4)
    (h : s.dec.Ahead (bs ++ rest)) :
    moves decByteMove bs.length s = .next { s with dec := s.dec.fill bs } := by
  induction bs using List.reverseRecOn generalizing rest with
  | nil =>
    have hfill : s.dec.fill [] = s.dec := by
      rw [Dec.fill, List.length_nil, show BitVec.ofNat 2 0 = s.dec.k from hk.symm]
      rfl
    rw [hfill]
    rfl
  | append_singleton bs b ih =>
    rw [List.length_append, List.length_singleton] at hlt ⊢
    rw [List.append_assoc] at h
    have hk3 : BitVec.ofNat 2 bs.length ≠ 3 := fun heq => by
      have hnat : bs.length % 4 = 3 := (BitVec.toNat_ofNat _ _).symm.trans (congrArg BitVec.toNat heq)
      omega
    have hlane := decByteMove_lane (s := { s with dec := s.dec.fill bs }) hm hk3 h.right
    refine (moves_snoc (ih (by omega) h) hlane).trans ?_
    simp [Dec.fill, fillLanes_append_singleton _ _ _ (show bs.length < 3 by omega), BitVec.ofNat_add, Nat.add_assoc]

/-- R123: the whole group of a RUN. -/
theorem moves_runpix {s : State} (hm : s.dec.dmode = .runpix) (hk : s.dec.k = 0) {p : Pixel} {rest : List Byte}
    (h : s.dec.Ahead (pixelBytes p ++ rest)) :
    moves decByteMove 4 s = .next { s with dec := { s.dec with
      pixbuf := p, ip := s.dec.ip + 4, dmode := .expand } } := by
  have h3 : s.dec.Ahead ([p.r, p.g, p.b] ++ p.a :: rest) := h
  have hlast := decByteMove_runpix_last
    (s := { s with dec := s.dec.fill [p.r, p.g, p.b] }) hm rfl h3.right
  refine (moves_snoc (moves_lanes (.inl hm) hk (by simp) h3) hlast).trans ?_
  simp [Dec.fill, fillLanes, hk]

/-- R124, R127: the whole group of a LIT, whose pixel does not fit. -/
theorem moves_litpix_over {s : State} (hm : s.dec.dmode = .litpix) (hk : s.dec.k = 0) {p : Pixel} {rest : List Byte}
    (h : s.dec.Ahead (pixelBytes p ++ rest))
    (he : emit s.cfg.outCapPix p s.dec.OUT = none) :
    moves decByteMove 4 s = .next (State.take .dec (.capacity (s.dec.ip + 4))
      { s with dec := { s.dec with pixbuf := { p with a := s.dec.pixbuf.a }, k := 3 } }) := by
  have h3 : s.dec.Ahead ([p.r, p.g, p.b] ++ p.a :: rest) := h
  have hlast := decByteMove_litpix_last_over
    (s := { s with dec := s.dec.fill [p.r, p.g, p.b] }) hm rfl h3.right he
  refine (moves_snoc (moves_lanes (.inr hm) hk (by simp) h3) hlast).trans ?_
  rfl

/-- R124: the whole group of a LIT, whose pixel fits. -/
theorem moves_litpix {s : State} (hm : s.dec.dmode = .litpix) (hk : s.dec.k = 0) {p : Pixel} {rest : List Byte}
    (h : s.dec.Ahead (pixelBytes p ++ rest)) {out : List Pixel}
    (he : emit s.cfg.outCapPix p s.dec.OUT = some out) :
    moves decByteMove 4 s = .next { s with dec := { s.dec with
      pixbuf := p, ip := s.dec.ip + 4, OUT := out, rem := s.dec.rem - 1,
      dmode := if s.dec.rem = 1 then .cmd else .litpix } } := by
  have h3 : s.dec.Ahead ([p.r, p.g, p.b] ++ p.a :: rest) := h
  have hlast := decByteMove_litpix_last
    (s := { s with dec := s.dec.fill [p.r, p.g, p.b] }) hm rfl h3.right he
  refine (moves_snoc (moves_lanes (.inr hm) hk (by simp) h3) hlast).trans ?_
  simp [Dec.fill, fillLanes, hk]

/-! ## The pixels of one record -/

/-- DEC at index `a` with `n` pixels of its record to come: in `mode` while there are any, in CMD after the last. -/
def Dec.inside (mode : DMode) (a n : Nat) (d : Dec) : Dec :=
  { d with ip := a, dmode := if n = 0 then .cmd else mode }

/-- R124, R125: the last pixel of a record is the one at `rem = 1`. -/
theorem rem_eq_one_iff {n : Nat} (h : n + 1 ≤ 128) : BitVec.ofNat 8 (n + 1) = 1#8 ↔ n = 0 := by
  rw [← BitVec.toNat_inj, BitVec.toNat_ofNat, Nat.mod_eq_of_lt (by omega), BitVec.toNat_one (by omega)]
  omega

theorem rem_sub_one (n : Nat) : BitVec.ofNat 8 (n + 1) - 1 = BitVec.ofNat 8 n := by
  simp [BitVec.ofNat_add]

/-- R125, R127: the copies of a RUN, one step each. -/
theorem moves_copies (s : State) (a n : Nat) (d : Dec) (hn : n ≤ 128) (hrem : d.rem = BitVec.ofNat 8 n) :
    (∀ d', d.emitCopies s.cfg.outCapPix d.pixbuf n = (d', true) →
      moves decByteMove n { s with dec := d.inside .expand a n } = .next { s with dec := d'.inside .expand a 0 }) ∧
    (∀ d', d.emitCopies s.cfg.outCapPix d.pixbuf n = (d', false) →
      ∃ k, moves decByteMove k { s with dec := d.inside .expand a n } =
        .next (State.take .dec (.capacity a) { s with dec := d' })) := by
  induction n generalizing d with
  | zero =>
    refine ⟨fun d' h => ?_, nofun⟩
    cases h
    rfl
  | succ n ih =>
    rw [Dec.emitCopies]
    cases he : emit s.cfg.outCapPix d.pixbuf d.OUT with
    | none =>
      refine ⟨nofun, fun d' h => ⟨1, ?_⟩⟩
      cases h
      exact moves_one (decByteMove_expand_over (s := { s with dec := d.inside .expand a (n + 1) }) rfl he)
    | some out =>
      have hstep : decByteMove { s with dec := d.inside .expand a (n + 1) } =
          .next { s with dec := { d with OUT := out, rem := d.rem - 1 }.inside .expand a n } := by
        rw [decByteMove_expand (s := { s with dec := d.inside .expand a (n + 1) }) rfl he]
        simp [Dec.inside, hrem, rem_eq_one_iff hn]
      obtain ⟨hfit, hover⟩ := ih { d with OUT := out, rem := d.rem - 1 } (by omega) (by simp only [hrem, rem_sub_one])
      refine ⟨fun d' h => by rw [moves_succ hstep]; exact hfit d' h, fun d' h => ?_⟩
      obtain ⟨k, hk⟩ := hover d' h
      exact ⟨k + 1, by rw [moves_succ hstep]; exact hk⟩

/-- R124, R127: the complete groups of a LIT of which `n` pixels are to come, four steps each. -/
theorem moves_groups (s : State) (ps : List Pixel) (a n : Nat) (d : Dec) (hps : ps.length ≤ n) (hn : n ≤ 128)
    (hrem : d.rem = BitVec.ofNat 8 n) (hk : d.k = 0) {rest : List Byte}
    (h : Memory.Ahead d.IN d.inLen a (ps.flatMap pixelBytes ++ rest)) :
    (∀ d', d.emitGroups s.cfg.outCapPix ps a = (d', none) →
      moves decByteMove (4 * ps.length) { s with dec := d.inside .litpix a n } =
        .next { s with dec := d'.inside .litpix (a + 4 * ps.length) (n - ps.length) } ∧ d'.k = 0) ∧
    (∀ d' e, d.emitGroups s.cfg.outCapPix ps a = (d', some e) →
      ∃ k, moves decByteMove k { s with dec := d.inside .litpix a n } =
        .next (State.take .dec (.capacity e) { s with dec := d' })) := by
  induction ps generalizing a n d with
  | nil =>
    refine ⟨fun d' h' => ?_, fun d' e h' => nomatch congrArg Prod.snd h'⟩
    cases h'
    exact ⟨rfl, hk⟩
  | cons p ps ih =>
    obtain ⟨n, rfl⟩ : ∃ m, n = m + 1 := ⟨n - 1, by rw [List.length_cons] at hps; omega⟩
    rw [List.flatMap_cons, List.append_assoc] at h
    rw [Dec.emitGroups]
    cases he : emit s.cfg.outCapPix p d.OUT with
    | none =>
      refine ⟨fun d' h' => (nomatch congrArg Prod.snd h'), fun d' e h' => ⟨4, ?_⟩⟩
      cases h'
      exact moves_litpix_over (s := { s with dec := d.inside .litpix a (n + 1) }) rfl hk h he
    | some out =>
      have hstep : moves decByteMove 4 { s with dec := d.inside .litpix a (n + 1) } =
          .next { s with dec :=
            { d with OUT := out, rem := d.rem - 1, pixbuf := p }.inside .litpix (a + 4) n } := by
        rw [moves_litpix (s := { s with dec := d.inside .litpix a (n + 1) }) rfl hk h he]
        simp [Dec.inside, hrem, rem_eq_one_iff hn]
      obtain ⟨hfit, hover⟩ := ih (a + 4) n { d with OUT := out, rem := d.rem - 1, pixbuf := p }
        (by simpa using hps) (by omega) (by simp only [hrem, rem_sub_one]) hk h.right
      refine ⟨fun d' h' => ?_, fun d' e h' => ?_⟩
      · obtain ⟨hmoves, hk'⟩ := hfit d' h'
        refine ⟨?_, hk'⟩
        rw [List.length_cons, show 4 * (ps.length + 1) = 4 + 4 * ps.length by omega, moves_add hstep, hmoves,
          Nat.add_sub_add_right, Nat.add_assoc]
      · obtain ⟨k, hmoves⟩ := hover d' e h'
        exact ⟨4 + k, by rw [moves_add hstep, hmoves]⟩

end Sys2Proof.Machine
end

section
/-! PROOFS of the decoder's family, third part: a record's byte-level steps end in what `exec` answers. -/

namespace Sys2Proof.Machine

/-- R122, R123: DEC when it has read the pixel of a RUN. -/
def Dec.withRunPixel (n : Nat) (p : Pixel) (d : Dec) : Dec := { d.latch true n with pixbuf := p }

theorem Dec.emitCopies_same {cap : Option Nat} {p : Pixel} {n : Nat} {d d' : Dec} {b : Bool}
    (h : d.emitCopies cap p n = (d', b)) : d.SameButOutput d' := by
  have hsame := (d.emitCopies_frame cap p n).1
  rwa [h] at hsame

theorem Dec.emitGroups_same {cap : Option Nat} {ps : List Pixel} {a : Nat} {d d' : Dec} {o : Option Nat}
    (h : d.emitGroups cap ps a = (d', o)) : d.SameButOutput d' := by
  have hsame := (d.emitGroups_frame cap ps a).1
  rwa [h] at hsame

/-! ## What `exec` answers, by what was emitted -/

theorem execRun_whole {n : Nat} {p : Pixel} (cut : List Byte) {s : State} {d' : Dec}
    (h : (s.dec.withRunPixel n p).emitCopies s.cfg.outCapPix p n = (d', true)) :
    exec (.run n (some p) cut) s = .next { s with dec := { d' with ip := s.dec.ip + 5 } } := by
  rw [Dec.withRunPixel] at h
  simp only [exec, execRun, h]

theorem execRun_over {n : Nat} {p : Pixel} (cut : List Byte) {s : State} {d' : Dec}
    (h : (s.dec.withRunPixel n p).emitCopies s.cfg.outCapPix p n = (d', false)) :
    exec (.run n (some p) cut) s = .next (State.take .dec (.capacity (s.dec.ip + 5)) { s with dec := d' }) := by
  rw [Dec.withRunPixel] at h
  simp only [exec, execRun, h]

theorem execRun_none (n : Nat) (cut : List Byte) (s : State) :
    exec (.run n none cut) s = .next { s with dec := (s.dec.latch true n).endTruncated cut } := rfl

theorem execLit_over {n : Nat} {ps : List Pixel} (cut : List Byte) {s : State} {d' : Dec} {e : Nat}
    (h : (s.dec.latch false n).emitGroups s.cfg.outCapPix ps (s.dec.ip + 1) = (d', some e)) :
    exec (.lit n ps cut) s = .next (State.take .dec (.capacity e) { s with dec := d' }) := by
  simp [exec, execLit, h]

theorem execLit_cut {n : Nat} {ps : List Pixel} (cut : List Byte) {s : State} {d' : Dec} (hlt : ps.length < n)
    (h : (s.dec.latch false n).emitGroups s.cfg.outCapPix ps (s.dec.ip + 1) = (d', none)) :
    exec (.lit n ps cut) s = .next { s with dec := d'.endTruncated cut } := by
  simp [exec, execLit, h, hlt]

theorem execLit_whole {n : Nat} {ps : List Pixel} (cut : List Byte) {s : State} {d' : Dec} (hge : n ≤ ps.length)
    (h : (s.dec.latch false n).emitGroups s.cfg.outCapPix ps (s.dec.ip + 1) = (d', none)) :
    exec (.lit n ps cut) s = .next { s with dec := { d' with ip := s.dec.ip + 1 + 4 * n } } := by
  simp [exec, execLit, h, hge.not_gt]

/-- R27: between records DEC is in CMD. -/
theorem Dec.inside_zero {d : Dec} (h : d.dmode = .cmd) (mode : DMode) (a : Nat) :
    d.inside mode a 0 = { d with ip := a } := by
  rw [Dec.inside, if_pos rfl, ← h]

/-! ## RUN -/

section

variable {s : State} (hm : s.dec.dmode = .cmd) {n : Nat} (hn : 1 ≤ n ∧ n ≤ 128)
include hm hn

/-- R103: the command byte and the incomplete group are read, and the next step ends the conversion. -/
theorem moves_run_cut {cut : List Byte} (hcut : cut.length < 4)
    (h : s.dec.Ahead (encode (.run n none cut))) :
    ∃ u, moves decByteMove (encode (.run n none cut)).length s = .next u ∧ u.dec.busy = true ∧
      decByteMove u = exec (.run n none cut) s := by
  replace h : s.dec.Ahead (cmdByte true n :: (cut ++ [])) := by
    simpa [encode, recordBytes] using h
  have hlanes := moves_lanes
    (s := { s with dec := { s.dec.latch true n with ip := s.dec.ip + 1, dmode := .runpix } })
    (.inl rfl) rfl hcut h.tail
  have hend : s.dec.ip + 1 + cut.length = s.dec.inLen := h.tail.right.at_end
  refine ⟨_, (moves_succ (decByteMove_cmd hm hn h) _).trans hlanes, rfl, ?_⟩
  rw [decByteMove_cut_end (.inl rfl) hend, execRun_none]
  simp only [Dec.fill, Dec.endTruncated, Dec.latch, hend]

/-- R122, R123: the command byte and the pixel of a RUN. -/
theorem moves_run_pixel {p : Pixel} {rest : List Byte}
    (h : s.dec.Ahead (encode (.wholeRun n p) ++ rest)) :
    moves decByteMove 5 s =
      .next { s with dec := (s.dec.withRunPixel n p).inside .expand (s.dec.ip + 5) n } := by
  replace h : s.dec.Ahead (cmdByte true n :: (pixelBytes p ++ rest)) := h
  refine (moves_succ (decByteMove_cmd hm hn h) 4).trans ((moves_runpix
    (s := { s with dec := { s.dec.latch true n with ip := s.dec.ip + 1, dmode := .runpix } }) rfl rfl h.tail).trans ?_)
  simp [Dec.inside, Dec.withRunPixel, Nat.add_assoc, show n ≠ 0 by omega]

/-- R125: a RUN whose copies fit takes a step for each byte and one for each copy. -/
theorem moves_run_whole {p : Pixel} {rest : List Byte}
    (h : s.dec.Ahead (encode (.wholeRun n p) ++ rest)) {d' : Dec}
    (he : (s.dec.withRunPixel n p).emitCopies s.cfg.outCapPix p n = (d', true)) :
    moves decByteMove (5 + n) s = exec (.wholeRun n p) s := by
  have hcopies := (moves_copies s (s.dec.ip + 5) n (s.dec.withRunPixel n p) hn.2 rfl).1 d' he
  have hcmd : d'.dmode = .cmd := (Dec.emitCopies_same he).dmode.trans hm
  rw [moves_add (moves_run_pixel hm hn h), hcopies, execRun_whole [] he, Dec.inside_zero hcmd]

/-- R127: a RUN whose copies do not all fit. -/
theorem moves_run_over {p : Pixel} {rest : List Byte}
    (h : s.dec.Ahead (encode (.wholeRun n p) ++ rest)) {d' : Dec}
    (he : (s.dec.withRunPixel n p).emitCopies s.cfg.outCapPix p n = (d', false)) :
    ∃ k, 1 ≤ k ∧ moves decByteMove k s = exec (.wholeRun n p) s := by
  obtain ⟨k, hk⟩ := (moves_copies s (s.dec.ip + 5) n (s.dec.withRunPixel n p) hn.2 rfl).2 d' he
  exact ⟨5 + k, by omega, by rw [moves_add (moves_run_pixel hm hn h), hk, execRun_over [] he]⟩

/-! ## LIT -/

/-- R122: the command byte of a LIT. -/
theorem decByteMove_cmd_lit {bs : List Byte}
    (h : s.dec.Ahead (cmdByte false n :: bs)) :
    decByteMove s = .next { s with dec := (s.dec.latch false n).inside .litpix (s.dec.ip + 1) n } := by
  rw [decByteMove_cmd hm hn h]
  simp [Dec.inside, show n ≠ 0 by omega]

end

theorem Dec.busy_of_litpix {d : Dec} (h : d.dmode = .litpix) : d.busy = true := by rw [Dec.busy, h]

section

variable {s : State} (hm : s.dec.dmode = .cmd) {n : Nat} {ps : List Pixel}
include hm

/-- R124: a LIT whose complete groups fit takes a step for each of their bytes. -/
theorem moves_lit_groups (hn : 1 ≤ n ∧ n ≤ 128) (hps : ps.length ≤ n) {rest : List Byte}
    (h : s.dec.Ahead (recordBytes false n ps ++ rest)) {d' : Dec}
    (he : (s.dec.latch false n).emitGroups s.cfg.outCapPix ps (s.dec.ip + 1) = (d', none)) :
    moves decByteMove (1 + 4 * ps.length) s =
      .next { s with dec := d'.inside .litpix (s.dec.ip + 1 + 4 * ps.length) (n - ps.length) } ∧ d'.k = 0 := by
  obtain ⟨hmoves, hk⟩ := (moves_groups s ps (s.dec.ip + 1) n (s.dec.latch false n) hps hn.2 rfl rfl h.tail).1 d' he
  exact ⟨by rw [moves_add (moves_one (decByteMove_cmd_lit hm hn h)), hmoves], hk⟩

/-- R127: a LIT of which a complete group does not fit. -/
theorem moves_lit_over (hn : 1 ≤ n ∧ n ≤ 128) (hps : ps.length ≤ n) {cut rest : List Byte}
    (h : s.dec.Ahead (recordBytes false n ps ++ rest)) {d' : Dec} {e : Nat}
    (he : (s.dec.latch false n).emitGroups s.cfg.outCapPix ps (s.dec.ip + 1) = (d', some e)) :
    ∃ k, 1 ≤ k ∧ moves decByteMove k s = exec (.lit n ps cut) s := by
  obtain ⟨k, hk⟩ := (moves_groups s ps (s.dec.ip + 1) n (s.dec.latch false n) hps hn.2 rfl rfl h.tail).2 d' e he
  exact ⟨1 + k, by omega, by rw [moves_add (moves_one (decByteMove_cmd_lit hm hn h)), hk, execLit_over cut he]⟩

/-- R104: a whole LIT. -/
theorem moves_lit_whole (hn : 1 ≤ ps.length ∧ ps.length ≤ 128) {rest : List Byte}
    (h : s.dec.Ahead (encode (.wholeLit ps.length ps) ++ rest)) {d' : Dec}
    (he : (s.dec.latch false ps.length).emitGroups s.cfg.outCapPix ps (s.dec.ip + 1) = (d', none)) :
    moves decByteMove (1 + 4 * ps.length) s = exec (.wholeLit ps.length ps) s := by
  rw [encode, List.append_nil] at h
  rw [(moves_lit_groups hm hn le_rfl h he).1, Nat.sub_self,
    Dec.inside_zero ((Dec.emitGroups_same he).dmode.trans hm), execLit_whole [] le_rfl he]

/-- R104: the groups that are there and the incomplete one are read, and the next step ends the conversion. -/
theorem moves_lit_cut (hn : 1 ≤ n ∧ n ≤ 128) (hlt : ps.length < n) {cut : List Byte} (hcut : cut.length < 4)
    (h : s.dec.Ahead (encode (.lit n ps cut))) {d' : Dec}
    (he : (s.dec.latch false n).emitGroups s.cfg.outCapPix ps (s.dec.ip + 1) = (d', none)) :
    ∃ u, moves decByteMove (encode (.lit n ps cut)).length s = .next u ∧ u.dec.busy = true ∧
      decByteMove u = exec (.lit n ps cut) s := by
  have hsame := Dec.emitGroups_same he
  obtain ⟨hgroups, hk⟩ := moves_lit_groups hm hn hlt.le h he
  have hmode : (d'.inside .litpix (s.dec.ip + 1 + 4 * ps.length) (n - ps.length)).dmode = .litpix :=
    if_neg (by omega)
  have hleft : Memory.Ahead d'.IN d'.inLen (s.dec.ip + 1 + 4 * ps.length) (cut ++ []) := by
    rw [hsame.IN, hsame.inLen, List.append_nil]
    simpa [recordBytes_length, Nat.add_assoc] using h.right
  have hlanes := moves_lanes
    (s := { s with dec := d'.inside .litpix (s.dec.ip + 1 + 4 * ps.length) (n - ps.length) })
    (.inr hmode) hk hcut hleft
  have hend := hleft.right.at_end
  refine ⟨_, by rw [encode, List.length_append, recordBytes_length, moves_add hgroups, hlanes], ?_, ?_⟩
  · exact Dec.busy_of_litpix hmode
  · rw [decByteMove_cut_end (.inr hmode) hend, execLit_cut cut hlt he]
    simp only [Dec.fill, Dec.inside, Dec.endTruncated, hend]

end

end Sys2Proof.Machine
end

section
/-! PROOFS of the decoder's family, fourth part: one record-level step as byte-level steps (O19), what a record
leaves of the registers that R128 compares, and a record as it stands in IN (O10, O11). -/

namespace Sys2Proof.Machine

/-! ## A record's byte-level steps -/

/-- Some byte-level steps, one at least, answer what the record's meaning answers. -/
theorem exists_moves_record {s : State} (hm : s.dec.dmode = .cmd) {i : Instr} (hf : i.fetchable = true)
    {rest : List Byte} (hr : i.wellFormed = false → rest = [])
    (h : s.dec.Ahead (encode i ++ rest)) :
    ∃ k, 1 ≤ k ∧ moves decByteMove k s = exec i s := by
  cases hw : i.wellFormed with
  | true =>
    obtain ⟨n, p, rfl, hn⟩ | ⟨ps, rfl, hn⟩ := whole_cases hw
    · cases he : (s.dec.withRunPixel n p).emitCopies s.cfg.outCapPix p n with
      | mk d' fit =>
        cases fit with
        | true => exact ⟨5 + n, by omega, moves_run_whole hm hn h he⟩
        | false => exact moves_run_over hm hn h he
    · cases he : (s.dec.latch false ps.length).emitGroups s.cfg.outCapPix ps (s.dec.ip + 1) with
      | mk d' missed =>
        cases missed with
        | none => exact ⟨_, by omega, moves_lit_whole hm hn h he⟩
        | some e => exact moves_lit_over hm hn le_rfl (by simpa [encode] using h) he
  | false =>
    rw [hr hw, List.append_nil] at h
    obtain ⟨n, cut, rfl, hn, hcut⟩ | ⟨n, ps, cut, rfl, hn, hcut, hlt⟩ := cut_cases hf hw
    · obtain ⟨u, hu, -, hlast⟩ := moves_run_cut hm hn hcut h
      rw [execRun_none] at hlast ⊢
      exact ⟨_, Nat.succ_pos _, moves_snoc hu hlast⟩
    · cases he : (s.dec.latch false n).emitGroups s.cfg.outCapPix ps (s.dec.ip + 1) with
      | mk d' missed =>
        cases missed with
        | none =>
          obtain ⟨u, hu, -, hlast⟩ := moves_lit_cut hm hn hlt hcut h he
          rw [execLit_cut cut hlt he] at hlast ⊢
          exact ⟨_, Nat.succ_pos _, moves_snoc hu hlast⟩
        | some e => exact moves_lit_over hm hn hlt.le h he

/-- One record-level step is some byte-level steps. -/
theorem exists_moves_of_decRecordMove {s t : State} (hm : s.dec.dmode = .cmd) {bs : List Byte}
    (h : s.dec.Ahead bs) (ht : decRecordMove s = .next t) :
    ∃ k, 1 ≤ k ∧ moves decByteMove k s = .next t := by
  rw [decRecordMove_cmd hm] at ht
  cases hd : decode bs with
  | error e =>
    obtain rfl := decode_eq_error hd
    rw [recordCmd_end h.at_end] at ht
    exact ⟨1, le_rfl, (moves_one (decByteMove_cmd_end hm h.at_end)).trans ht⟩
  | ok i =>
    obtain ⟨hf, rest, rfl, hr⟩ := decode_eq_ok hd
    rw [recordCmd_of_ahead h hd] at ht
    obtain ⟨k, hk, hmoves⟩ := exists_moves_record hm hf hr h
    exact ⟨k, hk, hmoves.trans ht⟩

/-- Settles O19, record by record. -/
theorem byteLevelSimulatesRecordLevel : Obligations.ByteLevelSimulatesRecordLevel := by
  unfold Obligations.ByteLevelSimulatesRecordLevel
  intro s t hm hfull hip ht
  obtain ⟨bs, h⟩ := Memory.exists_ahead hfull hip
  exact exists_moves_of_decRecordMove hm h ht

/-- R129: a whole record whose pixels fit takes a step for each of its bytes and one for each copy of a RUN. -/
theorem moves_whole {s : State} (hm : s.dec.dmode = .cmd) {i : Instr} (hw : i.wellFormed = true) {rest : List Byte}
    (h : s.dec.Ahead (encode i ++ rest))
    (hfit : within s.cfg.outCapPix (s.dec.OUT.length + i.expand.length) = true) :
    moves decByteMove ((encode i).length + Instr.copies i) s = exec i s := by
  rw [expand_length_of_wellFormed hw] at hfit
  rw [encode_length_of_wellFormed hw]
  obtain ⟨n, p, rfl, hn⟩ | ⟨ps, rfl, hn⟩ := whole_cases hw
  · exact moves_run_whole hm hn h ((s.dec.withRunPixel n p).emitCopies_fits s.cfg.outCapPix p n hfit)
  · exact moves_lit_whole hm hn h (Dec.emitGroups_fits _ _ _ _ hfit)

/-- R129: a record cut off whose pixels fit takes a step for each of its bytes, and one that ends the conversion. -/
theorem moves_cut {s : State} (hm : s.dec.dmode = .cmd) {i : Instr} (hf : i.fetchable = true)
    (hw : i.wellFormed = false) (h : s.dec.Ahead (encode i))
    (hfit : within s.cfg.outCapPix (s.dec.OUT.length + i.expand.length) = true) :
    ∃ u, moves decByteMove (encode i).length s = .next u ∧ u.dec.busy = true ∧ decByteMove u = exec i s := by
  obtain ⟨n, cut, rfl, hn, hcut⟩ | ⟨n, ps, cut, rfl, hn, hcut, hlt⟩ := cut_cases hf hw
  · exact moves_run_cut hm hn hcut h
  · exact moves_lit_cut hm hn hlt hcut h (Dec.emitGroups_fits _ _ _ _ hfit)

/-! ## What a record leaves of the registers that R128 compares -/

theorem exec_whole {s : State} {i : Instr} (hw : i.wellFormed = true)
    (hfit : within s.cfg.outCapPix (s.dec.OUT.length + i.expand.length) = true) :
    ∃ t, exec i s = .next t ∧
      t.dec.observe = { s.dec.observe with ip := s.dec.ip + i.size, out := s.dec.OUT ++ i.expand } := by
  rw [expand_length_of_wellFormed hw] at hfit
  obtain ⟨n, p, rfl, hn⟩ | ⟨ps, rfl, hn⟩ := whole_cases hw
  · refine ⟨_, execRun_whole [] ((s.dec.withRunPixel n p).emitCopies_fits s.cfg.outCapPix p n hfit), ?_⟩
    simp [Dec.observe, Dec.withRunPixel, Instr.size, Instr.expand]
  · refine ⟨_, execLit_whole [] le_rfl (Dec.emitGroups_fits _ _ _ _ hfit), ?_⟩
    simp [Dec.observe, Instr.size, Instr.expand, Nat.add_assoc]

/-- R103: nothing of a RUN cut off is emitted. -/
theorem exec_run_cut (n : Nat) (cut : List Byte) (s : State) :
    ∃ t, exec (.run n none cut) s = .next t ∧
      t.dec.observe = { s.dec.observe with dmode := .done, ip := s.dec.inLen, endKind := .truncated } :=
  ⟨_, rfl, rfl⟩

theorem exec_cut {s : State} {i : Instr} (hf : i.fetchable = true) (hw : i.wellFormed = false)
    (hfit : within s.cfg.outCapPix (s.dec.OUT.length + i.expand.length) = true) :
    ∃ t, exec i s = .next t ∧ t.dec.observe = { s.dec.observe with
      dmode := .done, ip := s.dec.inLen, out := s.dec.OUT ++ i.expand, endKind := .truncated } := by
  obtain ⟨n, cut, rfl, -⟩ | ⟨n, ps, cut, rfl, -, -, hlt⟩ := cut_cases hf hw
  · simpa [Instr.expand, Dec.observe] using exec_run_cut n cut s
  · refine ⟨_, execLit_cut cut hlt (Dec.emitGroups_fits _ _ _ _ hfit), ?_⟩
    simp [Dec.observe, Instr.expand]

/-- How many bytes of a record are read when its pixel number `m` is emitted. -/
def Instr.readAtPixel (m : Nat) : Instr → Nat
  | .run _ _ _ => 5
  | .lit _ _ _ => 1 + 4 * m + 4

/-- R183: the pixels that fit a capacity of `c` are emitted, and CAPACITY is taken at the next. -/
theorem exec_over {s : State} {c : Nat} (hc : s.cfg.outCapPix = some c) {i : Instr}
    (hover : c - s.dec.OUT.length < i.expand.length) :
    ∃ t, exec i s = .next t ∧ t.dec.observe = { s.dec.observe with
      dmode := .error, ip := s.dec.ip + Instr.readAtPixel (c - s.dec.OUT.length) i,
      out := s.dec.OUT ++ i.expand.take (c - s.dec.OUT.length), err := 2,
      errInfo := s.dec.ip + Instr.readAtPixel (c - s.dec.OUT.length) i } := by
  match i with
  | .run n none cut => simp [Instr.expand] at hover
  | .run n (some p) cut =>
    have hexp : (Instr.run n (some p) cut).expand = List.replicate n p := by simp [Instr.expand]
    rw [hexp, List.length_replicate] at hover
    have he := (s.dec.withRunPixel n p).emitCopies_over c p n (show c < s.dec.OUT.length + n by omega) (by omega)
    rw [← hc] at he
    refine ⟨_, execRun_over cut he, ?_⟩
    rw [hexp, List.take_replicate, Nat.min_eq_left hover.le]
    rfl
  | .lit n ps cut =>
    obtain ⟨p, hp⟩ : ∃ p, ps[c - s.dec.OUT.length]? = some p := ⟨_, List.getElem?_eq_getElem hover⟩
    have he := (s.dec.latch false n).emitGroups_over c ps p (s.dec.ip + 1) hp
    rw [← hc] at he
    refine ⟨_, execLit_over cut he, ?_⟩
    simp [Dec.observe, Instr.readAtPixel, Instr.expand, Event.info, Event.code, Nat.add_assoc]

/-- R103 to R105, R183: the pixels of a record fit the capacity, or there is a first that does not. -/
theorem fits_or_over {cap : Option Nat} {len : Nat} (h : within cap len = true) (n : Nat) :
    within cap (len + n) = true ∨ ∃ c, cap = some c ∧ c - len < n := by
  cases cap with
  | none => exact .inl rfl
  | some c =>
    rw [within_some] at h ⊢
    by_cases hle : len + n ≤ c
    · exact .inl hle
    · exact .inr ⟨c, rfl, by omega⟩

/-! ## One record read from IN -/

/-- The record that DEC finds in CMD at `ip < L`: its command byte and everything behind it. -/
theorem exists_ahead_cons {s : State} {c : Byte} (hfull : Buffer.full s.dec.IN s.dec.inLen = true)
    (hip : s.dec.ip < s.dec.inLen) (hc : Buffer.get s.dec.IN s.dec.ip = some c) :
    ∃ bs, s.dec.Ahead (c :: bs) := by
  obtain ⟨bs, h⟩ := Memory.exists_ahead hfull hip.le
  cases bs with
  | nil => exact absurd h.at_end hip.ne
  | cons b bs =>
    obtain rfl : b = c := Option.some.inj (h.get.symm.trans hc)
    exact ⟨bs, h⟩

/-- R101, R102: in CMD the record-level step runs the record that the bytes left decode to. -/
theorem decRecordMove_of_ahead {s : State} (hm : s.dec.dmode = .cmd) {bs : List Byte}
    (h : s.dec.Ahead bs) {i : Instr} (hd : decode bs = .ok i) :
    decRecordMove s = exec i s := by
  rw [decRecordMove_cmd hm, recordCmd_of_ahead h hd]

/-- R63: four bytes make a pixel. -/
theorem exists_pixelBytes {bs : List Byte} (h : 4 ≤ bs.length) : ∃ p rest, bs = pixelBytes p ++ rest := by
  match bs, h with
  | r :: g :: b :: a :: rest, _ => exact ⟨⟨r, g, b, a⟩, rest, rfl⟩

/-- Settles O10: the bytes at `ip` decode to a RUN, cut off or whole, whose copies fit or do not. -/
theorem runRecordAtIp : Obligations.RunRecordAtIp := by
  unfold Obligations.RunRecordAtIp
  intro s c hm hfull hip hc hflag
  obtain ⟨bs, h⟩ := exists_ahead_cons hfull hip hc
  have hlen := h.tail.length
  refine ⟨fun hlt => ?_, fun r g b a hge hr hg hb ha => ?_⟩
  · obtain ⟨t, ht, hobs⟩ := exec_run_cut (cmdCount c).toNat bs s
    simp only [Dec.observe, Decoded.mk.injEq] at hobs
    obtain ⟨hmode, hip', hout, hend, herr, hinfo⟩ := hobs
    exact ⟨t, (decRecordMove_of_ahead hm h (decode_run_cut hflag (by omega))).trans ht, hend, hip', hmode, hout, herr,
      hinfo⟩
  · obtain ⟨p, rest, rfl⟩ := exists_pixelBytes (bs := bs) (by omega)
    obtain rfl : p.r = r := Option.some.inj (h.tail.get.symm.trans hr)
    obtain rfl : p.g = g := Option.some.inj (h.tail.tail.get.symm.trans hg)
    obtain rfl : p.b = b := Option.some.inj (h.tail.tail.tail.get.symm.trans hb)
    obtain rfl : p.a = a := Option.some.inj (h.tail.tail.tail.tail.get.symm.trans ha)
    have hstep := decRecordMove_of_ahead hm h (decode_run_whole hflag p rest)
    have hexp : (Instr.wholeRun (cmdCount c).toNat p).expand =
        List.replicate (c.toNat % 128 + 1) p := by simp [Instr.expand, cmdCount_toNat]
    rw [hstep]
    refine ⟨fun hfit => ?_, fun cap hcap hle hlt => ?_⟩
    · obtain ⟨t, ht, hobs⟩ := exec_whole (i := .wholeRun (cmdCount c).toNat p)
        ((Instr.wellFormed_run_iff ..).2 ⟨cmdCount_range c, rfl, rfl⟩) (by simpa [hexp] using hfit)
      simp only [Dec.observe, Decoded.mk.injEq, hexp] at hobs
      obtain ⟨hmode, hip', hout, hend, herr, hinfo⟩ := hobs
      exact ⟨t, ht, hout, hip', hmode.trans hm, hend, herr, hinfo⟩
    · have hover : cap - s.dec.OUT.length < (Instr.wholeRun (cmdCount c).toNat p).expand.length := by
        rw [hexp, List.length_replicate]; omega
      obtain ⟨t, ht, hobs⟩ := exec_over hcap hover
      rw [hexp, List.length_replicate] at hover
      simp only [Dec.observe, Decoded.mk.injEq, hexp, List.take_replicate, Nat.min_eq_left hover.le] at hobs
      obtain ⟨hmode, hip', hout, -, herr, hinfo⟩ := hobs
      exact ⟨t, ht, hout, hmode, herr, hinfo, hip'⟩

/-- R104: behind the command byte of a LIT, the complete groups are those that the input still holds. -/
theorem exists_decode_lit {d : Dec} {c : Byte} {bs : List Byte} {n m : Nat} {ps : List Pixel}
    (h : Memory.Ahead d.IN d.inLen (d.ip + 1) bs) (hflag : c.getLsbD 7 = false) (hn : n = c.toNat % 128 + 1)
    (hmin : m = min n ((d.inLen - (d.ip + 1)) / 4))
    (hrange : Buffer.range d.IN (d.ip + 1) (4 * m) = some (ps.flatMap pixelBytes)) :
    ps.length = m ∧ ∃ cut, decode (c :: bs) = .ok (.lit n ps cut) := by
  have hcount : (cmdCount c).toNat = n := (cmdCount_toNat c).trans hn.symm
  have hlen := h.length
  have hpre : (bs.take (4 * m)).length = 4 * m := by rw [List.length_take]; omega
  have hps : ps.length = m := by
    have hl := ((Buffer.range_eq_some ..).1 hrange).1
    rw [flatMap_pixelBytes_length] at hl
    omega
  rw [← List.take_append_drop (4 * m) bs] at h
  have hgroups : bs.take (4 * m) = ps.flatMap pixelBytes :=
    Option.some.inj (h.range_left.symm.trans (hpre.symm ▸ hrange))
  refine ⟨hps, ?_⟩
  rw [← List.take_append_drop (4 * m) bs, hgroups]
  by_cases heq : m = n
  · rw [← hps] at heq
    subst heq
    exact ⟨[], decode_lit_whole hflag hcount _⟩
  · exact ⟨_, decode_lit_cut hflag hcount (by omega) (by rw [List.length_drop]; omega)⟩

/-- Settles O11: the bytes at `ip` decode to a LIT of `m` complete groups, which fit or do not. -/
theorem litRecordAtIp : Obligations.LitRecordAtIp := by
  unfold Obligations.LitRecordAtIp
  intro s c n m ps hm hfull hip hc hflag hn hmin hrange
  obtain ⟨bs, h⟩ := exists_ahead_cons hfull hip hc
  obtain ⟨hps, cut, hd⟩ := exists_decode_lit h.tail hflag hn hmin hrange
  obtain ⟨hf, -⟩ := decode_eq_ok hd
  obtain ⟨hcount, -, -, hcut⟩ := (Instr.fetchable_lit_iff ..).1 hf
  have hexp : (Instr.lit n ps cut).expand = ps := rfl
  rw [decRecordMove_of_ahead hm h hd]
  refine ⟨fun hfit => ⟨fun heq => ?_, fun hlt => ?_⟩, fun cap hcap hle hlt => ?_⟩
  · obtain ⟨t, ht, hobs⟩ := exec_whole
      ((Instr.wellFormed_lit_iff ..).2 ⟨hcount, hps.trans heq, hcut.resolve_left (by omega)⟩) (by rwa [hexp, hps])
    simp only [Dec.observe, Decoded.mk.injEq, hexp, Instr.size, ← Nat.add_assoc] at hobs
    obtain ⟨hmode, hip', hout, hend, herr, hinfo⟩ := hobs
    exact ⟨t, ht, hout, hip', hmode.trans hm, hend, herr, hinfo⟩
  · obtain ⟨t, ht, hobs⟩ := exec_cut hf
      (Bool.eq_false_iff.2 fun hw => absurd ((Instr.wellFormed_lit_iff ..).1 hw).2.1 (by omega)) (by rwa [hexp, hps])
    simp only [Dec.observe, Decoded.mk.injEq, hexp] at hobs
    obtain ⟨hmode, hip', hout, hend, herr, hinfo⟩ := hobs
    exact ⟨t, ht, hout, hip', hmode, hend, herr, hinfo⟩
  · obtain ⟨t, ht, hobs⟩ := exec_over hcap (i := .lit n ps cut) (by rw [hexp]; omega)
    simp only [Dec.observe, Decoded.mk.injEq, hexp, Instr.readAtPixel, ← Nat.add_assoc] at hobs
    obtain ⟨hmode, hip', hout, -, herr, hinfo⟩ := hobs
    exact ⟨t, ht, hout, hmode, herr, hinfo, hip'.trans hinfo.symm⟩

end Sys2Proof.Machine
end

section
/-! PROOFS of the decoder's family, fifth part: what each agent's step leaves alone (R61, R112), and the runs of both
decoder levels (R128, R129). -/

namespace Sys2Proof.Machine

/-! ## What a step leaves alone -/

/-- R112: between `s` and `t` only DEC changed, and of DEC not its input; its output only grew. -/
structure State.OnlyDec (s t : State) : Prop where
  others : t = { s with dec := t.dec }
  IN : t.dec.IN = s.dec.IN
  inLen : t.dec.inLen = s.dec.inLen
  start : t.dec.start = s.dec.start
  out : ∃ ps, t.dec.OUT = s.dec.OUT ++ ps

/-- R61: between `s` and `t` only ENC changed, and of ENC not its input; its output only grew. -/
structure State.OnlyEnc (s t : State) : Prop where
  others : t = { s with enc := t.enc }
  PIN : t.enc.PIN = s.enc.PIN
  inLen : t.enc.inLen = s.enc.inLen
  start : t.enc.start = s.enc.start
  out : ∃ bs, t.enc.BOUT = s.enc.BOUT ++ bs

/-- DEC writes registers other than its input and output. -/
theorem State.onlyDec_of_same {s : State} {d : Dec} (hIN : d.IN = s.dec.IN) (hlen : d.inLen = s.dec.inLen)
    (hstart : d.start = s.dec.start) (hout : d.OUT = s.dec.OUT) : s.OnlyDec { s with dec := d } :=
  ⟨rfl, hIN, hlen, hstart, [], by rw [List.append_nil]; exact hout⟩

/-- ENC writes registers other than its input and output. -/
theorem State.onlyEnc_of_same {s : State} {e : Enc} (hPIN : e.PIN = s.enc.PIN) (hlen : e.inLen = s.enc.inLen)
    (hstart : e.start = s.enc.start) (hout : e.BOUT = s.enc.BOUT) : s.OnlyEnc { s with enc := e } :=
  ⟨rfl, hPIN, hlen, hstart, [], by rw [List.append_nil]; exact hout⟩

theorem withNextByte_eq_next {s t : State} {go : Byte → State} (h : withNextByte s go = .next t) :
    ∃ b, t = go b := by
  obtain ⟨b, -, -, hgo⟩ | ⟨-, -, hgo⟩ | ⟨-, hgo⟩ := withNextByte_cases s go
  · exact ⟨b, Host.Outcome.next.inj (h.symm.trans hgo)⟩
  · cases h.symm.trans hgo
  · cases h.symm.trans hgo

theorem exists_of_emit {cap : Option Nat} {p : Pixel} {out out' : List Pixel} (h : emit cap p out = some out') :
    ∃ ps, out' = out ++ ps := ⟨[p], ((emit_eq_some ..).1 h).2⟩

theorem byteCmd_onlyDec {s t : State} (h : byteCmd s = .next t) : s.OnlyDec t := by
  rw [byteCmd] at h
  split at h
  · cases h
    exact State.onlyDec_of_same rfl rfl rfl rfl
  · obtain ⟨b, rfl⟩ := withNextByte_eq_next h
    exact State.onlyDec_of_same rfl rfl rfl rfl

theorem byteRunpix_onlyDec {s t : State} (h : byteRunpix s = .next t) : s.OnlyDec t := by
  rw [byteRunpix] at h
  split at h
  · cases h
    exact State.onlyDec_of_same rfl rfl rfl rfl
  · obtain ⟨b, rfl⟩ := withNextByte_eq_next h
    dsimp only
    split <;> exact State.onlyDec_of_same rfl rfl rfl rfl

theorem byteLitpix_onlyDec {s t : State} (h : byteLitpix s = .next t) : s.OnlyDec t := by
  rw [byteLitpix] at h
  split at h
  · cases h
    exact State.onlyDec_of_same rfl rfl rfl rfl
  · obtain ⟨b, rfl⟩ := withNextByte_eq_next h
    dsimp only
    split
    · split
      · exact State.onlyDec_of_same rfl rfl rfl rfl
      next out he => exact ⟨rfl, rfl, rfl, rfl, exists_of_emit he⟩
    · exact State.onlyDec_of_same rfl rfl rfl rfl

theorem byteExpand_onlyDec {s t : State} (h : byteExpand s = .next t) : s.OnlyDec t := by
  rw [byteExpand] at h
  split at h
  · cases h
    exact State.onlyDec_of_same rfl rfl rfl rfl
  next out he =>
    cases h
    exact ⟨rfl, rfl, rfl, rfl, exists_of_emit he⟩

theorem decByteMove_onlyDec {s t : State} (h : decByteMove s = .next t) : s.OnlyDec t := by
  cases hm : s.dec.dmode <;> simp only [decByteMove, hm] at h
  case cmd => exact byteCmd_onlyDec h
  case runpix => exact byteRunpix_onlyDec h
  case expand => exact byteExpand_onlyDec h
  case litpix => exact byteLitpix_onlyDec h
  all_goals
    cases h
    exact State.onlyDec_of_same rfl rfl rfl rfl

theorem exec_onlyDec {s t : State} {i : Instr} (h : exec i s = .next t) : s.OnlyDec t := by
  match i with
  | .run n none cut =>
    cases h
    exact State.onlyDec_of_same rfl rfl rfl rfl
  | .run n (some p) cut =>
    obtain ⟨hsame, -, -, m, -, hout, -⟩ := (s.dec.withRunPixel n p).emitCopies_frame s.cfg.outCapPix p n
    generalize he : (s.dec.withRunPixel n p).emitCopies s.cfg.outCapPix p n = e at hsame hout
    obtain ⟨d', b⟩ := e
    cases b with
    | true =>
      cases (execRun_whole cut he).symm.trans h
      exact ⟨rfl, hsame.IN, hsame.inLen, hsame.start, _, hout⟩
    | false =>
      cases (execRun_over cut he).symm.trans h
      exact ⟨rfl, hsame.IN, hsame.inLen, hsame.start, _, hout⟩
  | .lit n ps cut =>
    obtain ⟨hsame, m, -, hout, -⟩ := (s.dec.latch false n).emitGroups_frame s.cfg.outCapPix ps (s.dec.ip + 1)
    generalize he : (s.dec.latch false n).emitGroups s.cfg.outCapPix ps (s.dec.ip + 1) = e at hsame hout
    obtain ⟨d', missed⟩ := e
    cases missed with
    | some e =>
      cases (execLit_over cut he).symm.trans h
      exact ⟨rfl, hsame.IN, hsame.inLen, hsame.start, _, hout⟩
    | none =>
      obtain hlt | hge := Nat.lt_or_ge ps.length n
      · cases (execLit_cut cut hlt he).symm.trans h
        exact ⟨rfl, hsame.IN, hsame.inLen, hsame.start, _, hout⟩
      · cases (execLit_whole cut hge he).symm.trans h
        exact ⟨rfl, hsame.IN, hsame.inLen, hsame.start, _, hout⟩

theorem recordCmd_onlyDec {s t : State} (h : recordCmd s = .next t) : s.OnlyDec t := by
  rw [recordCmd] at h
  split at h
  · cases h
  · cases h
    exact State.onlyDec_of_same rfl rfl rfl rfl
  · exact exec_onlyDec h

theorem decMove_onlyDec {s t : State} (h : decMove s = .next t) : s.OnlyDec t := by
  rw [decMove] at h
  split at h
  · rw [decRecordMove] at h
    split at h
    · exact recordCmd_onlyDec h
    all_goals exact decByteMove_onlyDec h
  · exact decByteMove_onlyDec h

/-- R145: what EmitRecord does to the output. -/
theorem exists_of_emitRecord {cap : Option Nat} {f : Bool} {c pos : Nat} {pix : List Pixel} {bout bout' : List Byte}
    (h : emitRecord cap f c pix pos bout = .ok bout') : ∃ bs, bout' = bout ++ bs := by
  obtain ⟨-, he⟩ | ⟨-, -, he⟩ | ⟨-, -, he⟩ := emitRecord_cases cap f c pix pos bout
  · cases he.symm.trans h
  · cases he.symm.trans h
    exact ⟨_, rfl⟩
  · cases he.symm.trans h

theorem encScan_onlyEnc {s t : State} (h : encScan s = .next t) : s.OnlyEnc t := by
  rw [encScan] at h
  split at h
  · cases h
    exact State.onlyEnc_of_same rfl rfl rfl rfl
  · split at h
    · cases h
    · cases h
    · split at h <;> cases h <;> exact State.onlyEnc_of_same rfl rfl rfl rfl

theorem encRun_onlyEnc {s t : State} (h : encRun s = .next t) : s.OnlyEnc t := by
  rw [encRun] at h
  split at h
  · cases h
    exact State.onlyEnc_of_same rfl rfl rfl rfl
  next he =>
    cases h
    exact ⟨rfl, rfl, rfl, rfl, exists_of_emitRecord he⟩

theorem encLitClose_onlyEnc {s t : State} (h : encLitClose s = .next t) : s.OnlyEnc t := by
  rw [encLitClose] at h
  split at h
  · cases h
  · split at h
    · cases h
      exact State.onlyEnc_of_same rfl rfl rfl rfl
    next he =>
      cases h
      exact ⟨rfl, rfl, rfl, rfl, exists_of_emitRecord he⟩

theorem encLit_onlyEnc {s t : State} (h : encLit s = .next t) : s.OnlyEnc t := by
  rw [encLit] at h
  split at h
  · cases h
  · cases h
    exact State.onlyEnc_of_same rfl rfl rfl rfl
  · exact encLitClose_onlyEnc h

theorem encMove_onlyEnc {s t : State} (h : encMove s = .next t) : s.OnlyEnc t := by
  cases hm : s.enc.emode <;> simp only [encMove, hm] at h
  case scan => exact encScan_onlyEnc h
  case run => exact encRun_onlyEnc h
  case lit => exact encLit_onlyEnc h
  all_goals
    cases h
    exact State.onlyEnc_of_same rfl rfl rfl rfl

/-- Settles O27, step by step. -/
theorem agentsWriteOnlyTheirOwn : Obligations.AgentsWriteOnlyTheirOwn := by
  unfold Obligations.AgentsWriteOnlyTheirOwn
  refine ⟨fun s t h => ?_, fun s t h => ?_⟩
  · obtain ⟨hothers, hIN, hlen, hstart, hout⟩ := decMove_onlyDec h
    exact ⟨hothers, hIN, hlen, hstart, hout⟩
  · obtain ⟨hothers, hPIN, hlen, hstart, hout⟩ := encMove_onlyEnc h
    exact ⟨hothers, hPIN, hlen, hstart, hout⟩

/-- Settles O15: both levels end cleanly where no byte is left. -/
theorem endOfInputEndsCleanly : Obligations.EndOfInputEndsCleanly := by
  unfold Obligations.EndOfInputEndsCleanly
  intro s hm hip
  rw [decMove]
  cases s.cfg.level with
  | record => exact (decRecordMove_cmd hm).trans (recordCmd_end hip)
  | byte => exact decByteMove_cmd_end hm hip

end Sys2Proof.Machine
end

section
/-! PROOFS of the decoder's family, sixth part: the runs of both decoder levels, against R106's loop (R128) and by
their number of steps (R129). -/

namespace Sys2Proof.Machine

/-- A whole record that fits leaves DEC in CMD in front of the bytes behind it. -/
theorem exec_whole_ahead {s : State} (hm : s.dec.dmode = .cmd) {i : Instr} (hw : i.wellFormed = true)
    (hfit : within s.cfg.outCapPix (s.dec.OUT.length + i.expand.length) = true) {rest : List Byte}
    (h : s.dec.Ahead (encode i ++ rest)) :
    ∃ t, exec i s = .next t ∧ s.OnlyDec t ∧ t.cfg = s.cfg ∧
      t.dec.observe = ⟨.cmd, s.dec.ip + i.size, s.dec.OUT ++ i.expand, s.dec.endKind, s.dec.err, s.dec.errInfo⟩ ∧
      Memory.Ahead t.dec.IN t.dec.inLen (s.dec.ip + i.size) rest := by
  obtain ⟨t, ht, hobs⟩ := exec_whole hw hfit
  have honly := exec_onlyDec ht
  refine ⟨t, ht, honly, by rw [honly.others], by rw [hobs, Dec.observe, hm], ?_⟩
  rw [honly.IN, honly.inLen, ← encode_length_of_wellFormed hw]
  exact h.right

/-! ## R129: the number of byte-level steps -/

/-- A stream whose pixels fit ends after a step for each byte, one for each copy, and one more. -/
theorem moves_stream {rs : List Instr} {last : Option Instr} (hs : IsStream rs last) {s : State}
    (hm : s.dec.dmode = .cmd) (h : s.dec.Ahead (streamBytes rs last))
    (hfit : within s.cfg.outCapPix (s.dec.OUT.length + (streamPixels rs last).length) = true) :
    ∃ u t, moves decByteMove ((streamBytes rs last).length + runCopies rs) s = .next u ∧ u.dec.busy = true ∧
      decByteMove u = .next t ∧ t.dec.dmode = .done := by
  induction rs generalizing s with
  | nil =>
    cases last with
    | none =>
      exact ⟨s, _, moves_zero .., by rw [Dec.busy, hm], decByteMove_cmd_end hm h.at_end, rfl⟩
    | some i =>
      obtain ⟨hf, hw⟩ := hs.cut i rfl
      rw [streamBytes_nil_some] at h ⊢
      rw [streamPixels_nil_some] at hfit
      obtain ⟨u, hu, hbusy, hlast⟩ := moves_cut hm hf hw h hfit
      obtain ⟨t, ht, hobs⟩ := exec_cut hf hw hfit
      exact ⟨u, t, hu, hbusy, hlast.trans ht, congrArg Decoded.dmode hobs⟩
  | cons i rs ih =>
    have hw := hs.head
    rw [streamBytes_cons] at h ⊢
    rw [streamPixels_cons, List.length_append, ← Nat.add_assoc] at hfit
    have hfirst : within s.cfg.outCapPix (s.dec.OUT.length + i.expand.length) = true := within_mono hfit (by omega)
    obtain ⟨t, ht, -, hcfg, hobs, hahead⟩ := exec_whole_ahead hm hw hfirst h
    simp only [Dec.observe, Decoded.mk.injEq] at hobs
    obtain ⟨hmode, hip, hout, -⟩ := hobs
    obtain ⟨u, t', hu, hlast⟩ := ih hs.tail hmode (by rw [Dec.Ahead, hip]; exact hahead) (by rwa [hcfg, hout, List.length_append])
    refine ⟨u, t', ?_, hlast⟩
    rw [← hu, ← moves_add ((moves_whole hm hw h hfirst).trans ht), List.length_append]
    congr 1
    simp only [runCopies, List.map_cons, List.sum_cons]
    omega

/-- Settles O20: the stream's last step is the one that ends the conversion. -/
theorem byteLevelStepCount : Obligations.ByteLevelStepCount := by
  unfold Obligations.ByteLevelStepCount
  intro s rs last hwhole hcut hstart hfit
  have h := Memory.ahead_of_range hstart.input
  rw [← hstart.ip] at h
  have hlen : s.dec.inLen = (streamBytes rs last).length := by rw [h.length, hstart.ip, Nat.zero_add]; rfl
  obtain ⟨u, t, hu, hbusy, hlast, hdone⟩ := moves_stream ⟨hwhole, hcut⟩ hstart.dmode h
    (by rw [hstart.out, List.length_nil, Nat.zero_add]; exact hfit)
  rw [← hlen] at hu
  exact ⟨⟨t, moves_snoc hu hlast, hdone⟩, u, hu, hbusy⟩

/-! ## R106's loop with any capacity -/

theorem emitList_fits {cap : Option Nat} {ps out : List Pixel} (h : within cap (out.length + ps.length) = true) :
    emitList cap ps out = (out ++ ps, 0) := by
  induction ps generalizing out with
  | nil => rw [emitList, List.append_nil]
  | cons p ps ih =>
    rw [List.length_cons] at h
    rw [emitList, (emit_eq_some cap p out _).2 ⟨within_mono h (by omega), rfl⟩]
    simp only
    rw [ih (by simpa [Nat.add_assoc, Nat.add_comm 1] using h), List.append_assoc, List.singleton_append]

theorem emitList_over {c : Nat} {ps out : List Pixel} (h : c - out.length < ps.length) :
    emitList (some c) ps out = (out ++ ps.take (c - out.length), ps.length - (c - out.length)) := by
  induction ps generalizing out with
  | nil => simp at h
  | cons p ps ih =>
    rw [emitList]
    by_cases hfit : out.length + 1 ≤ c
    · obtain ⟨m, hm⟩ : ∃ m, c - out.length = m + 1 := ⟨c - out.length - 1, by omega⟩
      have hm' : c - (out ++ [p]).length = m := by rw [List.length_append, List.length_singleton]; omega
      rw [(emit_eq_some (some c) p out _).2 ⟨(within_some ..).2 hfit, rfl⟩]
      simp only
      rw [hm, List.length_cons] at h
      rw [ih (by omega), hm, hm', List.take_succ_cons, List.append_assoc, List.singleton_append, List.length_cons,
        Nat.add_sub_add_right]
    · rw [(emit_eq_none (some c) p out).2 (Bool.eq_false_iff.2 fun hw => hfit ((within_some ..).1 hw)),
        show c - out.length = 0 by omega]
      simp

section

variable {cap : Option Nat} {inp : List Byte} {ip : Nat} {i : Instr} (hd : decode (inp.drop ip) = .ok i)
  (fuel : Nat) {out : List Pixel}
include hd

theorem decodeLoop_whole (hw : i.wellFormed = true) (hfit : within cap (out.length + i.expand.length) = true) :
    decodeLoop cap inp (fuel + 1) ip out = decodeLoop cap inp fuel (ip + i.size) (out ++ i.expand) := by
  rw [expand_length_of_wellFormed hw] at hfit
  rw [decodeLoop, hd]
  obtain ⟨n, p, rfl, -⟩ | ⟨ps, rfl, -⟩ := whole_cases hw
  · simp only [emitList_fits (out := out) (ps := List.replicate n p) (by rw [List.length_replicate]; exact hfit)]
    simp [Instr.size, Instr.expand]
  · simp only [emitList_fits (ps := ps) hfit]
    simp [Instr.size, Instr.expand, Nat.add_assoc]

theorem decodeLoop_cut (hw : i.wellFormed = false) (hfit : within cap (out.length + i.expand.length) = true) :
    decodeLoop cap inp (fuel + 1) ip out = ⟨.done, inp.length, out ++ i.expand, .truncated, 0, 0⟩ := by
  obtain ⟨hf, -⟩ := decode_eq_ok hd
  rw [decodeLoop, hd]
  obtain ⟨n, cut, rfl, -⟩ | ⟨n, ps, cut, rfl, -, -, hlt⟩ := cut_cases hf hw
  · simp [Instr.expand]
  · simp only [emitList_fits (ps := ps) hfit, if_pos hlt]
    rfl

theorem decodeLoop_over {c : Nat} (hover : c - out.length < i.expand.length) :
    decodeLoop (some c) inp (fuel + 1) ip out =
      ⟨.error, ip + Instr.readAtPixel (c - out.length) i, out ++ i.expand.take (c - out.length), .none, 2,
        ip + Instr.readAtPixel (c - out.length) i⟩ := by
  rw [decodeLoop, hd]
  match i with
  | .run n none cut => simp [Instr.expand] at hover
  | .run n (some p) cut =>
    have hexp : (Instr.run n (some p) cut).expand = List.replicate n p := by simp [Instr.expand]
    rw [hexp] at hover ⊢
    obtain ⟨m, hm⟩ : ∃ m, (List.replicate n p).length - (c - out.length) = m + 1 :=
      Nat.exists_eq_succ_of_ne_zero (by omega)
    simp only [emitList_over hover, hm]
    rfl
  | .lit n ps cut =>
    replace hover : c - out.length < ps.length := hover
    obtain ⟨m, hm⟩ : ∃ m, ps.length - (c - out.length) = m + 1 :=
      Nat.exists_eq_succ_of_ne_zero (by omega)
    have hleft : ps.length - (m + 1) = c - out.length := by omega
    simp only [emitList_over hover, hm, hleft, Instr.readAtPixel, Instr.expand, ← Nat.add_assoc]

end

/-! ## R128: both levels reach what the loop gives -/

/-- DEC at a record boundary of a conversion of `inp`, at index `ip` with the output `out` and no error. -/
structure State.Boundary (s : State) (inp : List Byte) (ip : Nat) (out : List Pixel) : Prop where
  observed : s.dec.observe = ⟨.cmd, ip, out, .none, 0, 0⟩
  length : s.dec.inLen = inp.length
  ahead : Memory.Ahead s.dec.IN s.dec.inLen ip (inp.drop ip)
  fits : within s.cfg.outCapPix out.length = true

theorem Dec.doneBit_of_observe {d : Dec} {r : Decoded} (h : d.observe = r) (hr : r.dmode = .done ∨ r.dmode = .error) :
    d.doneBit = true := by
  subst h
  obtain hm | hm : d.dmode = .done ∨ d.dmode = .error := hr <;> rw [Dec.doneBit, hm]

/-- R106: a record-level step is a round of the loop: it ends the conversion as the loop ends, or both go on at a
later boundary. -/
theorem decRecordMove_round {s : State} {inp : List Byte} {ip : Nat} {out : List Pixel} (h : s.Boundary inp ip out) :
    ∃ t, decRecordMove s = .next t ∧
      ((t.dec.doneBit = true ∧ ∀ fuel, t.dec.observe = decodeLoop s.cfg.outCapPix inp (fuel + 1) ip out) ∨
        ∃ ip' out', ip < ip' ∧ t.cfg = s.cfg ∧ t.Boundary inp ip' out' ∧ ∀ fuel,
          decodeLoop s.cfg.outCapPix inp (fuel + 1) ip out = decodeLoop s.cfg.outCapPix inp fuel ip' out') := by
  obtain ⟨hobs, hlen, hahead, hfits⟩ := h
  have hobs' := hobs
  simp only [Dec.observe, Decoded.mk.injEq] at hobs'
  obtain ⟨hm, rfl, rfl, hend, herr, hinfo⟩ := hobs'
  cases hd : decode (inp.drop s.dec.ip) with
  | error e =>
    have hip : s.dec.ip = s.dec.inLen := (decode_eq_error hd ▸ hahead).at_end
    refine ⟨_, (decRecordMove_cmd hm).trans (recordCmd_end hip), .inl ⟨rfl, fun fuel => ?_⟩⟩
    rw [decodeLoop_end hd]
    simp [Dec.observe, herr, hinfo]
  | ok i =>
    obtain ⟨hf, rest, hbytes, hr⟩ := decode_eq_ok hd
    have hstep := decRecordMove_of_ahead hm hahead hd
    obtain hfit | ⟨c, hc, hover⟩ := fits_or_over hfits i.expand.length
    · cases hw : i.wellFormed with
      | true =>
        obtain ⟨t, ht, honly, hcfg, hobs', hahead'⟩ := exec_whole_ahead hm hw hfit (hbytes ▸ hahead)
        have hrest : inp.drop (s.dec.ip + i.size) = rest := by
          rw [← List.drop_drop, hbytes, ← encode_length_of_wellFormed hw, List.drop_left]
        refine ⟨t, hstep.trans ht, .inr ⟨s.dec.ip + i.size, s.dec.OUT ++ i.expand, ?_, hcfg, ⟨?_, ?_, ?_, ?_⟩,
          fun fuel => decodeLoop_whole hd fuel hw hfit⟩⟩
        · have := encode_length_of_wellFormed hw
          have := encode_length_pos i
          omega
        · rw [hobs', hend, herr, hinfo]
        · rw [honly.inLen, hlen]
        · rwa [hrest]
        · rwa [hcfg, List.length_append]
      | false =>
        obtain ⟨t, ht, hobs'⟩ := exec_cut hf hw hfit
        refine ⟨t, hstep.trans ht, .inl ⟨Dec.doneBit_of_observe hobs' (.inl rfl), fun fuel => ?_⟩⟩
        rw [hobs', decodeLoop_cut hd fuel hw hfit, hobs, hlen]
    · obtain ⟨t, ht, hobs'⟩ := exec_over hc hover
      refine ⟨t, hstep.trans ht, .inl ⟨Dec.doneBit_of_observe hobs' (.inr rfl), fun fuel => ?_⟩⟩
      rw [hobs', hc, decodeLoop_over hd fuel hover, hobs]

/-- A run of `f` reaches the loop's end, when some moves of `f` do what a record-level step does. -/
theorem exists_moves_decodeLoop {f : State → Host.Outcome State Fault Refusal} {inp : List Byte}
    (hf : ∀ s t ip out, s.Boundary inp ip out → decRecordMove s = .next t → ∃ k, moves f k s = .next t)
    (fuel : Nat) {s : State} {ip : Nat} {out : List Pixel} (h : s.Boundary inp ip out)
    (hfuel : inp.length < ip + fuel) :
    ∃ k t, moves f k s = .next t ∧ t.dec.doneBit = true ∧
      t.dec.observe = decodeLoop s.cfg.outCapPix inp fuel ip out := by
  induction fuel generalizing s ip out with
  | zero =>
    have := h.ahead.length
    rw [h.length] at this
    omega
  | succ fuel ih =>
    obtain ⟨t, hstep, hround⟩ := decRecordMove_round h
    obtain ⟨k, hk⟩ := hf s t ip out h hstep
    obtain ⟨hdone, hloop⟩ | ⟨ip', out', hlt, hcfg, h', hloop⟩ := hround
    · exact ⟨k, t, hk, hdone, hloop fuel⟩
    · obtain ⟨k', t', hk', hdone, hobs⟩ := ih h' (by omega)
      exact ⟨k + k', t', by rw [moves_add hk, hk'], hdone, by rw [hobs, hloop, hcfg]⟩

theorem boundary_of_atStart {s : State} {inp : List Byte} (h : s.dec.AtStart inp) : s.Boundary inp 0 [] := by
  have hahead := Memory.ahead_of_range h.input
  refine ⟨by rw [Dec.observe, h.dmode, h.ip, h.out, h.endKind, h.err, h.errInfo], by simpa using hahead.length,
    hahead, ?_⟩
  cases s.cfg.outCapPix with
  | none => rfl
  | some c => exact (within_some ..).2 (Nat.zero_le c)

/-- Settles O18: the record level makes a move for each round of R106's loop, and the byte level some moves. -/
theorem bothLevelsReachDecode : Obligations.BothLevelsReachDecode := by
  unfold Obligations.BothLevelsReachDecode
  intro s inp hstart
  have h := boundary_of_atStart hstart
  refine ⟨exists_moves_decodeLoop (fun s t ip out hb ht => ?_) (inp.length + 1) h (by omega),
    exists_moves_decodeLoop (fun s t ip out _ ht => ⟨1, moves_one ht⟩) (inp.length + 1) h (by omega)⟩
  have hobs := hb.observed
  simp only [Dec.observe, Decoded.mk.injEq] at hobs
  obtain ⟨hm, rfl, -⟩ := hobs
  obtain ⟨k, -, hk⟩ := exists_moves_of_decRecordMove hm hb.ahead ht
  exact ⟨k, hk⟩

end Sys2Proof.Machine
end

section
/-! PROOFS of the encoder's family: the round trip (R147), the run measurement (R140), the legality of every emitted
record (R148) and of every count the machine emits with (R153), and the SCAN step (R142). -/

namespace Sys2Proof.Machine

/-! ## R147: the round trip -/

/-- Settles O34: `Encode` emits whole records that stand for the pixels, and `Decode` reads whole records back. -/
theorem roundTrip : Obligations.RoundTrip := by
  unfold Obligations.RoundTrip
  intro pin
  obtain ⟨rs, hwf, hexp, hrun⟩ := encodeAll_none_records pin
  rw [encodeStream, hrun, decodeAll_none_whole hwf, hexp]

/-! ## R140: the run measurement -/

theorem runLen_pos {pin : List Pixel} {i : Nat} (h : i < pin.length) : 1 ≤ runLen pin i := by
  rw [runLen, List.drop_eq_getElem_cons h]
  exact Nat.le_add_left 1 _

/-- R140: the pixels of the run equal its first one. -/
theorem getElem?_of_lt_runLen {pin : List Pixel} {i j : Nat} (h : i < pin.length) (hj : j < runLen pin i) :
    pin[i + j]? = pin[i]? := by
  have hp := List.getElem?_eq_getElem h
  calc pin[i + j]? = (slice pin i (runLen pin i))[j]? := by
        rw [slice, List.getElem?_take, if_pos hj, List.getElem?_drop]
    _ = some pin[i] := by rw [slice_runLen hp, List.getElem?_replicate, if_pos hj]
    _ = pin[i]? := hp.symm

/-- As many copies of `p` as stand at the front of a list are counted. -/
theorem le_leading {p : Pixel} {l : List Pixel} {k : Nat} (h : ∀ j < k, l[j]? = some p) : k ≤ leading p l := by
  induction l generalizing k with
  | nil => exact Nat.le_of_not_lt fun hk => by simpa using h 0 hk
  | cons q t ih =>
    cases k with
    | zero => exact Nat.zero_le _
    | succ k =>
      have hq : q = p := by simpa using h 0 (Nat.succ_pos k)
      have ht : k ≤ leading p t := ih fun j hj => by simpa using h (j + 1) (Nat.succ_lt_succ hj)
      rw [leading, if_pos hq]
      exact Nat.succ_le_succ ht

/-- R140: no run at `i` is longer than the one measured. -/
theorem le_runLen {pin : List Pixel} {i k : Nat} (h : i < pin.length) (heq : ∀ j < k, pin[i + j]? = pin[i]?) :
    k ≤ runLen pin i := by
  have hrun : runLen pin i = leading pin[i] (pin.drop i) := by
    rw [runLen, List.drop_eq_getElem_cons h, leading, if_pos rfl]
  rw [hrun]
  refine le_leading fun j hj => ?_
  rw [List.getElem?_drop, heq j hj, List.getElem?_eq_getElem h]

/-- Settles O28: the measured run is a run, and the longest one. -/
theorem runLenIsTheMaximalRun : Obligations.RunLenIsTheMaximalRun := by
  unfold Obligations.RunLenIsTheMaximalRun
  intro pin i h
  have hle := runLen_le pin i
  exact ⟨⟨runLen_pos h, by omega, fun j hj => getElem?_of_lt_runLen h hj⟩, fun k _ _ heq => le_runLen h heq⟩

/-! ## R148: the records of any capacity -/

/-- R67, R148: the bytes are whole records, one after another. -/
def WholeRecords (bytes : List Byte) : Prop :=
  ∃ rs : List Instr, (∀ i ∈ rs, i.wellFormed = true) ∧ bytes = rs.flatMap encode

theorem wholeRecords_nil : WholeRecords [] := ⟨[], by simp, rfl⟩

theorem WholeRecords.append_encode {bytes : List Byte} (h : WholeRecords bytes) {i : Instr}
    (hi : i.wellFormed = true) : WholeRecords (bytes ++ encode i) := by
  obtain ⟨rs, hwf, rfl⟩ := h
  exact ⟨rs ++ [i], List.forall_mem_append.2 ⟨hwf, List.forall_mem_singleton.2 hi⟩, by simp⟩

/-- R145: an accepted record has a legal count, and all of its bytes are appended. -/
theorem emitRecord_eq_ok {cap : Option Nat} {f : Bool} {c pos : Nat} {pix : List Pixel} {bout bout' : List Byte}
    (h : emitRecord cap f c pix pos bout = .ok bout') : (1 ≤ c ∧ c ≤ 128) ∧ bout' = bout ++ recordBytes f c pix := by
  obtain ⟨-, he⟩ | ⟨hc, -, he⟩ | ⟨-, -, he⟩ := emitRecord_cases cap f c pix pos bout <;> cases he.symm.trans h
  exact ⟨hc, rfl⟩

/-- R145, R186: with a legal count only CAPACITY can be raised. -/
theorem emitRecord_eq_raised {cap : Option Nat} {f : Bool} {c pos : Nat} {pix : List Pixel} {bout : List Byte}
    {ev : Event} (hc : 1 ≤ c ∧ c ≤ 128) (h : emitRecord cap f c pix pos bout = .raised ev) : ev = .capacity pos := by
  obtain ⟨hbad, -⟩ | ⟨-, -, he⟩ | ⟨-, -, he⟩ := emitRecord_cases cap f c pix pos bout
  · omega
  · cases he.symm.trans h
  · cases he.symm.trans h
    rfl

theorem emitRecord_run_wholeRecords {cap : Option Nat} {c pos : Nat} {p : Pixel} {bout bout' : List Byte}
    (hb : WholeRecords bout) (h : emitRecord cap true c [p] pos bout = .ok bout') : WholeRecords bout' := by
  obtain ⟨hc, rfl⟩ := emitRecord_eq_ok h
  simpa [encode] using hb.append_encode (i := .wholeRun c p) ((Instr.wellFormed_run_iff ..).2 ⟨hc, rfl, rfl⟩)

theorem emitRecord_lit_wholeRecords {cap : Option Nat} {c pos : Nat} {pix : List Pixel} {bout bout' : List Byte}
    (hb : WholeRecords bout) (hlen : pix.length = c) (h : emitRecord cap false c pix pos bout = .ok bout') :
    WholeRecords bout' := by
  obtain ⟨hc, rfl⟩ := emitRecord_eq_ok h
  simpa [encode] using hb.append_encode (i := .wholeLit c pix) ((Instr.wellFormed_lit_iff ..).2 ⟨hc, hlen, rfl⟩)

/-- The output after a run's chunks, whether or not all of them fitted. -/
def chunkOutput : Except Encoded (Nat × List Byte) → List Byte
  | .ok (_, bout) => bout
  | .error e => e.bout

theorem chunkLoop_wholeRecords (cap : Option Nat) (p : Pixel) (fuel rem pos : Nat) {bout : List Byte}
    (hb : WholeRecords bout) : WholeRecords (chunkOutput (chunkLoop cap p fuel rem pos bout)) := by
  induction fuel generalizing rem pos bout with
  | zero => exact hb
  | succ fuel ih =>
    rw [chunkLoop]
    split
    · exact hb
    · dsimp only
      split
      · exact hb
      next he => exact ih _ _ (emitRecord_run_wholeRecords hb he)

theorem encodeLoop_wholeRecords (cap : Option Nat) (pin : List Pixel) (fuel pos : Nat) {bout : List Byte}
    (hb : WholeRecords bout) : WholeRecords (encodeLoop cap pin fuel pos bout).bout := by
  induction fuel generalizing pos bout with
  | zero => exact hb
  | succ fuel ih =>
    rw [encodeLoop]
    split
    · exact hb
    next p hp =>
      obtain ⟨hlt, -⟩ := List.getElem?_eq_some_iff.1 hp
      have hchunks := chunkLoop_wholeRecords cap p (runLen pin pos) (runLen pin pos) pos hb
      have hlen : (slice pin pos (litLoop pin maxCount 1 (pos + 1))).length = litLoop pin maxCount 1 (pos + 1) := by
        have := litLoop_bounds pin maxCount 1 (pos + 1) (by omega) hlt
        exact slice_length (by omega)
      dsimp only
      split
      · split
        next he => rwa [he] at hchunks
        next he =>
          rw [he] at hchunks
          exact ih _ hchunks
      · split
        · exact hb
        next he => exact ih _ (emitRecord_lit_wholeRecords hb hlen he)

theorem countLegal_of_wellFormed {i : Instr} (h : i.wellFormed = true) : 1 ≤ i.count ∧ i.count ≤ 128 := by
  obtain ⟨n, p, rfl, hn⟩ | ⟨ps, rfl, hn⟩ := whole_cases h <;> exact hn

/-- Settles O36: whole records at every capacity, and those of the unbounded `Encode` stand for the pixels. -/
theorem emittedCountsAreLegal : Obligations.EmittedCountsAreLegal := by
  unfold Obligations.EmittedCountsAreLegal
  intro cap pin
  cases cap with
  | none =>
    obtain ⟨rs, hwf, hexp, hrun⟩ := encodeAll_none_records pin
    exact ⟨rs, by rw [hrun], fun i hi => ⟨hwf i hi, countLegal_of_wellFormed (hwf i hi)⟩, fun _ => hexp⟩
  | some c =>
    obtain ⟨rs, hwf, hbytes⟩ := encodeLoop_wholeRecords (some c) pin (pin.length + 1) 0 wholeRecords_nil
    exact ⟨rs, hbytes, fun i hi => ⟨hwf i hi, countLegal_of_wellFormed (hwf i hi)⟩, by simp⟩

/-! ## R153: ENC_OVERFLOW is never raised -/

/-- R153: in RUN and LIT the count that EmitRecord is called with is legal. -/
structure Enc.CountsLegal (e : Enc) : Prop where
  run : e.emode = .run → 1 ≤ min e.runRem 128 ∧ min e.runRem 128 ≤ 128
  lit : e.emode = .lit → 1 ≤ e.litLen.toNat ∧ e.litLen.toNat ≤ 128

theorem EncInv.countsLegal {cfg : Config} {e : Enc} (h : EncInv cfg e) : e.CountsLegal where
  run hm := by have := h.runLeft hm; omega
  lit hm := by
    obtain ⟨hpos, hmax, -⟩ := h.litOpen hm
    exact ⟨hpos, hmax⟩

/-- What a step may do to `ERR` when it raises nothing but CAPACITY. -/
def Enc.KeepsErrOrCapacity (e e' : Enc) : Prop := e'.err = e.err ∨ e'.err = 2

theorem encScan_err {s t : State} (h : encScan s = .next t) : s.enc.KeepsErrOrCapacity t.enc := by
  rw [encScan] at h
  split at h
  · cases h
    exact .inl rfl
  · split at h
    · cases h
    · cases h
    · split at h <;> cases h <;> exact .inl rfl

theorem encRun_err {s t : State} (hc : 1 ≤ min s.enc.runRem 128 ∧ min s.enc.runRem 128 ≤ 128)
    (h : encRun s = .next t) : s.enc.KeepsErrOrCapacity t.enc := by
  rw [encRun] at h
  split at h
  next he =>
    cases h
    rw [emitRecord_eq_raised hc he]
    exact .inr rfl
  · cases h
    exact .inl rfl

theorem encLitClose_err {s t : State} (hc : 1 ≤ s.enc.litLen.toNat ∧ s.enc.litLen.toNat ≤ 128)
    (h : encLitClose s = .next t) : s.enc.KeepsErrOrCapacity t.enc := by
  rw [encLitClose] at h
  split at h
  · cases h
  · split at h
    next he =>
      cases h
      rw [emitRecord_eq_raised hc he]
      exact .inr rfl
    · cases h
      exact .inl rfl

theorem encLit_err {s t : State} (hc : 1 ≤ s.enc.litLen.toNat ∧ s.enc.litLen.toNat ≤ 128)
    (h : encLit s = .next t) : s.enc.KeepsErrOrCapacity t.enc := by
  rw [encLit] at h
  split at h
  · cases h
  · cases h
    exact .inl rfl
  · exact encLitClose_err hc h

theorem encMove_err {s t : State} (hc : s.enc.CountsLegal) (h : encMove s = .next t) :
    s.enc.KeepsErrOrCapacity t.enc := by
  cases hm : s.enc.emode <;> simp only [encMove, hm] at h
  case scan => exact encScan_err h
  case run => exact encRun_err (hc.run hm) h
  case lit => exact encLit_err (hc.lit hm) h
  all_goals
    cases h
    exact .inl rfl

theorem EncInv.err_ne_one {cfg : Config} {e : Enc} (h : EncInv cfg e) : e.err ≠ 1 := by
  rw [h.errCode]
  split <;> decide

/-- Settles O41: with legal counts a step can only set `ERR` to 2. -/
theorem overflowIsNeverReached : Obligations.OverflowIsNeverReached := by
  unfold Obligations.OverflowIsNeverReached
  intro s hinv
  have hc := hinv.enc.countsLegal
  refine ⟨hc.run, hc.lit, fun t h => ?_⟩
  obtain hkept | hcap := encMove_err hc h
  · rw [hkept]
    exact hinv.enc.err_ne_one
  · rw [hcap]
    decide

/-! ## R142: the SCAN step -/

theorem encMove_scan {s : State} (h : s.enc.emode = .scan) : encMove s = encScan s := by
  rw [encMove, h]

/-- R61: `PixRead(i)` read from PIN. -/
theorem Enc.pixRead_eq {e : Enc} {base : Nat} {pin : List Pixel} (h : e.HoldsFrom base pin) {i : Nat} {p : Pixel}
    (hb : base ≤ i) (hp : pin[i]? = some p) : e.pixRead i = .ok p := by
  obtain ⟨hlt, -⟩ := List.getElem?_eq_some_iff.1 hp
  rw [h.length] at hlt
  exact (e.pixRead_eq_ok i p).2 ⟨hlt, (h.pixels i hlt hb).trans hp⟩

/-- R142: the step at `pos = N`. -/
theorem encScan_end {s : State} (h : s.enc.pos = s.enc.inLen) :
    encScan s = .next { s with enc := { s.enc with emode := .done } } := by
  rw [encScan, if_pos h]

/-- R142: the step below `N` chooses by the run at `pos`. -/
theorem encScan_pixel {s : State} {pin : List Pixel} {p : Pixel} (h : s.enc.HoldsFrom s.enc.pos pin)
    (hp : pin[s.enc.pos]? = some p) :
    encScan s =
      if 3 ≤ runLen pin s.enc.pos then
        .next { s with enc := { s.enc with runPix := p, runRem := runLen pin s.enc.pos, emode := .run } }
      else
        .next { s with enc := { s.enc with
          litStart := s.enc.pos, litLen := 1, pos := s.enc.pos + 1, emode := .lit } } := by
  obtain ⟨hlt, -⟩ := List.getElem?_eq_some_iff.1 hp
  rw [h.length] at hlt
  rw [encScan, if_neg hlt.ne, Enc.readRun_eq h _ le_rfl hlt, Enc.pixRead_eq h le_rfl hp]
  rfl

/-- Settles O29: the end, and the two choices of `encScan_pixel`. -/
theorem scanStepChooses : Obligations.ScanStepChooses := by
  unfold Obligations.ScanStepChooses
  intro s hm
  rw [encMove_scan hm]
  refine ⟨encScan_end, fun pin p h hp => ⟨fun hrun => ?_, fun hlit => ?_⟩⟩
  · rw [encScan_pixel h hp, if_pos hrun]
  · rw [encScan_pixel h hp, if_neg (Nat.not_le.2 hlit)]

end Sys2Proof.Machine
end

section
/-! PROOFS of the exceptions' family: an agent that is not BUSY keeps its state, `ERR` and `ERR_INFO` until its START
or its reset (R126, R187, R196). -/

namespace Sys2Proof.Machine

/-! ## What an agent reports of its last conversion -/

/-- R34, R35: an agent's state, `ERR` and `ERR_INFO`. -/
def State.report (ag : Agent) (s : State) : (DMode ⊕ EMode) × BitVec 2 × Nat :=
  match ag with
  | .dec => (.inl s.dec.dmode, s.dec.err, s.dec.errInfo)
  | .enc => (.inr s.enc.emode, s.enc.err, s.enc.errInfo)

/-- R34: the START field of an agent. -/
def State.startOf (ag : Agent) (s : State) : Bool :=
  match ag with
  | .dec => s.dec.start
  | .enc => s.enc.start

theorem State.report_dec_eq_iff (s t : State) : t.report .dec = s.report .dec ↔
    t.dec.dmode = s.dec.dmode ∧ t.dec.err = s.dec.err ∧ t.dec.errInfo = s.dec.errInfo := by
  simp only [State.report, Prod.mk.injEq, Sum.inl.injEq]

theorem State.report_enc_eq_iff (s t : State) : t.report .enc = s.report .enc ↔
    t.enc.emode = s.enc.emode ∧ t.enc.err = s.enc.err ∧ t.enc.errInfo = s.enc.errInfo := by
  simp only [State.report, Prod.mk.injEq, Sum.inr.injEq]

/-! ## The operations on one agent -/

theorem State.report_setStart (ag o : Agent) (v : Bool) (s : State) : (s.setStart o v).report ag = s.report ag := by
  cases ag <;> cases o <;> rfl

theorem State.report_setInLen (ag o : Agent) (n : Nat) (s : State) : (s.setInLen o n).report ag = s.report ag := by
  cases ag <;> cases o <;> rfl

theorem State.report_launch_of_ne {ag o : Agent} (h : o ≠ ag) (s : State) :
    (s.launch o).report ag = s.report ag := by
  cases ag <;> cases o
  case dec.dec | enc.enc => exact absurd rfl h
  all_goals rfl

theorem State.report_resetAgent_of_ne {ag o : Agent} (h : o ≠ ag) (s : State) :
    (s.resetAgent o).report ag = s.report ag := by
  cases ag <;> cases o
  case dec.dec | enc.enc => exact absurd rfl h
  all_goals rfl

/-! ## The moves -/

section

variable {ag : Agent} {s t : State}

theorem seeStart_report_of_ne {o : Agent} (hne : o ≠ ag) (h : seeStart o s = .next t) :
    t.report ag = s.report ag := by
  obtain ⟨-, hs⟩ | ⟨-, -, hs⟩ | ⟨-, -, hs⟩ := seeStart_cases o s
  · cases hs.symm.trans h
    exact State.report_setStart ag o false s
  · cases hs.symm.trans h
    exact State.report_launch_of_ne hne s
  · cases hs.symm.trans h

/-- Of the host's inputs only the agent's own reset changes what it reports at once. -/
theorem hostMove_report {c : HostCmd} (h : hostMove c s = .next t) :
    c = .reset ag ∨ t.report ag = s.report ag := by
  cases c with
  | reset o =>
    cases h
    obtain rfl | hne := eq_or_ne o ag
    · exact .inl rfl
    · exact .inr (State.report_resetAgent_of_ne hne s)
  | start o =>
    cases h
    exact .inr (State.report_setStart ag o true s)
  | writeInLen o n =>
    cases h
    split
    · exact .inr rfl
    · exact .inr (State.report_setInLen ag o n s)
  | writeIn i b =>
    rw [hostMove] at h
    split_ifs at h
    cases h
    cases ag <;> exact .inr rfl
  | writePin i p =>
    rw [hostMove] at h
    split_ifs at h
    cases h
    cases ag <;> exact .inr rfl

/-- DEC's moves do nothing to DEC outside a conversion (R126) and never anything to ENC (R112). -/
theorem decMove_report (hidle : s.busy ag = false) (h : decMove s = .next t) : t.report ag = s.report ag := by
  cases ag with
  | dec =>
    cases (decMove_idle s hidle).symm.trans h
    rfl
  | enc =>
    rw [(decMove_onlyDec h).others]
    rfl

/-- ENC's moves do nothing to ENC outside a conversion (R196) and never anything to DEC (R61). -/
theorem encMove_report (hidle : s.busy ag = false) (h : encMove s = .next t) : t.report ag = s.report ag := by
  cases ag with
  | dec =>
    rw [(encMove_onlyEnc h).others]
    rfl
  | enc =>
    cases (encMove_idle s hidle).symm.trans h
    rfl

theorem idleMove_report (hidle : s.busy ag = false) (h : idleMove s = .next t) : t.report ag = s.report ag := by
  rw [idleMove] at h
  split_ifs at h
  · exact decMove_report hidle h
  · exact encMove_report hidle h
  · cases h
    rfl

theorem doMove_report {m : Move} (hidle : s.busy ag = false) (h : doMove m s = .next t) :
    m = .host (.reset ag) ∨ t.report ag = s.report ag := by
  cases m with
  | host c => exact (hostMove_report h).imp_left (congrArg Move.host)
  | dec => exact .inr (decMove_report hidle h)
  | enc => exact .inr (encMove_report hidle h)

theorem State.busy_with_agenda (ag : Agent) (s : State) (l : List Move) :
    ({ s with agenda := l } : State).busy ag = s.busy ag := by
  cases ag <;> rfl

theorem State.report_with_agenda (ag : Agent) (s : State) (l : List Move) :
    ({ s with agenda := l } : State).report ag = s.report ag := by
  cases ag <;> rfl

/-- R126, R187, R196: an agent that is not BUSY reports the same after a step, unless its START was pulsed or the
host resets it in that step. -/
theorem step_report (hidle : s.busy ag = false) (h : step s = .next t) :
    t.report ag = s.report ag ∨ s.startOf ag = true ∨ ∃ rest, s.agenda = .host (.reset ag) :: rest := by
  obtain ⟨hstart, hs⟩ | ⟨-, hstart, hs⟩ | ⟨-, -, -, hs⟩ | ⟨m, rest, -, -, hag, hs⟩ := step_cases s <;> rw [hs] at h
  · cases ag with
    | dec => exact .inr (.inl hstart)
    | enc => exact .inl (seeStart_report_of_ne (by decide) h)
  · cases ag with
    | dec => exact .inl (seeStart_report_of_ne (by decide) h)
    | enc => exact .inr (.inl hstart)
  · exact .inl (idleMove_report hidle h)
  · obtain rfl | hkept := doMove_report ((State.busy_with_agenda ag s rest).trans hidle) h
    · exact .inr (.inr ⟨rest, hag⟩)
    · exact .inl (hkept.trans (State.report_with_agenda ag s rest))

end

/-- Settles O45: an agent in ERROR is not BUSY, so `step_report` holds of it. -/
theorem errorIsFinal : Obligations.ErrorIsFinal := by
  unfold Obligations.ErrorIsFinal
  refine ⟨fun s t h he => ?_, fun s t h he => ?_⟩
  · have hidle : s.busy .dec = false := by rw [State.busy_dec, Dec.busy, he]
    obtain hkept | hleaves := step_report hidle h
    · rw [State.report_dec_eq_iff, he] at hkept
      exact .inl hkept
    · exact .inr hleaves
  · have hidle : s.busy .enc = false := by rw [State.busy_enc, Enc.busy, he]
    obtain hkept | hleaves := step_report hidle h
    · rw [State.report_enc_eq_iff, he] at hkept
      exact .inl hkept
    · exact .inr hleaves

end Sys2Proof.Machine
end

section
/-! PROOFS of the reset and hazards family, first part: no value from one conversion affects a later one (R203). Two
launched agents make their moves side by side and agree after each of them in everything that a later move reads. -/

namespace Sys2Proof.Machine

/-! ## Two machines side by side -/

/-- Both outcomes are next states, and `R` relates them. -/
def BothNext (R : State → State → Prop) (o o' : Host.Outcome State Fault Refusal) : Prop :=
  ∃ t t', o = .next t ∧ o' = .next t' ∧ R t t'

/-- A relation that every pair of moves keeps is kept by any number of them. -/
theorem moves_bothNext {f : State → Host.Outcome State Fault Refusal} {R : State → State → Prop}
    (hstep : ∀ s s', R s s' → BothNext R (f s) (f s')) (k : Nat) {s s' : State} (h : R s s') :
    BothNext R (moves f k s) (moves f k s') := by
  induction k generalizing s s' with
  | zero => exact ⟨s, s', rfl, rfl, h⟩
  | succ k ih =>
    obtain ⟨t, t', ht, ht', hr⟩ := hstep s s' h
    rw [moves_succ ht, moves_succ ht']
    exact ih hr

theorem moves_fixed {f : State → Host.Outcome State Fault Refusal} {s : State} (h : f s = .next s) (k : Nat) :
    moves f k s = .next s := by
  induction k with
  | zero => rfl
  | succ k ih => rw [moves_succ h, ih]

/-! ## The record level: what R106's loop has after as many rounds -/

theorem Dec.busy_of_doneBit {d : Dec} (h : d.doneBit = true) : d.busy = false := by
  cases hm : d.dmode <;> simp [Dec.doneBit, hm] at h <;> rw [Dec.busy, hm]

theorem decMove_record {s : State} (h : s.cfg.level = .record) : decMove s = decRecordMove s := by rw [decMove, h]

theorem decMove_byte {s : State} (h : s.cfg.level = .byte) : decMove s = decByteMove s := by rw [decMove, h]

/-- R106: after `k` moves DEC shows what the loop has after `k` rounds. -/
theorem moves_decMove_record (k : Nat) {s : State} {inp : List Byte} {ip : Nat} {out : List Pixel}
    (hl : s.cfg.level = .record) (h : s.Boundary inp ip out) :
    ∃ t, moves decMove k s = .next t ∧ t.dec.observe = decodeLoop s.cfg.outCapPix inp k ip out := by
  induction k generalizing s ip out with
  | zero => exact ⟨s, rfl, h.observed⟩
  | succ k ih =>
    obtain ⟨t, hstep, hround⟩ := decRecordMove_round h
    rw [moves_succ ((decMove_record hl).trans hstep)]
    obtain ⟨hdone, hloop⟩ | ⟨ip', out', -, hcfg, h', hloop⟩ := hround
    · exact ⟨t, moves_fixed (decMove_idle t (Dec.busy_of_doneBit hdone)) k, hloop k⟩
    · obtain ⟨u, hu, hobs⟩ := ih (hcfg ▸ hl) h'
      exact ⟨u, hu, by rw [hobs, hloop, hcfg]⟩

/-! ## The byte level: agreement in the registers that are live -/

/-- R121: the lanes of `pixbuf` that the bytes of the current group have filled. -/
def Dec.filled (d : Dec) : List Byte := (pixelBytes d.pixbuf).take d.k.toNat

/-- R27: two decoders show the same, have the same bytes still to read, and agree in the registers that their state
reads before it writes them: `rem`, `k` and the filled lanes inside a group, `rem` and `pixbuf` in EXPAND. -/
structure Dec.Agrees (d d' : Dec) : Prop where
  observe : d.observe = d'.observe
  ahead : ∃ bs, d.Ahead bs ∧ d'.Ahead bs
  group : d.inGroup → d.rem = d'.rem ∧ d.k = d'.k ∧ d.filled = d'.filled
  expand : d.dmode = .expand → d.rem = d'.rem ∧ d.pixbuf = d'.pixbuf

/-- Two machines with the same parameters whose byte-level decoders agree. -/
structure State.DecAgrees (s s' : State) : Prop where
  cfg : s.cfg = s'.cfg
  level : s.cfg.level = .byte
  dec : s.dec.Agrees s'.dec

theorem Dec.observe_eq_iff (d d' : Dec) : d.observe = d'.observe ↔
    d.dmode = d'.dmode ∧ d.ip = d'.ip ∧ d.OUT = d'.OUT ∧ d.endKind = d'.endKind ∧ d.err = d'.err ∧
      d.errInfo = d'.errInfo := by
  simp only [Dec.observe, Decoded.mk.injEq]

/-- Outside a record every datapath register is dead. -/
theorem Dec.agrees_of_no_record {d d' : Dec} (hobs : d.observe = d'.observe) {bs : List Byte} (ha : d.Ahead bs)
    (ha' : d'.Ahead bs) (hm : d.dmode = .cmd ∨ d.busy = false) : d.Agrees d' := by
  refine ⟨hobs, ⟨bs, ha, ha'⟩, fun hg => ?_, fun he => ?_⟩
  · obtain hg | hg := hg <;> simp [Dec.busy, hg] at hm
  · simp [Dec.busy, he] at hm

/-- R121: the next of the first three lanes. -/
theorem take_pixelBytes_setLane (p : Pixel) {k : BitVec 2} (hk : k ≠ 3) (b : Byte) :
    (pixelBytes (setLane p k b)).take (k + 1).toNat = (pixelBytes p).take k.toNat ++ [b] := by
  obtain rfl | rfl | rfl : k = 0 ∨ k = 1 ∨ k = 2 := by decide +revert
  all_goals rfl

/-- R121: the last lane completes the pixel that the first three began. -/
theorem Dec.withLaneA_eq_of_filled {d d' : Dec} (hk : d.k = 3) (hk' : d'.k = 3) (h : d.filled = d'.filled) (b : Byte) :
    ({ d.pixbuf with a := b } : Pixel) = { d'.pixbuf with a := b } := by
  rw [Dec.filled, Dec.filled, hk, hk'] at h
  obtain ⟨hr, hg, hb⟩ : d.pixbuf.r = d'.pixbuf.r ∧ d.pixbuf.g = d'.pixbuf.g ∧ d.pixbuf.b = d'.pixbuf.b := by
    simpa [pixelBytes] using h
  simp only [hr, hg, hb]

section

variable {s s' : State} (h : s.DecAgrees s')
include h

/-- R122: the CMD step reads no datapath register. -/
theorem decByteMove_cmd_agrees (hm : s.dec.dmode = .cmd) :
    BothNext State.DecAgrees (decByteMove s) (decByteMove s') := by
  obtain ⟨hcfg, hlv, hobs, ⟨bs, ha, ha'⟩, -, -⟩ := h
  obtain ⟨hmode, hip, hout, hend, herr, hinfo⟩ := (Dec.observe_eq_iff ..).1 hobs
  have hm' := hmode.symm.trans hm
  cases bs with
  | nil =>
    refine ⟨_, _, decByteMove_cmd_end hm ha.at_end, decByteMove_cmd_end hm' ha'.at_end, hcfg, hlv, ?_⟩
    exact Dec.agrees_of_no_record (by simp [Dec.observe_eq_iff, *]) ha ha' (.inr rfl)
  | cons c bs =>
    have hc := cmdByte_of_fields c
    refine ⟨_, _, decByteMove_cmd hm (cmdCount_range c) (hc.symm ▸ ha),
      decByteMove_cmd hm' (cmdCount_range c) (hc.symm ▸ ha'), hcfg, hlv, ?_⟩
    refine ⟨by simp [Dec.observe_eq_iff, *], ⟨bs, ha.tail, ha'.tail⟩, fun _ => ⟨rfl, rfl, rfl⟩, fun he => ?_⟩
    cases hf : cmdFlag c <;> simp [hf] at he

/-- R123, R124: one of the first three bytes of a group fills the same lane in both. -/
theorem decByteMove_lane_agrees (hm : s.dec.inGroup) (hk3 : s.dec.k ≠ 3) {b : Byte} {bs : List Byte}
    (ha : s.dec.Ahead (b :: bs)) (ha' : s'.dec.Ahead (b :: bs)) :
    BothNext State.DecAgrees (decByteMove s) (decByteMove s') := by
  obtain ⟨hcfg, hlv, hobs, -, hgroup, -⟩ := h
  obtain ⟨hmode, hip, hout, hend, herr, hinfo⟩ := (Dec.observe_eq_iff ..).1 hobs
  obtain ⟨hrem, hk, hfilled⟩ := hgroup hm
  have hm' : s'.dec.inGroup := by rwa [Dec.inGroup, ← hmode]
  have hk3' : s'.dec.k ≠ 3 := hk ▸ hk3
  refine ⟨_, _, decByteMove_lane hm hk3 ha, decByteMove_lane hm' hk3' ha', hcfg, hlv, ?_⟩
  refine ⟨by simp [Dec.observe_eq_iff, *], ⟨bs, ha.tail, ha'.tail⟩, fun _ => ⟨hrem, congrArg (· + 1) hk, ?_⟩,
    fun he => ?_⟩
  · simp only [Dec.filled] at hfilled ⊢
    rw [take_pixelBytes_setLane _ hk3, take_pixelBytes_setLane _ hk3', hfilled]
  · obtain hg | hg := hm <;> cases hg.symm.trans he

/-- R123: the last byte of a RUN's group completes the same pixel in both. -/
theorem decByteMove_runpix_last_agrees (hm : s.dec.dmode = .runpix) (hk3 : s.dec.k = 3) {b : Byte} {bs : List Byte}
    (ha : s.dec.Ahead (b :: bs)) (ha' : s'.dec.Ahead (b :: bs)) :
    BothNext State.DecAgrees (decByteMove s) (decByteMove s') := by
  obtain ⟨hcfg, hlv, hobs, -, hgroup, -⟩ := h
  obtain ⟨hmode, hip, hout, hend, herr, hinfo⟩ := (Dec.observe_eq_iff ..).1 hobs
  obtain ⟨hrem, hk, hfilled⟩ := hgroup (.inl hm)
  have hk3' := hk.symm.trans hk3
  refine ⟨_, _, decByteMove_runpix_last hm hk3 ha,
    decByteMove_runpix_last (hmode.symm.trans hm) hk3' ha', hcfg, hlv, ?_⟩
  refine ⟨by simp [Dec.observe_eq_iff, *], ⟨bs, ha.tail, ha'.tail⟩, fun hg => ?_,
    fun _ => ⟨hrem, Dec.withLaneA_eq_of_filled hk3 hk3' hfilled b⟩⟩
  obtain hg | hg := hg <;> cases hg

/-- R124, R127: the last byte of a LIT's group completes the same pixel in both, which fits or does not. -/
theorem decByteMove_litpix_last_agrees (hm : s.dec.dmode = .litpix) (hk3 : s.dec.k = 3) {b : Byte} {bs : List Byte}
    (ha : s.dec.Ahead (b :: bs)) (ha' : s'.dec.Ahead (b :: bs)) :
    BothNext State.DecAgrees (decByteMove s) (decByteMove s') := by
  obtain ⟨hcfg, hlv, hobs, -, hgroup, -⟩ := h
  obtain ⟨hmode, hip, hout, hend, herr, hinfo⟩ := (Dec.observe_eq_iff ..).1 hobs
  obtain ⟨hrem, hk, hfilled⟩ := hgroup (.inr hm)
  have hm' := hmode.symm.trans hm
  have hk3' := hk.symm.trans hk3
  have hpix := Dec.withLaneA_eq_of_filled hk3 hk3' hfilled b
  cases he : emit s.cfg.outCapPix { s.dec.pixbuf with a := b } s.dec.OUT with
  | none =>
    refine ⟨_, _, decByteMove_litpix_last_over hm hk3 ha he,
      decByteMove_litpix_last_over hm' hk3' ha' (by rwa [← hcfg, ← hpix, ← hout]), hcfg, hlv, ?_⟩
    exact Dec.agrees_of_no_record (by simp [Dec.observe_eq_iff, *]) ha.tail ha'.tail (.inr rfl)
  | some out =>
    refine ⟨_, _, decByteMove_litpix_last hm hk3 ha he,
      decByteMove_litpix_last hm' hk3' ha' (by rwa [← hcfg, ← hpix, ← hout]), hcfg, hlv, ?_⟩
    refine ⟨by simp [Dec.observe_eq_iff, *], ⟨bs, ha.tail, ha'.tail⟩, fun _ => ⟨congrArg (· - 1) hrem, rfl, rfl⟩,
      fun he => ?_⟩
    dsimp only at he
    split at he <;> cases he

/-- R123, R124: a step inside a group, at the input's end, at one of the first three lanes or at the last. -/
theorem decByteMove_group_agrees (hm : s.dec.inGroup) :
    BothNext State.DecAgrees (decByteMove s) (decByteMove s') := by
  obtain ⟨bs, ha, ha'⟩ := h.dec.ahead
  obtain ⟨hmode, hip, hout, hend, herr, hinfo⟩ := (Dec.observe_eq_iff ..).1 h.dec.observe
  cases bs with
  | nil =>
    have hm' : s'.dec.inGroup := by rwa [Dec.inGroup, ← hmode]
    refine ⟨_, _, decByteMove_cut_end hm ha.at_end, decByteMove_cut_end hm' ha'.at_end, h.cfg, h.level, ?_⟩
    exact Dec.agrees_of_no_record (by simp [Dec.observe_eq_iff, *]) ha ha' (.inr rfl)
  | cons b bs =>
    by_cases hk3 : s.dec.k = 3
    · obtain hrun | hlit := hm
      · exact decByteMove_runpix_last_agrees h hrun hk3 ha ha'
      · exact decByteMove_litpix_last_agrees h hlit hk3 ha ha'
    · exact decByteMove_lane_agrees h hm hk3 ha ha'

/-- R125: the EXPAND step, which reads `rem` and `pixbuf`. -/
theorem decByteMove_expand_agrees (hm : s.dec.dmode = .expand) :
    BothNext State.DecAgrees (decByteMove s) (decByteMove s') := by
  obtain ⟨hcfg, hlv, hobs, ⟨bs, ha, ha'⟩, -, hexpand⟩ := h
  obtain ⟨hmode, hip, hout, hend, herr, hinfo⟩ := (Dec.observe_eq_iff ..).1 hobs
  obtain ⟨hrem, hpix⟩ := hexpand hm
  have hm' := hmode.symm.trans hm
  cases he : emit s.cfg.outCapPix s.dec.pixbuf s.dec.OUT with
  | none =>
    refine ⟨_, _, decByteMove_expand_over hm he,
      decByteMove_expand_over hm' (by rwa [← hcfg, ← hpix, ← hout]), hcfg, hlv, ?_⟩
    exact Dec.agrees_of_no_record (by simp [Dec.observe_eq_iff, *]) ha ha' (.inr rfl)
  | some out =>
    refine ⟨_, _, decByteMove_expand hm he,
      decByteMove_expand hm' (by rwa [← hcfg, ← hpix, ← hout]), hcfg, hlv, ?_⟩
    refine ⟨by simp [Dec.observe_eq_iff, *], ⟨bs, ha, ha'⟩, fun hg => ?_, fun _ => ⟨congrArg (· - 1) hrem, hpix⟩⟩
    obtain hg | hg := hg <;> dsimp only at hg <;> split at hg <;> cases hg

/-- R203: agreeing byte-level decoders make agreeing moves. -/
theorem decMove_byte_agrees : BothNext State.DecAgrees (decMove s) (decMove s') := by
  have hmode : s.dec.dmode = s'.dec.dmode := ((Dec.observe_eq_iff ..).1 h.dec.observe).1
  rw [decMove_byte h.level, decMove_byte (h.cfg ▸ h.level)]
  cases hm : s.dec.dmode
  case cmd => exact decByteMove_cmd_agrees h hm
  case runpix => exact decByteMove_group_agrees h (.inl hm)
  case litpix => exact decByteMove_group_agrees h (.inr hm)
  case expand => exact decByteMove_expand_agrees h hm
  all_goals exact ⟨s, s', by rw [decByteMove, hm], by rw [decByteMove, ← hmode, hm], h⟩

end

theorem State.Boundary.ahead_ip {s : State} {inp : List Byte} {ip : Nat} {out : List Pixel}
    (h : s.Boundary inp ip out) : s.dec.Ahead (inp.drop ip) := by
  have hip : s.dec.ip = ip := congrArg Decoded.ip h.observed
  rw [Dec.Ahead, hip]
  exact h.ahead

/-- R203: at a boundary of one conversion two decoders show the same from there on: at the record level what R106's loop
has, and at the byte level because they agree move by move. -/
theorem moves_decMove_boundary {s s' : State} {inp : List Byte} {ip : Nat} {out : List Pixel} (hcfg : s.cfg = s'.cfg)
    (h : s.Boundary inp ip out) (h' : s'.Boundary inp ip out) (k : Nat) :
    BothNext (fun t t' => t.dec.observe = t'.dec.observe) (moves decMove k s) (moves decMove k s') := by
  cases hl : s.cfg.level with
  | record =>
    obtain ⟨t, ht, hobs⟩ := moves_decMove_record k hl h
    obtain ⟨t', ht', hobs'⟩ := moves_decMove_record k (hcfg ▸ hl) h'
    exact ⟨t, t', ht, ht', hobs.trans (by rw [hobs', hcfg])⟩
  | byte =>
    have hm : s.dec.dmode = .cmd := congrArg Decoded.dmode h.observed
    have hagree : s.dec.Agrees s'.dec :=
      Dec.agrees_of_no_record (h.observed.trans h'.observed.symm) h.ahead_ip h'.ahead_ip (.inl hm)
    obtain ⟨t, t', ht, ht', ha⟩ := moves_bothNext (fun _ _ => decMove_byte_agrees) k ⟨hcfg, hl, hagree⟩
    exact ⟨t, t', ht, ht', ha.dec.observe⟩

end Sys2Proof.Machine
end

section
/-! PROOFS of the reset and hazards family, second part: two encoders that agree in what a later move reads, and R203
for both agents. -/

namespace Sys2Proof.Machine

/-! ## Two encoders side by side -/

/-- R31: two encoders show the same, hold the same pixels, and agree in the registers that their state reads before it
writes them: `runPix` and `runRem` in RUN, `litStart` and `litLen` in LIT. What is left of the run, or is open of the
block, lies inside the input, so no read fails (R61). -/
structure Enc.Agrees (pin : List Pixel) (e e' : Enc) : Prop where
  observe : e.observe = e'.observe
  holds : e.HoldsFrom 0 pin
  holds' : e'.HoldsFrom 0 pin
  posInRange : e.pos ≤ e.inLen
  run : e.emode = .run → e.runPix = e'.runPix ∧ e.runRem = e'.runRem ∧ e.pos + e.runRem ≤ e.inLen
  lit : e.emode = .lit → e.litStart = e'.litStart ∧ e.litLen = e'.litLen ∧
    (1 ≤ e.litLen.toNat ∧ e.litLen.toNat ≤ 128) ∧ e.litStart + e.litLen.toNat = e.pos

/-- Two machines with the same parameters whose encoders agree. -/
structure State.EncAgrees (pin : List Pixel) (s s' : State) : Prop where
  cfg : s.cfg = s'.cfg
  enc : s.enc.Agrees pin s'.enc

theorem Enc.observe_eq_iff (e e' : Enc) : e.observe = e'.observe ↔
    e.emode = e'.emode ∧ e.pos = e'.pos ∧ e.BOUT = e'.BOUT ∧ e.err = e'.err ∧ e.errInfo = e'.errInfo := by
  simp only [Enc.observe, Encoded.mk.injEq]

/-- Outside RUN and LIT the four working registers are dead. -/
theorem Enc.agrees_of_no_record {pin : List Pixel} {e e' : Enc} (hobs : e.observe = e'.observe)
    (hh : e.HoldsFrom 0 pin) (hh' : e'.HoldsFrom 0 pin) (hpos : e.pos ≤ e.inLen)
    (hm : e.emode = .scan ∨ e.busy = false) : e.Agrees pin e' := by
  refine ⟨hobs, hh, hh', hpos, fun hr => ?_, fun hl => ?_⟩
  · simp [Enc.busy, hr] at hm
  · simp [Enc.busy, hl] at hm

theorem Enc.HoldsFrom.mono {e : Enc} {base base' : Nat} {pin : List Pixel} (h : e.HoldsFrom base pin)
    (hle : base ≤ base') : e.HoldsFrom base' pin :=
  ⟨h.length, fun j hj hb => h.pixels j hj (hle.trans hb)⟩

section

variable {pin : List Pixel} {s s' : State} (h : s.EncAgrees pin s')
include h

/-- R142: the SCAN step reads no working register. -/
theorem encScan_agrees : BothNext (State.EncAgrees pin) (encScan s) (encScan s') := by
  obtain ⟨hcfg, hobs, hh, hh', hpos, -, -⟩ := h
  obtain ⟨hmode, hp, hout, herr, hinfo⟩ := (Enc.observe_eq_iff ..).1 hobs
  have hlen := hh.length
  have hlen' := hh'.length
  obtain hend | hlt := hpos.eq_or_lt
  · refine ⟨_, _, encScan_end hend, encScan_end (by omega), hcfg, ?_⟩
    exact Enc.agrees_of_no_record (by simp [Enc.observe_eq_iff, *]) ⟨hlen, hh.pixels⟩ ⟨hlen', hh'.pixels⟩
      hpos (.inr rfl)
  · have hpix : pin[s.enc.pos]? = some (pin[s.enc.pos]'(by omega)) := List.getElem?_eq_getElem _
    have hrun := runLen_le pin s.enc.pos
    rw [encScan_pixel (hh.mono (Nat.zero_le _)) hpix,
      encScan_pixel (hh'.mono (Nat.zero_le _)) (show pin[s'.enc.pos]? = _ by rw [← hp, hpix]), ← hp]
    split
    · refine ⟨_, _, rfl, rfl, hcfg, by simp [Enc.observe_eq_iff, *], ⟨hlen, hh.pixels⟩, ⟨hlen', hh'.pixels⟩, hpos,
        fun _ => ⟨rfl, rfl, ?_⟩, fun hl => by cases hl⟩
      show s.enc.pos + runLen pin s.enc.pos ≤ s.enc.inLen
      omega
    · exact ⟨_, _, rfl, rfl, hcfg, by simp [Enc.observe_eq_iff, *], ⟨hlen, hh.pixels⟩, ⟨hlen', hh'.pixels⟩, hlt,
        (fun hr => by cases hr), fun _ => ⟨rfl, rfl, (show 1 ≤ (1#8).toNat ∧ (1#8).toNat ≤ 128 by decide), rfl⟩⟩

/-- R143: the RUN step reads `runPix` and `runRem`. -/
theorem encRun_agrees (hm : s.enc.emode = .run) : BothNext (State.EncAgrees pin) (encRun s) (encRun s') := by
  obtain ⟨hcfg, hobs, hh, hh', hpos, hrun, -⟩ := h
  obtain ⟨hmode, hp, hout, herr, hinfo⟩ := (Enc.observe_eq_iff ..).1 hobs
  obtain ⟨hpix, hrem, hle⟩ := hrun hm
  simp only [encRun, ← hcfg, ← hpix, ← hrem, ← hp, ← hout]
  split
  next ev he =>
    refine ⟨_, _, rfl, rfl, hcfg, ?_⟩
    exact Enc.agrees_of_no_record (by simp [Enc.observe_eq_iff, *]) ⟨hh.length, hh.pixels⟩ ⟨hh'.length, hh'.pixels⟩ hpos
      (.inr rfl)
  next bout he =>
    refine ⟨_, _, rfl, rfl, rfl, by simp [Enc.observe_eq_iff, *], ⟨hh.length, hh.pixels⟩, ⟨hh'.length, hh'.pixels⟩,
      ?_, fun _ => ⟨rfl, rfl, ?_⟩, fun hl => ?_⟩
    case refine_3 =>
      dsimp only at hl
      split at hl <;> cases hl
    all_goals
      dsimp only
      omega

/-- R144: closing the block reads `litStart` and `litLen`. -/
theorem encLitClose_agrees (hm : s.enc.emode = .lit) :
    BothNext (State.EncAgrees pin) (encLitClose s) (encLitClose s') := by
  obtain ⟨hcfg, hobs, hh, hh', hpos, -, hlit⟩ := h
  obtain ⟨hmode, hp, hout, herr, hinfo⟩ := (Enc.observe_eq_iff ..).1 hobs
  obtain ⟨hstart, hn, hcount, hblock⟩ := hlit hm
  have hlen := hh.length
  have hlen' := hh'.length
  rw [encLitClose, encLitClose, Enc.litBlock_eq hh (Nat.zero_le _) hcount (by omega),
    Enc.litBlock_eq hh' (Nat.zero_le _) (hn ▸ hcount) (by rw [← hstart, ← hn]; omega)]
  simp only [← hcfg, ← hstart, ← hn, ← hp, ← hout]
  split
  · refine ⟨_, _, rfl, rfl, hcfg, ?_⟩
    exact Enc.agrees_of_no_record (by simp [Enc.observe_eq_iff, *]) ⟨hlen, hh.pixels⟩ ⟨hlen', hh'.pixels⟩
      hpos (.inr rfl)
  · refine ⟨_, _, rfl, rfl, rfl, ?_⟩
    exact Enc.agrees_of_no_record (by simp [Enc.observe_eq_iff, *]) ⟨hlen, hh.pixels⟩ ⟨hlen', hh'.pixels⟩
      hpos (.inl rfl)

/-- R144: whether the block extends depends on `litLen` and the window at `pos`. -/
theorem encLit_agrees (hm : s.enc.emode = .lit) : BothNext (State.EncAgrees pin) (encLit s) (encLit s') := by
  have hclose := encLitClose_agrees h hm
  obtain ⟨hcfg, hobs, hh, hh', hpos, -, hlit⟩ := h
  obtain ⟨hmode, hp, hout, herr, hinfo⟩ := (Enc.observe_eq_iff ..).1 hobs
  obtain ⟨hstart, hn, hcount, hblock⟩ := hlit hm
  rw [encLit, encLit, Enc.litExtends_eq hh (Nat.zero_le _), Enc.litExtends_eq hh' (Nat.zero_le _), ← hn, ← hp]
  by_cases hext : s.enc.litLen.toNat < maxCount ∧ s.enc.pos < pin.length ∧ runLenW pin s.enc.pos < threshold
  · rw [decide_eq_true hext]
    obtain ⟨hroom, hlt, -⟩ := hext
    have hlen := hh.length
    have hmax : maxCount = 128 := rfl
    have hm' := hmode.symm.trans hm
    have hnext : (s.enc.litLen + 1).toNat = s.enc.litLen.toNat + 1 := by bv_omega
    refine ⟨_, _, rfl, rfl, hcfg, by simp [Enc.observe_eq_iff, *], ⟨hh.length, hh.pixels⟩, ⟨hh'.length, hh'.pixels⟩,
      ?_, fun hr => ?_, fun _ => ⟨hstart, rfl, ?_, ?_⟩⟩
    case refine_2 => cases hm.symm.trans hr
    all_goals
      dsimp only
      omega
  · rw [decide_eq_false hext]
    exact hclose

/-- R203: agreeing encoders make agreeing moves. -/
theorem encMove_agrees : BothNext (State.EncAgrees pin) (encMove s) (encMove s') := by
  have hmode : s.enc.emode = s'.enc.emode := ((Enc.observe_eq_iff ..).1 h.enc.observe).1
  rw [encMove, encMove, ← hmode]
  cases hm : s.enc.emode
  case scan => exact encScan_agrees h
  case run => exact encRun_agrees h hm
  case lit => exact encLit_agrees h hm
  all_goals exact ⟨s, s', rfl, rfl, h⟩

end

/-! ## R203: two launches of one input -/

/-- R204: a launch has its whole input. -/
theorem exists_range_of_launchOk_dec {s : State} (h : s.launchOk .dec = true) :
    ∃ inp, Buffer.range s.dec.IN 0 s.dec.inLen = some inp := by
  simp only [State.launchOk, Bool.and_eq_true] at h
  exact Buffer.range_of_full h.2 0 _ (Nat.zero_add _).le

theorem exists_range_of_launchOk_enc {s : State} (h : s.launchOk .enc = true) :
    ∃ pin, Buffer.range s.enc.PIN 0 s.enc.inLen = some pin := by
  simp only [State.launchOk, Bool.and_eq_true] at h
  exact Buffer.range_of_full h.2 0 _ (Nat.zero_add _).le

/-- R39: what START leaves of DEC, whatever it was. -/
theorem launch_dec_boundary {s : State} {inp : List Byte} (h : Buffer.range s.dec.IN 0 s.dec.inLen = some inp) :
    (s.launch .dec).Boundary inp 0 [] :=
  boundary_of_atStart ⟨rfl, rfl, rfl, rfl, rfl, rfl, h⟩

/-- R40: what START leaves of ENC, whatever it was. -/
theorem launch_enc_agrees {s s' : State} (hcfg : s.cfg = s'.cfg) (hPIN : s.enc.PIN = s'.enc.PIN)
    (hlen : s.enc.inLen = s'.enc.inLen) {pin : List Pixel} (h : Buffer.range s.enc.PIN 0 s.enc.inLen = some pin) :
    (s.launch .enc).EncAgrees pin (s'.launch .enc) where
  cfg := hcfg
  enc := by
    have h' : Buffer.range s'.enc.PIN 0 s'.enc.inLen = some pin := by rwa [← hPIN, ← hlen]
    exact Enc.agrees_of_no_record rfl (Enc.holdsFrom_of_range (e := s.enc.afterStart _) h 0)
      (Enc.holdsFrom_of_range (e := s'.enc.afterStart _) h' 0) (Nat.zero_le _) (.inl rfl)

/-- Settles O47: two launches of DEC are at the same boundary, and two launches of ENC agree. -/
theorem nothingPersists : Obligations.NothingPersists := by
  unfold Obligations.NothingPersists
  refine ⟨fun s s' k hcfg hIN hlen hok => ?_, fun s s' k hcfg hPIN hlen hok => ?_⟩
  · obtain ⟨inp, hin⟩ := exists_range_of_launchOk_dec hok
    exact moves_decMove_boundary (s := s.launch .dec) (s' := s'.launch .dec) hcfg (launch_dec_boundary hin)
      (launch_dec_boundary (hIN ▸ hlen ▸ hin)) k
  · obtain ⟨pin, hin⟩ := exists_range_of_launchOk_enc hok
    obtain ⟨t, t', ht, ht', hagree⟩ :=
      moves_bothNext (fun _ _ => encMove_agrees) k (launch_enc_agrees hcfg hPIN hlen hin)
    exact ⟨t, t', ht, ht', hagree.enc.observe⟩

end Sys2Proof.Machine
end

section
/-! PROOFS of the reset and hazards family, third part: the input is stable while BUSY (R205), and a START while BUSY
has no effect (R202). -/

namespace Sys2Proof.Machine

/-! ## R205: the input while BUSY -/

/-- R60, R61: the input buffer of an agent. -/
def State.inputOf (ag : Agent) (s : State) : Memory ⊕ Buffer Pixel :=
  match ag with
  | .dec => .inl s.dec.IN
  | .enc => .inr s.enc.PIN

section

variable {ag : Agent} {s t : State}

theorem seeStart_inputOf {o : Agent} (h : seeStart o s = .next t) : t.inputOf ag = s.inputOf ag := by
  obtain ⟨-, hs⟩ | ⟨-, -, hs⟩ | ⟨-, -, hs⟩ := seeStart_cases o s <;> cases hs.symm.trans h
  all_goals cases o <;> cases ag <;> rfl

/-- R205: of the host's inputs only a buffer write could change the buffer, and while BUSY it is refused. -/
theorem hostMove_inputOf {c : HostCmd} (hbusy : s.busy ag = true) (h : hostMove c s = .next t) :
    t.inputOf ag = s.inputOf ag := by
  cases c with
  | reset o =>
    cases h
    cases o <;> cases ag <;> rfl
  | start o =>
    cases h
    cases o <;> cases ag <;> rfl
  | writeInLen o n =>
    cases h
    split
    · rfl
    · cases o <;> cases ag <;> rfl
  | writeIn i b =>
    rw [hostMove] at h
    split_ifs at h with hb
    cases h
    cases ag with
    | dec => exact absurd hbusy hb
    | enc => rfl
  | writePin i p =>
    rw [hostMove] at h
    split_ifs at h with hb
    cases h
    cases ag with
    | dec => rfl
    | enc => exact absurd hbusy hb

theorem decMove_inputOf (h : decMove s = .next t) : t.inputOf ag = s.inputOf ag := by
  cases ag with
  | dec => exact congrArg Sum.inl (decMove_onlyDec h).IN
  | enc =>
    rw [(decMove_onlyDec h).others]
    rfl

theorem encMove_inputOf (h : encMove s = .next t) : t.inputOf ag = s.inputOf ag := by
  cases ag with
  | dec =>
    rw [(encMove_onlyEnc h).others]
    rfl
  | enc => exact congrArg Sum.inr (encMove_onlyEnc h).PIN

theorem idleMove_inputOf (h : idleMove s = .next t) : t.inputOf ag = s.inputOf ag := by
  rw [idleMove] at h
  split_ifs at h
  · exact decMove_inputOf h
  · exact encMove_inputOf h
  · cases h
    rfl

theorem doMove_inputOf {m : Move} (hbusy : s.busy ag = true) (h : doMove m s = .next t) :
    t.inputOf ag = s.inputOf ag := by
  cases m with
  | host c => exact hostMove_inputOf hbusy h
  | dec => exact decMove_inputOf h
  | enc => exact encMove_inputOf h

theorem State.inputOf_with_agenda (ag : Agent) (s : State) (l : List Move) :
    ({ s with agenda := l } : State).inputOf ag = s.inputOf ag := by
  cases ag <;> rfl

/-- R205: a step beside a BUSY agent leaves the agent's input buffer as it was. -/
theorem step_inputOf (hbusy : s.busy ag = true) (h : step s = .next t) : t.inputOf ag = s.inputOf ag := by
  obtain ⟨-, hs⟩ | ⟨-, -, hs⟩ | ⟨-, -, -, hs⟩ | ⟨m, rest, -, -, -, hs⟩ := step_cases s <;> rw [hs] at h
  · exact seeStart_inputOf h
  · exact seeStart_inputOf h
  · exact idleMove_inputOf h
  · have hkept := doMove_inputOf ((State.busy_with_agenda ag s rest).trans hbusy) h
    exact hkept.trans (State.inputOf_with_agenda ag s rest)

theorem hostMove_writeInLen_busy (hbusy : s.busy ag = true) (v : Nat) : hostMove (.writeInLen ag v) s = .next s := by
  rw [hostMove, if_pos hbusy]

end

/-- Settles O52: no step writes the buffer, and the host's two writes are ignored and refused. -/
theorem inputIsStableWhileBusy : Obligations.InputIsStableWhileBusy := by
  unfold Obligations.InputIsStableWhileBusy
  refine ⟨fun s hb => ⟨fun t h => ?_, hostMove_writeInLen_busy (ag := .dec) hb, fun i b => ?_⟩,
    fun s hb => ⟨fun t h => ?_, hostMove_writeInLen_busy (ag := .enc) hb, fun i p => ?_⟩⟩
  · exact Sum.inl.inj (step_inputOf (ag := .dec) hb h)
  · rw [hostMove, if_pos hb]
  · exact Sum.inr.inj (step_inputOf (ag := .enc) hb h)
  · rw [hostMove, if_pos hb]

/-! ## R202: START while BUSY -/

theorem seeStart_busy {ag : Agent} {s : State} (h : s.busy ag = true) :
    seeStart ag s = .next (s.setStart ag false) := by
  rw [seeStart, if_pos h]

/-- Settles O50: the pulse is seen before anything else moves, and only cleared. -/
theorem startWhileBusyHasNoEffect : Obligations.StartWhileBusyHasNoEffect := by
  unfold Obligations.StartWhileBusyHasNoEffect
  refine ⟨fun s hstart hb => ?_, fun s hdec hstart hb => ?_⟩
  · rw [step, blockMove, if_pos hstart]
    exact seeStart_busy (ag := .dec) hb
  · rw [step, blockMove, hdec, if_neg Bool.false_ne_true, if_pos hstart]
    exact seeStart_busy (ag := .enc) hb

end Sys2Proof.Machine
end

section
/-! PROOFS of the other statements, first part: the encoding. A record and its bytes determine each other (R80, R87),
`RUNS` spells its chunks (R91), and a listing spells its lines (R90, R92). -/

namespace Sys2Proof

/-- Settles O3: `decode_encode_append` for whole records and `decode_encode` for the others. -/
theorem decodeOfEncodeGivesTheRecordBack : Obligations.DecodeOfEncodeGivesTheRecordBack := by
  unfold Obligations.DecodeOfEncodeGivesTheRecordBack
  exact ⟨fun i rest hw => decode_encode_append (fetchable_of_wellFormed hw) (by simp [hw]),
    fun i hf => decode_encode hf⟩

/-- Settles O4: the bytes are the record's and a rest, and there is no rest behind a record cut off. -/
theorem encodeOfDecodeGivesTheBytesBack : Obligations.EncodeOfDecodeGivesTheBytesBack := by
  unfold Obligations.EncodeOfDecodeGivesTheBytesBack
  intro bs i hd
  obtain ⟨hf, rest, rfl, hr⟩ := decode_eq_ok hd
  refine ⟨hf, ?_⟩
  cases hw : i.wellFormed with
  | true => rw [← encode_length_of_wellFormed hw, List.take_left]
  | false => rw [hr hw, List.append_nil, List.take_of_length_le (encode_length_le_size hf)]

/-- Settles O2, by running `decode` on the bytes of the vectors. -/
theorem specWordsDecodeToTheirRecords : Obligations.SpecWordsDecodeToTheirRecords := by
  unfold Obligations.SpecWordsDecodeToTheirRecords
  exact ⟨rfl, rfl, rfl, rfl, rfl, rfl, rfl, rfl⟩

end Sys2Proof

namespace Sys2Proof.Machine

/-- Settles O7: the records of `RUNS`, by `runsRecords_spec`. -/
theorem runsExpandsToItsChunks : Obligations.RunsExpandsToItsChunks := by
  unfold Obligations.RunsExpandsToItsChunks
  intro len p hlen
  obtain ⟨hwf, hexp⟩ := runsRecords_spec len p
  exact ⟨runsRecords len p, by rw [lineRecords, if_pos hlen], hwf, rfl, hexp⟩

/-! ## Listings -/

/-- R90: a listing that starts with whole records. -/
theorem assemble_records_append {rs : List Instr} (h : ∀ i ∈ rs, i.wellFormed = true) (ls : List AsmLine) :
    assemble (rs.map .record ++ ls) = (assemble ls).map (rs.flatMap encode ++ ·) := by
  induction rs with
  | nil => simp
  | cons i rs ih =>
    obtain ⟨hi, hrs⟩ := List.forall_mem_cons.1 h
    rw [List.map_cons, List.cons_append, assemble_record i _ hi, ih hrs, Option.map_map]
    simp [Function.comp_def]

/-- R92: a record cut off is left over. -/
theorem cutOff_encode {i : Instr} (hf : i.fetchable = true) (hw : i.wellFormed = false) : cutOff (encode i) = true := by
  simp [cutOff, decode_encode hf, hw]

/-- R92: the line of a truncated record ends the listing. -/
theorem assemble_truncated {bs : List Byte} (h : cutOff bs = true) : assemble [.truncated bs] = some bs := by
  simp [assemble, lineRecords, lineLeftOver, h]

/-- Log 17: bytes left over that are no record cut off, or that have more bytes behind them, are refused. -/
theorem assemble_truncated_cons {bs t : List Byte} {after : List AsmLine} (ha : assemble after = some t)
    (h : t ≠ [] ∨ cutOff bs = false) : assemble (.truncated bs :: after) = none := by
  cases hc : cutOff bs with
  | false => simp [assemble, lineRecords, lineLeftOver, hc]
  | true =>
    have ht : t ≠ [] := h.resolve_right (by simp [hc])
    simp [assemble, lineRecords, lineLeftOver, hc, ha, ht, cutOff_ne_nil hc]

/-- Settles O56, line by line. -/
theorem listingSpellsItsBytes : Obligations.ListingSpellsItsBytes := by
  unfold Obligations.ListingSpellsItsBytes
  refine ⟨fun rs h => ⟨?_, fun last hf hw => ?_⟩, fun k ls => ?_, fun i before after hw => ?_,
    fun bs t before after ha h => ?_⟩
  · simpa [assemble] using assemble_records_append h []
  · rw [assemble_records_append h, assemble_truncated (cutOff_encode hf hw)]
    rfl
  · cases hl : assemble ls <;> simp [assemble, lineRecords, lineLeftOver, hl]
  · exact assemble_refused_append before _ (by simp [assemble, lineRecords, hw])
  · exact assemble_refused_append before _ (assemble_truncated_cons ha h)

end Sys2Proof.Machine
end

section
/-! PROOFS of the other statements, second part: the records' effects on the whole state (R103, R104) and what they
leave unchanged (R112, R185). -/

namespace Sys2Proof.Machine

/-- Settles O8: nothing of a RUN cut off is emitted, and of a whole one the copies that fit. -/
theorem runRecordEffect : Obligations.RunRecordEffect := by
  unfold Obligations.RunRecordEffect
  intro n p cut s h1 h128
  refine ⟨execRun_none n cut s, fun hfit => ?_, fun c hc hover => ?_⟩
  · rw [execRun_whole cut ((s.dec.withRunPixel n p).emitCopies_fits s.cfg.outCapPix p n hfit)]
    simp [Dec.withRunPixel, Dec.latch]
  · have he := (s.dec.withRunPixel n p).emitCopies_over c p n hover h1
    rw [← hc] at he
    rw [execRun_over cut he, ← rem_ofNat_sub n (c - s.dec.OUT.length) (by omega)]
    rfl

/-- Settles O9: the groups that are there are emitted while they fit. -/
theorem litRecordEffect : Obligations.LitRecordEffect := by
  unfold Obligations.LitRecordEffect
  intro n ps cut s h1 h128 hps
  refine ⟨fun hfit heq => ?_, fun hfit hlt => ?_, fun c p hc hp => ?_⟩
  · rw [execLit_whole cut heq.ge (Dec.emitGroups_fits _ _ _ _ hfit), heq]
    simp [Dec.latch]
  · rw [execLit_cut cut hlt (Dec.emitGroups_fits _ _ _ _ hfit), ← rem_ofNat_sub n ps.length hps]
    rfl
  · obtain ⟨hlt, -⟩ := List.getElem?_eq_some_iff.1 hp
    have he := (s.dec.latch false n).emitGroups_over c ps p (s.dec.ip + 1) hp
    rw [← hc] at he
    rw [execLit_over cut he, ← rem_ofNat_sub n (c - s.dec.OUT.length) (by omega)]
    rfl

/-- R103, R104, R183: after a record DEC's status is what it was, or says truncation, or says CAPACITY. -/
def Dec.StatusAfterRecord (d d' : Dec) : Prop :=
  (d'.dmode = d.dmode ∧ d'.endKind = d.endKind ∧ d'.err = d.err ∧ d'.errInfo = d.errInfo) ∨
    (d'.dmode = .done ∧ d'.endKind = .truncated ∧ d'.err = d.err ∧ d'.errInfo = d.errInfo) ∨
    (d'.dmode = .error ∧ d'.endKind = d.endKind ∧ d'.err = 2 ∧ d'.errInfo = d'.ip)

namespace Dec.SameButOutput

variable {d d' : Dec} (h : d.SameButOutput d')
include h

/-- All pixels fitted, and the next record follows at `a`. -/
theorem status_next (a : Nat) : d.StatusAfterRecord { d' with ip := a } :=
  .inl ⟨h.dmode, h.endKind, h.err, h.errInfo⟩

/-- The input ended inside the record. -/
theorem status_endTruncated (cut : List Byte) : d.StatusAfterRecord (d'.endTruncated cut) :=
  .inr (.inl ⟨rfl, rfl, h.err, h.errInfo⟩)

/-- A pixel did not fit. -/
theorem status_capacity (a : Nat) : d.StatusAfterRecord (d'.take (.capacity a)) :=
  .inr (.inr ⟨rfl, h.endKind, rfl, rfl⟩)

end Dec.SameButOutput

theorem exec_statusAfterRecord {i : Instr} {s t : State} (h : exec i s = .next t) :
    s.dec.StatusAfterRecord t.dec := by
  match i with
  | .run n none cut =>
    cases (execRun_none n cut s).symm.trans h
    exact (Dec.SameButOutput.refl _).status_endTruncated cut
  | .run n (some p) cut =>
    rcases he : (s.dec.withRunPixel n p).emitCopies s.cfg.outCapPix p n with ⟨d', fit⟩
    have hsame := Dec.emitCopies_same he
    cases fit with
    | true =>
      cases (execRun_whole cut he).symm.trans h
      exact hsame.status_next _
    | false =>
      cases (execRun_over cut he).symm.trans h
      exact hsame.status_capacity _
  | .lit n ps cut =>
    rcases he : (s.dec.latch false n).emitGroups s.cfg.outCapPix ps (s.dec.ip + 1) with ⟨d', missed⟩
    have hsame := Dec.emitGroups_same he
    cases missed with
    | some e =>
      cases (execLit_over cut he).symm.trans h
      exact hsame.status_capacity _
    | none =>
      obtain hlt | hge := Nat.lt_or_ge ps.length n
      · cases (execLit_cut cut hlt he).symm.trans h
        exact hsame.status_endTruncated cut
      · cases (execLit_whole cut hge he).symm.trans h
        exact hsame.status_next _

/-- Settles O12: only DEC changes, of DEC not the input, and its status as `exec_statusAfterRecord` says. -/
theorem recordFrame : Obligations.RecordFrame := by
  unfold Obligations.RecordFrame
  intro i s t h
  obtain ⟨hothers, hIN, hlen, hstart, hout⟩ := exec_onlyDec h
  refine ⟨?_, ?_, ?_, ?_, hstart, hlen, hIN, fun a => by rw [hIN], hout, exec_statusAfterRecord h⟩
  all_goals rw [hothers]

end Sys2Proof.Machine
end

section
/-! PROOFS of the other statements, third part: the step at a record boundary (R102, R105), a byte-level step's reads
and writes (R120), and DEC's conversions as steps of the whole block (R106, R107, R201). -/

namespace Sys2Proof

/-- R103, R104: a record cut off is shorter than its command byte says. -/
theorem encode_length_lt_size {i : Instr} (hf : i.fetchable = true) (hw : i.wellFormed = false) :
    (encode i).length < i.size := by
  obtain ⟨n, cut, rfl, -, hcut⟩ | ⟨n, ps, cut, rfl, -, hcut, hlt⟩ := cut_cases hf hw
  · simp only [encode, List.length_append, recordBytes_length, Option.toList, List.length_nil, Instr.size]
    omega
  · rw [encode, List.length_append, recordBytes_length, Instr.size]
    omega

/-- R85: as many bytes as the command byte says hold a whole record. -/
theorem exists_decode_of_recLen {c : Byte} {t : List Byte} (h : (c :: t).length = recLen c) :
    ∃ i, decode (c :: t) = .ok i ∧ i.wellFormed = true := by
  cases hd : decode (c :: t) with
  | error e => cases decode_eq_error hd
  | ok i =>
    obtain ⟨hf, rest, hbytes, hr⟩ := decode_eq_ok hd
    refine ⟨i, rfl, Bool.eq_true_of_not_eq_false fun hw => ?_⟩
    have hlt := encode_length_lt_size hf hw
    obtain ⟨c', t', henc, hsize⟩ := encode_eq_cons_of_fetchable hf
    rw [hr hw, List.append_nil] at hbytes
    obtain ⟨rfl, -⟩ := List.cons.inj (hbytes.trans henc)
    rw [← hbytes, h, hsize] at hlt
    exact hlt.false

/-- R85: a record's bits are as many bytes as its command byte says. -/
theorem recordOfWord_eq_cons (nbits w : Nat) :
    ∃ c t, recordOfWord nbits w = c :: t ∧ (recordOfWord nbits w).length = recLen c := by
  have hpos : 0 < recLen (byteOfWord (w % 2 ^ nbits) 0) := by
    rw [recLen]
    split <;> omega
  obtain ⟨m, hm⟩ := Nat.exists_eq_add_of_lt hpos
  refine ⟨byteOfWord (w % 2 ^ nbits) 0, (List.range m).map fun k => byteOfWord (w % 2 ^ nbits) (k + 1), ?_, ?_⟩
  · simp [recordOfWord, hm, List.range_succ_eq_map, Function.comp_def]
  · simp [recordOfWord]

end Sys2Proof

namespace Sys2Proof.Machine

/-! ## The record at `ip` -/

theorem Buffer.range_append_left {α : Type} {m : Buffer α} {i : Nat} {xs ys : List α}
    (h : Buffer.range m i (xs ++ ys).length = some (xs ++ ys)) : Buffer.range m i xs.length = some xs := by
  obtain ⟨-, hget⟩ := (Buffer.range_eq_some ..).1 h
  refine (Buffer.range_eq_some ..).2 ⟨rfl, fun j hj => ?_⟩
  rw [hget j (by rw [List.length_append]; omega), List.getElem?_append_left hj]

theorem Buffer.range_setMany {α : Type} (m : Buffer α) (i : Nat) (vs : List α) :
    Buffer.range (Buffer.setMany m i vs) i vs.length = some vs := by
  refine (Buffer.range_eq_some ..).2 ⟨rfl, fun j hj => ?_⟩
  rw [Buffer.get_setMany, if_pos ⟨Nat.le_add_right i j, by omega⟩, Nat.add_sub_cancel_left]

/-- R102: the decoder fetches the record that the bytes at `ip` decode to, a whole one or one that `L` cuts off. -/
theorem recordCmd_of_range {s : State} {bs : List Byte} {i : Instr} (hle : s.dec.ip + bs.length ≤ s.dec.inLen)
    (hr : Buffer.range s.dec.IN s.dec.ip bs.length = some bs) (hd : decode bs = .ok i)
    (hend : i.wellFormed = true ∨ s.dec.ip + bs.length = s.dec.inLen) : recordCmd s = exec i s := by
  obtain ⟨hf, rest, rfl, hrest⟩ := decode_eq_ok hd
  obtain ⟨c, t, hct, hsize⟩ := encode_eq_cons_of_fetchable hf
  have hpos := encode_length_pos i
  rw [List.length_append] at hle hend
  have hmin : min (recLen c) (s.dec.inLen - s.dec.ip) = (encode i).length := by
    rw [hsize]
    cases hw : i.wellFormed with
    | true =>
      rw [encode_length_of_wellFormed hw] at hle ⊢
      omega
    | false =>
      have hlt := encode_length_lt_size hf hw
      have hL := hend.resolve_left (by simp [hw])
      rw [hrest hw, List.length_nil] at hL
      omega
  have hrec : s.dec.recordAt = .ok (encode i) := by
    rw [hct]
    refine s.dec.recordAt_of_range c t (by omega) ?_
    rw [hmin, ← hct]
    exact Buffer.range_append_left hr
  rw [recordCmd, s.dec.fetch_record _ i (by omega) hrec (decode_encode hf)]

/-- No START pulse waits, and no input of the host. -/
structure State.Quiet (s : State) : Prop where
  decStart : s.dec.start = false
  encStart : s.enc.start = false
  agenda : s.agenda = []

/-- Log 2: with nothing waiting, the busy agent moves. -/
theorem State.Quiet.step_eq {s : State} (h : s.Quiet) : step s = idleMove s := by
  simp [step, blockMove, h.decStart, h.encStart, h.agenda]

theorem State.Quiet.step_eq_decMove {s : State} (h : s.Quiet) (hb : s.dec.busy = true) : step s = decMove s := by
  rw [h.step_eq, idleMove, if_pos hb]

theorem Dec.busy_of_cmd {d : Dec} (h : d.dmode = .cmd) : d.busy = true := by rw [Dec.busy, h]

/-- Settles O13: DEC moves, and in CMD its record-level step fetches the record at `ip`. -/
theorem stepRunsTheRecordAtIp : Obligations.StepRunsTheRecordAtIp := by
  unfold Obligations.StepRunsTheRecordAtIp
  intro s i bs hdec henc hlevel hm hle hr hd hend
  have hmove (ag : List Move) : decMove { s with agenda := ag } = exec i { s with agenda := ag } := by
    rw [decMove_record (s := { s with agenda := ag }) hlevel, decRecordMove_cmd (s := { s with agenda := ag }) hm]
    exact recordCmd_of_range (s := { s with agenda := ag }) hle hr hd hend
  refine ⟨fun rest hag => ?_, fun hag => ?_⟩
  · rw [← hmove rest]
    simp [step, blockMove, hdec, henc, hag, doMove]
  · have hquiet : s.Quiet := ⟨hdec, henc, hag⟩
    rw [hquiet.step_eq_decMove (Dec.busy_of_cmd hm)]
    exact hmove s.agenda

/-- Settles O14: the bytes of a word are as many as their command byte says, and stand at `ip` with `L` behind them. -/
theorem placedWordRunsNext : Obligations.PlacedWordRunsNext := by
  unfold Obligations.PlacedWordRunsNext
  intro s nbits w
  obtain ⟨c, t, hbytes, hlen⟩ := recordOfWord_eq_cons nbits w
  obtain ⟨i, hd, hw⟩ := exists_decode_of_recLen (c := c) (t := t) (by rw [← hbytes, hlen])
  rw [← hbytes] at hd
  refine ⟨i, by rw [decodeTableWord, hd], hw, ?_⟩
  exact (stepRunsTheRecordAtIp (s.withFetchWord nbits w) i (recordOfWord nbits w) rfl rfl rfl rfl le_rfl
    (Buffer.range_setMany s.dec.IN s.dec.ip _) hd (.inl hw)).1 s.agenda rfl

/-! ## R120: a byte-level step -/

/-- R120: at most the next byte was read, and at most one pixel emitted. -/
structure Dec.OneByteOnePixel (d d' : Dec) : Prop where
  read : d'.ip = d.ip ∨ (d'.ip = d.ip + 1 ∧ d.ip < d.inLen)
  emitted : d'.OUT = d.OUT ∨ ∃ p, d'.OUT = d.OUT ++ [p]

/-- No byte was read and no pixel emitted. -/
theorem Dec.oneByteOnePixel_of_same {d d' : Dec} (hip : d'.ip = d.ip) (hout : d'.OUT = d.OUT) :
    d.OneByteOnePixel d' := ⟨.inl hip, .inl hout⟩

/-- A byte was read and no pixel emitted. -/
theorem Dec.oneByteOnePixel_of_read {d d' : Dec} (hlt : d.ip < d.inLen) (hip : d'.ip = d.ip + 1)
    (hout : d'.OUT = d.OUT) : d.OneByteOnePixel d' := ⟨.inr ⟨hip, hlt⟩, .inl hout⟩

/-- R120: a step that reads a byte reads one below `L`. -/
theorem lt_of_withNextByte {s t : State} {go : Byte → State} (h : withNextByte s go = .next t) :
    s.dec.ip < s.dec.inLen := by
  obtain ⟨-, hlt, -⟩ | ⟨hlt, -⟩ | ⟨-, hgo⟩ := withNextByte_cases s go
  · exact hlt
  · exact hlt
  · cases h.symm.trans hgo

theorem exists_singleton_of_emit {cap : Option Nat} {p : Pixel} {out out' : List Pixel}
    (h : emit cap p out = some out') : ∃ q, out' = out ++ [q] := ⟨p, ((emit_eq_some ..).1 h).2⟩

theorem byteCmd_oneByteOnePixel {s t : State} (h : byteCmd s = .next t) : s.dec.OneByteOnePixel t.dec := by
  rw [byteCmd] at h
  split at h
  · cases h
    exact Dec.oneByteOnePixel_of_same rfl rfl
  · have hlt := lt_of_withNextByte h
    obtain ⟨b, rfl⟩ := withNextByte_eq_next h
    exact Dec.oneByteOnePixel_of_read hlt rfl rfl

theorem byteRunpix_oneByteOnePixel {s t : State} (h : byteRunpix s = .next t) : s.dec.OneByteOnePixel t.dec := by
  rw [byteRunpix] at h
  split at h
  · cases h
    exact Dec.oneByteOnePixel_of_same rfl rfl
  · have hlt := lt_of_withNextByte h
    obtain ⟨b, rfl⟩ := withNextByte_eq_next h
    dsimp only
    split <;> exact Dec.oneByteOnePixel_of_read hlt rfl rfl

theorem byteLitpix_oneByteOnePixel {s t : State} (h : byteLitpix s = .next t) : s.dec.OneByteOnePixel t.dec := by
  rw [byteLitpix] at h
  split at h
  · cases h
    exact Dec.oneByteOnePixel_of_same rfl rfl
  · have hlt := lt_of_withNextByte h
    obtain ⟨b, rfl⟩ := withNextByte_eq_next h
    dsimp only
    split
    · split
      · exact Dec.oneByteOnePixel_of_read hlt rfl rfl
      next out he => exact ⟨.inr ⟨rfl, hlt⟩, .inr (exists_singleton_of_emit he)⟩
    · exact Dec.oneByteOnePixel_of_read hlt rfl rfl

theorem byteExpand_oneByteOnePixel {s t : State} (h : byteExpand s = .next t) : s.dec.OneByteOnePixel t.dec := by
  rw [byteExpand] at h
  split at h
  · cases h
    exact Dec.oneByteOnePixel_of_same rfl rfl
  next out he =>
    cases h
    exact ⟨.inl rfl, .inr (exists_singleton_of_emit he)⟩

/-- Settles O26, by the state that the step starts in. -/
theorem byteStepReadsOneEmitsOne : Obligations.ByteStepReadsOneEmitsOne := by
  unfold Obligations.ByteStepReadsOneEmitsOne
  intro s t h
  have hstep : s.dec.OneByteOnePixel t.dec := by
    cases hm : s.dec.dmode <;> simp only [decByteMove, hm] at h
    case cmd => exact byteCmd_oneByteOnePixel h
    case runpix => exact byteRunpix_oneByteOnePixel h
    case expand => exact byteExpand_oneByteOnePixel h
    case litpix => exact byteLitpix_oneByteOnePixel h
    all_goals
      cases h
      exact Dec.oneByteOnePixel_of_same rfl rfl
  exact ⟨hstep.read, hstep.emitted⟩

/-! ## Runs of the whole block -/

theorem run_succ {s t : State} (h : step s = .next t) (k : Nat) :
    Host.Core.run core (k + 1) s = Host.Core.run core k t := by
  have hcore : core.step s = .next t := h
  simp only [Host.Core.run, hcore]

theorem moves_succ_inv {f : State → Host.Outcome State Fault Refusal} {k : Nat} {s t : State}
    (h : moves f (k + 1) s = .next t) : ∃ u, f s = .next u ∧ moves f k u = .next t := by
  rw [moves] at h
  split at h
  next u hu => exact ⟨u, hu, h⟩
  · cases h
  · cases h

/-- An agent's moves are steps of the block, where each of them is one or does nothing. -/
theorem run_of_moves {f : State → Host.Outcome State Fault Refusal} {P : State → Prop}
    (hstep : ∀ s, P s → step s = f s ∨ f s = .next s) (hkeep : ∀ s t, P s → f s = .next t → P t) {k : Nat}
    {s t : State} (hs : P s) (h : moves f k s = .next t) : ∃ j ≤ k, Host.Core.run core j s = .next t := by
  induction k generalizing s with
  | zero => exact ⟨0, le_rfl, h⟩
  | succ k ih =>
    obtain ⟨u, hu, hrest⟩ := moves_succ_inv h
    obtain hmove | hfixed := hstep s hs
    · obtain ⟨j, hj, hrun⟩ := ih (hkeep s u hs hu) hrest
      exact ⟨j + 1, Nat.succ_le_succ hj, (run_succ (hmove.trans hu) j).trans hrun⟩
    · exact ⟨0, Nat.zero_le _, (moves_fixed hfixed (k + 1)).symm.trans h⟩

/-- Log 2: DEC's moves, when nothing else waits. -/
theorem run_of_decMoves {k : Nat} {s t : State} (hs : s.Quiet) (h : moves decMove k s = .next t) :
    ∃ j ≤ k, Host.Core.run core j s = .next t := by
  refine run_of_moves (P := State.Quiet) (fun s hq => ?_) (fun s t hq ht => ?_) hs h
  · cases hb : s.dec.busy with
    | true => exact .inl (hq.step_eq_decMove hb)
    | false => exact .inr (decMove_idle s hb)
  · have honly := decMove_onlyDec ht
    exact ⟨honly.start.trans hq.decStart, by rw [honly.others]; exact hq.encStart,
      by rw [honly.others]; exact hq.agenda⟩

/-- R201: DEC's pulse is seen first. -/
theorem step_of_decStart {s : State} (h : s.dec.start = true) : step s = seeStart .dec s := by
  rw [step, blockMove, if_pos h]

/-- R201: ENC's pulse is seen next. -/
theorem step_of_encStart {s : State} (hdec : s.dec.start = false) (h : s.enc.start = true) :
    step s = seeStart .enc s := by
  rw [step, blockMove, hdec, if_neg Bool.false_ne_true, if_pos h]

/-- R201, R204: outside a conversion a launch that keeps the host's duties begins one. -/
theorem seeStart_launch {ag : Agent} {s : State} (hidle : s.busy ag = false) (hok : s.launchOk ag = true) :
    seeStart ag s = .next (s.launch ag) := by
  rw [seeStart, hidle, if_neg Bool.false_ne_true, if_pos hok]

namespace State.DecLaunch

variable {s : State} {inp : List Byte} (h : s.DecLaunch inp)
include h

/-- R201: the step sees the pulse. -/
theorem step_eq : step s = .next (s.launch .dec) :=
  (step_of_decStart h.pulse).trans (seeStart_launch h.idle h.duties)

theorem quiet : (s.launch .dec).Quiet := ⟨rfl, h.noOther, h.agenda⟩

theorem atStart : (s.launch .dec).dec.AtStart inp := ⟨rfl, rfl, rfl, rfl, rfl, rfl, h.input⟩

end State.DecLaunch

/-- Settles O16: the START, and a step at `ip = L = 0`. -/
theorem emptyInputGivesEmptyOutput : Obligations.EmptyInputGivesEmptyOutput := by
  unfold Obligations.EmptyInputGivesEmptyOutput
  intro s h
  have hlen : s.dec.inLen = 0 := ((Buffer.range_eq_some ..).1 h.input).1.symm
  have hend := endOfInputEndsCleanly (s.launch .dec) rfl hlen.symm
  exact ⟨_, (run_succ h.step_eq 1).trans (run_succ ((h.quiet.step_eq_decMove rfl).trans hend) 0), rfl, rfl, rfl, rfl,
    rfl⟩

/-! ## R106: DEC's conversions -/

/-- At the byte level DEC's moves are the byte-level moves. -/
theorem moves_decMove_byte {k : Nat} {s t : State} (hl : s.cfg.level = .byte) (h : moves decByteMove k s = .next t) :
    moves decMove k s = .next t := by
  induction k generalizing s with
  | zero => exact h
  | succ k ih =>
    obtain ⟨u, hu, hrest⟩ := moves_succ_inv h
    have hlu : u.cfg.level = .byte := by rw [(decByteMove_onlyDec hu).others]; exact hl
    rw [moves_succ ((decMove_byte hl).trans hu), ih hlu hrest]

/-- R106, R128: DEC's moves, at the level its parameter says, end in what `Decode` gives. -/
theorem exists_moves_decMove {s : State} {inp : List Byte} (h : s.dec.AtStart inp) :
    ∃ k t, moves decMove k s = .next t ∧ t.dec.doneBit = true ∧ t.dec.observe = decodeAll s.cfg.outCapPix inp := by
  refine exists_moves_decodeLoop (fun s t ip out hb ht => ?_) (inp.length + 1) (boundary_of_atStart h) (by omega)
  cases hl : s.cfg.level with
  | record => exact ⟨1, moves_one ((decMove_record hl).trans ht)⟩
  | byte =>
    have hm : s.dec.dmode = .cmd := congrArg Decoded.dmode hb.observed
    obtain ⟨k, -, hk⟩ := exists_moves_of_decRecordMove hm hb.ahead_ip ht
    exact ⟨k, moves_decMove_byte hl hk⟩

/-- R106: each round reads 5 bytes or ends the loop, so more rounds than a fifth of the bytes left add nothing. -/
theorem decodeLoop_add_of_enough {cap : Option Nat} {inp : List Byte} (fuel more ip : Nat) (out : List Pixel)
    (hip : ip ≤ inp.length) (hfuel : inp.length < ip + 5 * fuel) (hfits : within cap out.length = true) :
    decodeLoop cap inp (fuel + more) ip out = decodeLoop cap inp fuel ip out := by
  induction fuel generalizing ip out with
  | zero => omega
  | succ fuel ih =>
    rw [Nat.add_right_comm]
    cases hd : decode (inp.drop ip) with
    | error e => rw [decodeLoop_end hd, decodeLoop_end hd]
    | ok i =>
      obtain hfit | ⟨c, rfl, hover⟩ := fits_or_over hfits i.expand.length
      · cases hw : i.wellFormed with
        | true =>
          obtain ⟨-, rest, hbytes, -⟩ := decode_eq_ok hd
          have hlen := congrArg List.length hbytes
          have hfive := four_lt_encode_length hw
          rw [List.length_drop, List.length_append] at hlen
          rw [encode_length_of_wellFormed hw] at hlen hfive
          rw [decodeLoop_whole hd _ hw hfit, decodeLoop_whole hd _ hw hfit]
          exact ih _ _ (by omega) (by omega) (by rwa [List.length_append])
        | false => rw [decodeLoop_cut hd _ hw hfit, decodeLoop_cut hd _ hw hfit]
      · rw [decodeLoop_over hd _ hover, decodeLoop_over hd _ hover]

/-- R76: an empty output is within every capacity. -/
theorem within_zero (cap : Option Nat) : within cap 0 = true := by
  cases cap with
  | none => rfl
  | some c => exact (within_some ..).2 (Nat.zero_le c)

theorem decodeAll_eq_decodeLoop (cap : Option Nat) (inp : List Byte) :
    decodeAll cap inp = decodeLoop cap inp (inp.length / 5 + 1) 0 [] := by
  rw [decodeAll, ← decodeLoop_add_of_enough (inp.length / 5 + 1) (inp.length - inp.length / 5) 0 [] (Nat.zero_le _)
    (by omega) (within_zero cap)]
  congr 1
  omega

theorem Dec.doneBit_eq_of_observe_eq {d d' : Dec} (h : d.observe = d'.observe) : d.doneBit = d'.doneBit := by
  have hm : d.dmode = d'.dmode := congrArg Decoded.dmode h
  rw [Dec.doneBit, Dec.doneBit, hm]

/-- R106: at the record level a conversion takes at most `L div 5 + 1` moves. -/
theorem exists_moves_decMove_within {s : State} {inp : List Byte} (h : s.dec.AtStart inp) :
    ∃ k t, moves decMove k s = .next t ∧ t.dec.doneBit = true ∧ t.dec.observe = decodeAll s.cfg.outCapPix inp ∧
      (s.cfg.level = .record → k ≤ inp.length / 5 + 1) := by
  obtain ⟨k, t, hmoves, hdone, hobs⟩ := exists_moves_decMove h
  cases hl : s.cfg.level with
  | byte => exact ⟨k, t, hmoves, hdone, hobs, nofun⟩
  | record =>
    obtain ⟨t', hmoves', hobs'⟩ := moves_decMove_record (inp.length / 5 + 1) hl (boundary_of_atStart h)
    rw [← decodeAll_eq_decodeLoop] at hobs'
    exact ⟨_, t', hmoves', (Dec.doneBit_eq_of_observe_eq (hobs'.trans hobs.symm)).trans hdone, hobs',
      fun _ => le_rfl⟩

/-- Settles O17: the START, and then DEC's moves. -/
theorem conversionRunsDecode : Obligations.ConversionRunsDecode := by
  unfold Obligations.ConversionRunsDecode
  intro s inp h
  obtain ⟨k, t, hmoves, hdone, hobs, hbound⟩ := exists_moves_decMove_within h.atStart
  obtain ⟨j, hj, hrun⟩ := run_of_decMoves h.quiet hmoves
  exact ⟨j, t, (run_succ h.step_eq j).trans hrun, hobs, hdone, fun hl => hj.trans (hbound hl)⟩

end Sys2Proof.Machine
end

section
/-! PROOFS of the other statements, fourth part: the encoder's RUN and LIT steps (R143 to R145), and how its output
grows (R67). -/

namespace Sys2Proof.Machine

/-! ## EmitRecord -/

section

variable {cap : Option Nat} {f : Bool} {c pos : Nat} {pix : List Pixel} {bout : List Byte}

/-- R145: a legal record that fits is appended. -/
theorem emitRecord_fits (hc : 1 ≤ c ∧ c ≤ 128) (h : within cap (bout.length + (1 + 4 * pix.length)) = true) :
    emitRecord cap f c pix pos bout = .ok (bout ++ recordBytes f c pix) := by
  obtain ⟨hbad, -⟩ | ⟨-, -, he⟩ | ⟨-, hover, -⟩ := emitRecord_cases cap f c pix pos bout
  · omega
  · exact he
  · rw [h] at hover
    cases hover

/-- R145: a legal record that does not fit raises CAPACITY. -/
theorem emitRecord_over (hc : 1 ≤ c ∧ c ≤ 128) (h : within cap (bout.length + (1 + 4 * pix.length)) = false) :
    emitRecord cap f c pix pos bout = .raised (.capacity pos) := by
  obtain ⟨hbad, -⟩ | ⟨-, hfit, -⟩ | ⟨-, -, he⟩ := emitRecord_cases cap f c pix pos bout
  · omega
  · rw [h] at hfit
    cases hfit
  · exact he

/-- R145, R186: an illegal count raises ENC_OVERFLOW, whatever the capacity. -/
theorem emitRecord_illegal (hc : c = 0 ∨ 128 < c) : emitRecord cap f c pix pos bout = .raised (.encOverflow c) := by
  obtain ⟨-, he⟩ | ⟨hlegal, -⟩ | ⟨hlegal, -⟩ := emitRecord_cases cap f c pix pos bout
  · exact he
  · omega
  · omega

end

theorem encode_wholeRun (n : Nat) (p : Pixel) : encode (.wholeRun n p) = recordBytes true n [p] := by simp [encode]

theorem encode_wholeLit (n : Nat) (ps : List Pixel) : encode (.wholeLit n ps) = recordBytes false n ps := by
  simp [encode]

/-! ## R143: the RUN step -/

theorem encMove_run {s : State} (h : s.enc.emode = .run) : encMove s = encRun s := by
  rw [encMove, h]

/-- R143: the chunk fits. -/
theorem encRun_fits {s : State} (h1 : 1 ≤ s.enc.runRem)
    (hfit : within s.cfg.outCapBytes (s.enc.BOUT.length + 5) = true) :
    encRun s = .next { s with enc := { s.enc with
      BOUT := s.enc.BOUT ++ encode (.wholeRun (min s.enc.runRem 128) s.enc.runPix),
      runRem := s.enc.runRem - min s.enc.runRem 128, pos := s.enc.pos + min s.enc.runRem 128,
      emode := if s.enc.runRem - min s.enc.runRem 128 = 0 then .scan else .run } } := by
  have he := emitRecord_fits (f := true) (c := min s.enc.runRem 128) (pos := s.enc.pos) (pix := [s.enc.runPix])
    (by omega) hfit
  simp only [encRun, maxCount, he, encode_wholeRun]
  rfl

/-- R143, R183: the chunk does not fit. -/
theorem encRun_over {s : State} (h1 : 1 ≤ s.enc.runRem)
    (hover : within s.cfg.outCapBytes (s.enc.BOUT.length + 5) = false) :
    encRun s = .next (s.take .enc (.capacity s.enc.pos)) := by
  have he := emitRecord_over (f := true) (c := min s.enc.runRem 128) (pos := s.enc.pos) (pix := [s.enc.runPix])
    (by omega) hover
  simp only [encRun, maxCount, he]

/-- R153, log 8: the step that no run reaches. -/
theorem encRun_illegal {s : State} (h0 : s.enc.runRem = 0) : encRun s = .next (s.take .enc (.encOverflow 0)) := by
  simp only [encRun, h0, Nat.zero_min, emitRecord_illegal (.inl rfl)]

/-- Settles O30, by what EmitRecord answers. -/
theorem runStepEmitsOneChunk : Obligations.RunStepEmitsOneChunk := by
  unfold Obligations.RunStepEmitsOneChunk
  intro s hm
  rw [encMove_run hm]
  exact ⟨encRun_fits, encRun_over, encRun_illegal⟩

/-! ## R144: the LIT step -/

theorem encMove_lit {s : State} (h : s.enc.emode = .lit) : encMove s = encLit s := by
  rw [encMove, h]

/-- R144: the current literal block absorbs the pixel at `pos`, with PIN holding `pin`. -/
abbrev Enc.Absorbs (e : Enc) (pin : List Pixel) : Prop :=
  e.litLen.toNat < maxCount ∧ e.pos < pin.length ∧ runLenW pin e.pos < threshold

section

variable {s : State} {base : Nat} {pin : List Pixel} (h : s.enc.HoldsFrom base pin)
include h

/-- R144: the block grows. -/
theorem encLit_extends (hb : base ≤ s.enc.pos) (habs : s.enc.Absorbs pin) :
    encLit s = .next { s with enc := { s.enc with litLen := s.enc.litLen + 1, pos := s.enc.pos + 1 } } := by
  rw [encLit, Enc.litExtends_eq h hb, decide_eq_true habs]

/-- R144: the block is closed. -/
theorem encLit_closes (hb : base ≤ s.enc.pos) (habs : ¬ s.enc.Absorbs pin) : encLit s = encLitClose s := by
  rw [encLit, Enc.litExtends_eq h hb, decide_eq_false habs]

variable (hb : base ≤ s.enc.litStart) (hc : 1 ≤ s.enc.litLen.toNat ∧ s.enc.litLen.toNat ≤ 128)
  (hle : s.enc.litStart + s.enc.litLen.toNat ≤ pin.length)
include hb hc hle

theorem litBlock_slice :
    s.enc.litBlock = .ok (slice pin s.enc.litStart s.enc.litLen.toNat) ∧
      (slice pin s.enc.litStart s.enc.litLen.toNat).length = s.enc.litLen.toNat :=
  ⟨Enc.litBlock_eq h hb hc (h.length ▸ hle), slice_length hle⟩

/-- R144: the block's record fits. -/
theorem encLitClose_fits
    (hfit : within s.cfg.outCapBytes (s.enc.BOUT.length + (1 + 4 * s.enc.litLen.toNat)) = true) :
    encLitClose s = .next { s with enc := { s.enc with
      BOUT := s.enc.BOUT ++ encode (.wholeLit s.enc.litLen.toNat (slice pin s.enc.litStart s.enc.litLen.toNat)),
      emode := .scan } } := by
  obtain ⟨hblock, hlen⟩ := litBlock_slice h hb hc hle
  rw [← hlen] at hfit
  rw [encLitClose, hblock]
  simp only [emitRecord_fits hc hfit, encode_wholeLit]

/-- R144, R183: the block's record does not fit. -/
theorem encLitClose_over
    (hover : within s.cfg.outCapBytes (s.enc.BOUT.length + (1 + 4 * s.enc.litLen.toNat)) = false) :
    encLitClose s = .next (s.take .enc (.capacity s.enc.pos)) := by
  obtain ⟨hblock, hlen⟩ := litBlock_slice h hb hc hle
  rw [← hlen] at hover
  rw [encLitClose, hblock]
  simp only [emitRecord_over hc hover]

end

/-- R153, log 8: the step that no run reaches. R145 checks the count before it reads a pixel. -/
theorem encLitClose_illegal {s : State} (hc : s.enc.litLen.toNat = 0 ∨ 128 < s.enc.litLen.toNat) :
    encLitClose s = .next (s.take .enc (.encOverflow s.enc.litLen.toNat)) := by
  have hcount : ¬ countOk s.enc.litLen.toNat = true := by
    rw [countOk_iff]
    omega
  rw [encLitClose, Enc.litBlock, if_neg hcount]
  simp only [emitRecord_illegal hc]

/-- Settles O31: the block absorbs the pixel at `pos`, or is closed and EmitRecord answers. -/
theorem litStepExtendsOrCloses : Obligations.LitStepExtendsOrCloses := by
  unfold Obligations.LitStepExtendsOrCloses
  rintro s pin n hm h rfl hle
  rw [encMove_lit hm]
  have hb := Nat.min_le_left s.enc.litStart s.enc.pos
  have hp := Nat.min_le_right s.enc.litStart s.enc.pos
  refine ⟨encLit_extends h hp, fun habs => ?_⟩
  rw [encLit_closes h hp habs]
  exact ⟨fun h1 h128 => encLitClose_fits h hb ⟨h1, h128⟩ hle, fun h1 h128 => encLitClose_over h hb ⟨h1, h128⟩ hle,
    encLitClose_illegal⟩

/-! ## R67: the output grows by whole records -/

/-- R67: the output is what it was, or one whole record longer. -/
def Enc.GrowsByRecord (e e' : Enc) : Prop :=
  e'.BOUT = e.BOUT ∨ ∃ i, i.wellFormed = true ∧ e'.BOUT = e.BOUT ++ encode i

theorem encScan_growsByRecord {s t : State} (h : encScan s = .next t) : s.enc.GrowsByRecord t.enc := by
  rw [encScan] at h
  split at h
  · cases h
    exact .inl rfl
  · split at h
    · cases h
    · cases h
    · split at h <;> cases h <;> exact .inl rfl

theorem encRun_growsByRecord {s t : State} (h : encRun s = .next t) : s.enc.GrowsByRecord t.enc := by
  rw [encRun] at h
  split at h
  · cases h
    exact .inl rfl
  next he =>
    cases h
    obtain ⟨hc, rfl⟩ := emitRecord_eq_ok he
    exact .inr ⟨.wholeRun _ _, (Instr.wellFormed_run_iff ..).2 ⟨hc, rfl, rfl⟩, by rw [encode_wholeRun]⟩

/-- R144, R145: with a legal count the pixels read are the block's, as many as the count. -/
theorem Enc.litBlock_length {e : Enc} {pix : List Pixel} (h : e.litBlock = .ok pix)
    (hc : 1 ≤ e.litLen.toNat ∧ e.litLen.toNat ≤ 128) : pix.length = e.litLen.toNat := by
  rw [Enc.litBlock, if_pos ((countOk_iff _).2 hc), Enc.pixRange_eq_ok, Buffer.range_eq_some] at h
  exact h.2.1

theorem encLitClose_growsByRecord {s t : State} (h : encLitClose s = .next t) : s.enc.GrowsByRecord t.enc := by
  rw [encLitClose] at h
  split at h
  · cases h
  next pix hblock =>
    split at h
    · cases h
      exact .inl rfl
    next he =>
      cases h
      obtain ⟨hc, rfl⟩ := emitRecord_eq_ok he
      have hlen := Enc.litBlock_length hblock hc
      exact .inr ⟨.wholeLit _ pix, (Instr.wellFormed_lit_iff ..).2 ⟨hc, hlen, rfl⟩, by rw [encode_wholeLit]⟩

theorem encLit_growsByRecord {s t : State} (h : encLit s = .next t) : s.enc.GrowsByRecord t.enc := by
  rw [encLit] at h
  split at h
  · cases h
  · cases h
    exact .inl rfl
  · exact encLitClose_growsByRecord h

/-- Settles O32, by the state that the step starts in. -/
theorem outputGrowsByWholeRecords : Obligations.OutputGrowsByWholeRecords := by
  unfold Obligations.OutputGrowsByWholeRecords
  intro s t h
  cases hm : s.enc.emode <;> simp only [encMove, hm] at h
  case scan => exact encScan_growsByRecord h
  case run => exact encRun_growsByRecord h
  case lit => exact encLit_growsByRecord h
  all_goals
    cases h
    exact .inl rfl

end Sys2Proof.Machine
end

section
/-! PROOFS of the other statements, fifth part: what an agent's step depends on. Neither agent observes the other (R20,
R194), and ENC reads PIN in its record and its window only (R61, R141). Each is an equation: the step commutes with a
change of what it does not read. -/

namespace Sys2Proof.Machine

/-- The outcome with the next state changed by `f`, if there is one. -/
def mapNext (f : State → State) : Host.Outcome State Fault Refusal → Host.Outcome State Fault Refusal
  | .next t => .next (f t)
  | .fault r => .fault r
  | .refused r => .refused r

/-! ## DEC beside any other state -/

/-- The machine with another ENC, agenda and counter. -/
def State.replaceAllButDec (e : Enc) (ag : List Move) (c : Nat) (s : State) : State :=
  { s with enc := e, agenda := ag, freeCtr := c }

section

variable (e : Enc) (ag : List Move) (c : Nat) (s : State)

theorem withNextByte_replaceAllButDec {go go' : Byte → State} (h : ∀ b, go' b = (go b).replaceAllButDec e ag c) :
    withNextByte (s.replaceAllButDec e ag c) go' = mapNext (State.replaceAllButDec e ag c) (withNextByte s go) := by
  rw [withNextByte, withNextByte]
  simp only [State.replaceAllButDec] at h ⊢
  cases s.dec.memRead s.dec.ip 1 with
  | error f => rfl
  | ok bs =>
    cases bs with
    | nil => rfl
    | cons b bs => exact congrArg Host.Outcome.next (h b)

theorem byteCmd_replaceAllButDec :
    byteCmd (s.replaceAllButDec e ag c) = mapNext (State.replaceAllButDec e ag c) (byteCmd s) := by
  rw [byteCmd, byteCmd, apply_ite (mapNext _)]
  exact ite_congr rfl (fun _ => rfl) fun _ => withNextByte_replaceAllButDec e ag c s fun b => rfl

theorem byteRunpix_replaceAllButDec :
    byteRunpix (s.replaceAllButDec e ag c) = mapNext (State.replaceAllButDec e ag c) (byteRunpix s) := by
  rw [byteRunpix, byteRunpix, apply_ite (mapNext _)]
  exact ite_congr rfl (fun _ => rfl) fun _ => withNextByte_replaceAllButDec e ag c s fun b => rfl

theorem byteLitpix_replaceAllButDec :
    byteLitpix (s.replaceAllButDec e ag c) = mapNext (State.replaceAllButDec e ag c) (byteLitpix s) := by
  rw [byteLitpix, byteLitpix, apply_ite (mapNext _)]
  refine ite_congr rfl (fun _ => rfl) fun _ => withNextByte_replaceAllButDec e ag c s fun b => ?_
  rw [apply_ite (State.replaceAllButDec e ag c)]
  refine ite_congr rfl (fun _ => ?_) fun _ => rfl
  dsimp only [State.replaceAllButDec]
  cases emit s.cfg.outCapPix { s.dec.pixbuf with a := b } s.dec.OUT <;> rfl

theorem byteExpand_replaceAllButDec :
    byteExpand (s.replaceAllButDec e ag c) = mapNext (State.replaceAllButDec e ag c) (byteExpand s) := by
  rw [byteExpand, byteExpand]
  dsimp only [State.replaceAllButDec]
  cases emit s.cfg.outCapPix s.dec.pixbuf s.dec.OUT <;> rfl

theorem decByteMove_replaceAllButDec :
    decByteMove (s.replaceAllButDec e ag c) = mapNext (State.replaceAllButDec e ag c) (decByteMove s) := by
  have hmode : (s.replaceAllButDec e ag c).dec.dmode = s.dec.dmode := rfl
  rw [decByteMove, decByteMove, hmode]
  cases s.dec.dmode
  case cmd => exact byteCmd_replaceAllButDec e ag c s
  case runpix => exact byteRunpix_replaceAllButDec e ag c s
  case expand => exact byteExpand_replaceAllButDec e ag c s
  case litpix => exact byteLitpix_replaceAllButDec e ag c s
  all_goals rfl

theorem exec_replaceAllButDec (i : Instr) :
    exec i (s.replaceAllButDec e ag c) = mapNext (State.replaceAllButDec e ag c) (exec i s) := by
  match i with
  | .run n none cut => rfl
  | .run n (some p) cut =>
    rcases he : (s.dec.withRunPixel n p).emitCopies s.cfg.outCapPix p n with ⟨d', fit⟩
    cases fit with
    | true => rw [execRun_whole cut he, execRun_whole (s := s.replaceAllButDec e ag c) cut he]; rfl
    | false => rw [execRun_over cut he, execRun_over (s := s.replaceAllButDec e ag c) cut he]; rfl
  | .lit n ps cut =>
    rcases he : (s.dec.latch false n).emitGroups s.cfg.outCapPix ps (s.dec.ip + 1) with ⟨d', missed⟩
    cases missed with
    | some a => rw [execLit_over cut he, execLit_over (s := s.replaceAllButDec e ag c) cut he]; rfl
    | none =>
      obtain hlt | hge := Nat.lt_or_ge ps.length n
      · rw [execLit_cut cut hlt he, execLit_cut (s := s.replaceAllButDec e ag c) cut hlt he]; rfl
      · rw [execLit_whole cut hge he, execLit_whole (s := s.replaceAllButDec e ag c) cut hge he]; rfl

theorem recordCmd_replaceAllButDec :
    recordCmd (s.replaceAllButDec e ag c) = mapNext (State.replaceAllButDec e ag c) (recordCmd s) := by
  have hfetch : (s.replaceAllButDec e ag c).dec.fetch = s.dec.fetch := rfl
  rw [recordCmd, recordCmd, hfetch]
  cases s.dec.fetch with
  | error f => rfl
  | ok o =>
    cases o with
    | none => rfl
    | some i => exact exec_replaceAllButDec e ag c s i

theorem decMove_replaceAllButDec :
    decMove (s.replaceAllButDec e ag c) = mapNext (State.replaceAllButDec e ag c) (decMove s) := by
  have hlevel : (s.replaceAllButDec e ag c).cfg.level = s.cfg.level := rfl
  have hmode : (s.replaceAllButDec e ag c).dec.dmode = s.dec.dmode := rfl
  rw [decMove, decMove, hlevel]
  cases s.cfg.level with
  | byte => exact decByteMove_replaceAllButDec e ag c s
  | record =>
    dsimp only
    rw [decRecordMove, decRecordMove, hmode]
    cases s.dec.dmode
    case cmd => exact recordCmd_replaceAllButDec e ag c s
    all_goals exact decByteMove_replaceAllButDec e ag c s

end

/-! ## ENC beside any other state -/

/-- The machine with another DEC, agenda and counter. -/
def State.replaceAllButEnc (d : Dec) (ag : List Move) (c : Nat) (s : State) : State :=
  { s with dec := d, agenda := ag, freeCtr := c }

section

variable (d : Dec) (ag : List Move) (c : Nat) (s : State)

theorem encScan_replaceAllButEnc :
    encScan (s.replaceAllButEnc d ag c) = mapNext (State.replaceAllButEnc d ag c) (encScan s) := by
  rw [encScan, encScan, apply_ite (mapNext _)]
  refine ite_congr rfl (fun _ => rfl) fun _ => ?_
  dsimp only [State.replaceAllButEnc]
  cases s.enc.readRun s.enc.pos with
  | error f => rfl
  | ok r =>
    cases s.enc.pixRead s.enc.pos with
    | error f => rfl
    | ok p =>
      dsimp only
      split <;> rfl

theorem encRun_replaceAllButEnc :
    encRun (s.replaceAllButEnc d ag c) = mapNext (State.replaceAllButEnc d ag c) (encRun s) := by
  rw [encRun, encRun]
  dsimp only [State.replaceAllButEnc]
  split <;> rfl

theorem encLitClose_replaceAllButEnc :
    encLitClose (s.replaceAllButEnc d ag c) = mapNext (State.replaceAllButEnc d ag c) (encLitClose s) := by
  rw [encLitClose, encLitClose]
  dsimp only [State.replaceAllButEnc]
  cases s.enc.litBlock with
  | error f => rfl
  | ok pix =>
    dsimp only
    split <;> rfl

theorem encLit_replaceAllButEnc :
    encLit (s.replaceAllButEnc d ag c) = mapNext (State.replaceAllButEnc d ag c) (encLit s) := by
  have hext : (s.replaceAllButEnc d ag c).enc.litExtends = s.enc.litExtends := rfl
  rw [encLit, encLit, hext]
  cases s.enc.litExtends with
  | error f => rfl
  | ok b =>
    cases b with
    | true => rfl
    | false => exact encLitClose_replaceAllButEnc d ag c s

theorem encMove_replaceAllButEnc :
    encMove (s.replaceAllButEnc d ag c) = mapNext (State.replaceAllButEnc d ag c) (encMove s) := by
  have hmode : (s.replaceAllButEnc d ag c).enc.emode = s.enc.emode := rfl
  rw [encMove, encMove, hmode]
  cases s.enc.emode
  case scan => exact encScan_replaceAllButEnc d ag c s
  case run => exact encRun_replaceAllButEnc d ag c s
  case lit => exact encLit_replaceAllButEnc d ag c s
  all_goals rfl

end

/-- Settles O46: each agent's step commutes with replacing everything else. -/
theorem agentsShareNothing : Obligations.AgentsShareNothing := by
  unfold Obligations.AgentsShareNothing
  refine ⟨fun s e ag c => (decMove_replaceAllButDec e ag c s).trans ?_,
    fun s d ag c => (encMove_replaceAllButEnc d ag c s).trans ?_⟩
  · cases decMove s <;> rfl
  · cases encMove s <;> rfl

/-! ## ENC with other pixels where it reads none -/

/-- The encoder with another input buffer. -/
abbrev Enc.withPin (pin : Buffer Pixel) (e : Enc) : Enc := { e with PIN := pin }

/-- The machine with another encoder input buffer. -/
abbrev State.withPin (pin : Buffer Pixel) (s : State) : State := { s with enc := s.enc.withPin pin }

section

variable {pin : Buffer Pixel} {e : Enc}

/-- R61: at or beyond `N` no pixel is read. -/
theorem Enc.pixRead_beyond {i : Nat} (h : e.inLen ≤ i) : e.pixRead i = .error (.readBeyondInput .enc) := by
  rw [Enc.pixRead, if_neg (Nat.not_lt.2 h)]

/-- A run is read between its start and the index `hi`, which lies above every start below `N`. -/
theorem Enc.readRunBelow_withPin {i hi : Nat} (hlt : i < e.inLen → i < hi)
    (h : ∀ j, i ≤ j → j < hi → Buffer.get pin j = Buffer.get e.PIN j) :
    (e.withPin pin).readRunBelow i hi = e.readRunBelow i hi := by
  obtain hin | hout := Nat.lt_or_ge i e.inLen
  · exact e.readRunBelow_congr pin i hi (hlt hin) h
  · rw [Enc.readRunBelow, Enc.readRunBelow, Enc.pixRead_beyond hout, Enc.pixRead_beyond (e := e.withPin pin) hout]

theorem Enc.pixRead_withPin {i : Nat} (h : i < e.inLen → Buffer.get pin i = Buffer.get e.PIN i) :
    (e.withPin pin).pixRead i = e.pixRead i := by
  obtain hin | hout := Nat.lt_or_ge i e.inLen
  · exact e.pixRead_congr pin i (h hin)
  · rw [Enc.pixRead_beyond hout, Enc.pixRead_beyond (e := e.withPin pin) hout]

/-- R144: the window is read from `pos` to its end or `N`. -/
theorem Enc.litExtends_withPin
    (h : ∀ j, e.pos ≤ j → j < min (e.pos + lookahead) e.inLen → Buffer.get pin j = Buffer.get e.PIN j) :
    (e.withPin pin).litExtends = e.litExtends := by
  have hwindow : (e.withPin pin).readRunW e.pos = e.readRunW e.pos :=
    Enc.readRunBelow_withPin (fun hin => lt_min (Nat.lt_add_of_pos_right (by decide)) hin) h
  rw [Enc.litExtends, Enc.litExtends, hwindow]

/-- R144: the block's pixels are read only where all of them lie below `N`. -/
theorem Enc.litBlock_withPin
    (h : ∀ j, e.litStart ≤ j → j < e.litStart + e.litLen.toNat → j < e.inLen →
      Buffer.get pin j = Buffer.get e.PIN j) :
    (e.withPin pin).litBlock = e.litBlock := by
  have hrange : (e.withPin pin).pixRange e.litStart e.litLen.toNat = e.pixRange e.litStart e.litLen.toNat := by
    by_cases hle : e.litStart + e.litLen.toNat ≤ e.inLen
    · exact e.pixRange_congr pin _ _ fun j h1 h2 => h j h1 h2 (h2.trans_le hle)
    · rw [Enc.pixRange, Enc.pixRange, if_neg hle, if_neg hle]
  rw [Enc.litBlock, Enc.litBlock, hrange]

end

section

variable {pin : Buffer Pixel} {s : State}

theorem encScan_withPin
    (h : ∀ j, s.enc.pos ≤ j → j < s.enc.inLen → Buffer.get pin j = Buffer.get s.enc.PIN j) :
    encScan (s.withPin pin) = mapNext (State.withPin pin) (encScan s) := by
  have hrun : (s.enc.withPin pin).readRun s.enc.pos = s.enc.readRun s.enc.pos := Enc.readRunBelow_withPin id h
  have hpix := Enc.pixRead_withPin (h s.enc.pos le_rfl)
  rw [encScan, encScan, apply_ite (mapNext _)]
  refine ite_congr rfl (fun _ => rfl) fun _ => ?_
  simp only [hrun, hpix]
  cases s.enc.readRun s.enc.pos with
  | error f => rfl
  | ok r =>
    cases s.enc.pixRead s.enc.pos with
    | error f => rfl
    | ok p =>
      dsimp only
      split <;> rfl

theorem encRun_withPin : encRun (s.withPin pin) = mapNext (State.withPin pin) (encRun s) := by
  rw [encRun, encRun]
  dsimp only
  split <;> rfl

theorem encLit_withPin (hwindow : s.enc.pos = s.enc.litStart + s.enc.litLen.toNat)
    (h : ∀ j, s.enc.litStart ≤ j → j < min (s.enc.pos + lookahead) s.enc.inLen →
      Buffer.get pin j = Buffer.get s.enc.PIN j) :
    encLit (s.withPin pin) = mapNext (State.withPin pin) (encLit s) := by
  have hext := Enc.litExtends_withPin fun j h1 => h j (by omega)
  have hblock := Enc.litBlock_withPin fun j h1 h2 h3 => h j h1 (lt_min (by omega) h3)
  rw [encLit, encLit, hext]
  cases s.enc.litExtends with
  | error f => rfl
  | ok b =>
    cases b with
    | true => rfl
    | false =>
      dsimp only
      rw [encLitClose, encLitClose, hblock]
      cases s.enc.litBlock with
      | error f => rfl
      | ok pix =>
        dsimp only
        split <;> rfl

end

/-- Settles O55: the reads of each state, and none in RUN. -/
theorem encoderReadsOnlyItsRecordAndWindow : Obligations.EncoderReadsOnlyItsRecordAndWindow := by
  unfold Obligations.EncoderReadsOnlyItsRecordAndWindow
  intro s pin base top hbounds hagree
  have hmode : (s.withPin pin).enc.emode = s.enc.emode := rfl
  have hstep : encMove (s.withPin pin) = mapNext (State.withPin pin) (encMove s) := by
    rw [encMove, encMove, hmode]
    obtain ⟨hne, rfl, rfl⟩ | ⟨hm, hwindow, rfl, rfl⟩ := hbounds
    · cases hm : s.enc.emode
      case scan => exact encScan_withPin hagree
      case run => exact encRun_withPin
      case lit => exact absurd hm hne
      all_goals rfl
    · rw [hm]
      exact encLit_withPin hwindow hagree
  refine hstep.trans ?_
  cases encMove s <;> rfl

end Sys2Proof.Machine
end

section
/-! PROOFS of the other statements, sixth part: `Encode`'s output is the closed form (R149, R150). A block of fewer than
3 pixels can be read pixel by pixel, and a stretch of more than 128 pixels record by record, without changing the closed
form's records; that is what the literal loop does. -/

namespace Sys2Proof.Machine

/-! ## R149: the blocks -/

/-- R149: the pixel in front joins the first block, or makes one of its own. -/
theorem blocks_cons_cases (p : Pixel) (t : List Pixel) :
    (∃ n bs, blocks t = (p, n) :: bs ∧ blocks (p :: t) = (p, n + 1) :: bs) ∨
      ((∀ b ∈ (blocks t).head?, p ≠ b.1) ∧ blocks (p :: t) = (p, 1) :: blocks t) := by
  rw [blocks]
  cases blocks t with
  | nil => exact .inr ⟨by simp, rfl⟩
  | cons b bs =>
    obtain ⟨q, n⟩ := b
    by_cases h : p = q
    · subst h
      exact .inl ⟨n, bs, rfl, if_pos rfl⟩
    · exact .inr ⟨by simpa using h, if_neg h⟩

/-- The pixels that blocks stand for. -/
def blockPixels (bs : List (Pixel × Nat)) : List Pixel := bs.flatMap fun b => List.replicate b.2 b.1

/-- R149: maximal blocks: none is empty, and neighbours differ in their pixel. -/
structure MaximalBlocks (bs : List (Pixel × Nat)) : Prop where
  nonempty : ∀ b ∈ bs, 1 ≤ b.2
  differ : bs.IsChain fun b c => b.1 ≠ c.1

theorem blockPixels_blocks (l : List Pixel) : blockPixels (blocks l) = l := by
  induction l with
  | nil => rfl
  | cons p t ih =>
    obtain ⟨n, bs, ht, hpt⟩ | ⟨-, hpt⟩ := blocks_cons_cases p t
    · rw [ht] at ih
      rw [hpt, ← ih]
      rfl
    · rw [hpt]
      exact congrArg (p :: ·) ih

theorem maximalBlocks_blocks (l : List Pixel) : MaximalBlocks (blocks l) := by
  induction l with
  | nil => exact ⟨by simp [blocks], .nil⟩
  | cons p t ih =>
    obtain ⟨hne, hdiff⟩ := ih
    obtain ⟨n, bs, ht, hpt⟩ | ⟨hp, hpt⟩ := blocks_cons_cases p t
    · rw [ht] at hne hdiff
      rw [hpt]
      refine ⟨List.forall_mem_cons.2 ⟨Nat.le_add_left 1 n, (List.forall_mem_cons.1 hne).2⟩, ?_⟩
      rw [List.isChain_cons] at hdiff ⊢
      exact hdiff
    · rw [hpt]
      exact ⟨List.forall_mem_cons.2 ⟨le_rfl, hne⟩, List.isChain_cons.2 ⟨hp, hdiff⟩⟩

/-- Settles O38, by induction on the pixels. -/
theorem blocksAreMaximalRuns : Obligations.BlocksAreMaximalRuns := by
  unfold Obligations.BlocksAreMaximalRuns
  intro pin
  obtain ⟨hne, hdiff⟩ := maximalBlocks_blocks pin
  refine ⟨blockPixels_blocks pin, hne, fun i b c hb hc => ?_⟩
  obtain ⟨hi, rfl⟩ := List.getElem?_eq_some_iff.1 hb
  obtain ⟨hi', rfl⟩ := List.getElem?_eq_some_iff.1 hc
  exact List.isChain_iff_getElem.1 hdiff i hi'

/-- R149: in front of another pixel, `n` copies are a block. -/
theorem blocks_replicate_append {n : Nat} (hn : 1 ≤ n) {p : Pixel} {t : List Pixel}
    (h : ∀ q ∈ t.head?, q ≠ p) : blocks (List.replicate n p ++ t) = (p, n) :: blocks t := by
  induction n, hn using Nat.le_induction with
  | base =>
    cases t with
    | nil => rfl
    | cons q t =>
      have hq : q ≠ p := by simpa using h
      have hhead : ∃ m bs, blocks (q :: t) = (q, m) :: bs := by
        obtain ⟨n, bs, -, hqt⟩ | ⟨-, hqt⟩ := blocks_cons_cases q t
        · exact ⟨_, _, hqt⟩
        · exact ⟨_, _, hqt⟩
      obtain ⟨m, bs, hbs⟩ := hhead
      show blocks (p :: q :: t) = _
      rw [blocks, hbs]
      exact if_neg hq.symm
  | succ n hn ih =>
    rw [List.replicate_succ, List.cons_append, blocks, ih]
    exact if_pos rfl

/-- The pixel behind a run is another one. -/
theorem head?_drop_leading (p : Pixel) (l : List Pixel) : ∀ q ∈ (l.drop (leading p l)).head?, q ≠ p := by
  induction l with
  | nil => simp
  | cons q t ih =>
    rw [leading]
    split
    · exact ih
    next h => simpa using h

/-- R140, R149: the run at `i` is the first block of the pixels from `i` on. -/
theorem blocks_drop {pin : List Pixel} {i : Nat} {p : Pixel} (h : pin[i]? = some p) :
    blocks (pin.drop i) = (p, runLen pin i) :: blocks (pin.drop (i + runLen pin i)) := by
  obtain ⟨hlt, hp⟩ := List.getElem?_eq_some_iff.1 h
  have hrun : runLen pin i = leading p (pin.drop i) := by
    rw [runLen, List.drop_eq_getElem_cons hlt, hp, leading, if_pos rfl]
  have hsplit : pin.drop i = List.replicate (runLen pin i) p ++ pin.drop (i + runLen pin i) := by
    rw [← slice_runLen h, slice, ← List.drop_drop, List.take_append_drop]
  conv_lhs => rw [hsplit]
  refine blocks_replicate_append (runLen_pos hlt) ?_
  rw [← List.drop_drop, hrun]
  exact head?_drop_leading p _

/-! ## R150: the records of a stretch -/

/-- R150: as many rounds as pixels are enough. -/
theorem litRecords_of_enough (fuel : Nat) (st : List Pixel) (h : st.length ≤ fuel) :
    litRecords fuel st = litRecords st.length st := by
  induction fuel using Nat.strongRecOn generalizing st with
  | _ fuel ih =>
    cases st with
    | nil => cases fuel <;> rfl
    | cons p t =>
      rw [List.length_cons] at h ⊢
      obtain ⟨fuel, rfl⟩ : ∃ k, fuel = k + 1 := ⟨fuel - 1, by omega⟩
      have hdrop : ((p :: t).drop maxCount).length ≤ t.length := by
        simp [maxCount]
      rw [litRecords, litRecords, ih fuel (by omega) _ (by omega), ih t.length (by omega) _ hdrop]

theorem litRecords_short {st : List Pixel} (h1 : 1 ≤ st.length) (h128 : st.length ≤ 128) :
    litRecords st.length st = [.wholeLit st.length st] := by
  cases st with
  | nil => simp at h1
  | cons p t =>
    rw [List.length_cons, litRecords, if_neg (List.cons_ne_nil p t)]
    exact if_pos h128

/-- R150: the first 128 pixels of a stretch are a record of their own. -/
theorem litRecords_append_full {a : List Pixel} (ha : a.length = 128) (st : List Pixel) :
    litRecords (a ++ st).length (a ++ st) = .wholeLit 128 a :: litRecords st.length st := by
  cases st with
  | nil => rw [List.append_nil, litRecords_short (by omega) ha.le, ha]; rfl
  | cons p t =>
    have hlen : (a ++ p :: t).length = t.length + 128 + 1 := by
      rw [List.length_append, List.length_cons, ha]; omega
    have hne : a ++ p :: t ≠ [] := by simp
    have htake : (a ++ p :: t).take maxCount = a := by rw [maxCount, ← ha, List.take_left]
    have hdrop : (a ++ p :: t).drop maxCount = p :: t := by rw [maxCount, ← ha, List.drop_left]
    rw [hlen, litRecords, if_neg hne, if_neg (by rw [hlen, maxCount]; omega), htake, hdrop,
      litRecords_of_enough (t.length + 128) (p :: t) (by rw [List.length_cons]; omega)]
    rfl

/-! ## R150: the closed form's records -/

theorem closedRecords_nil (st : List Pixel) : closedRecords [] st = litRecords st.length st := rfl

theorem closedRecords_long {n : Nat} (h : 3 ≤ n) (p : Pixel) (bs : List (Pixel × Nat)) (st : List Pixel) :
    closedRecords ((p, n) :: bs) st = litRecords st.length st ++ runsRecords n p ++ closedRecords bs [] := by
  rw [closedRecords, if_pos (show threshold ≤ n from h)]

theorem closedRecords_short {n : Nat} (h : n < 3) (p : Pixel) (bs : List (Pixel × Nat)) (st : List Pixel) :
    closedRecords ((p, n) :: bs) st = closedRecords bs (st ++ List.replicate n p) := by
  rw [closedRecords, if_neg (show ¬ threshold ≤ n from Nat.not_le.2 h)]

/-- R150: the first 128 pixels of the stretch so far are a record of their own. -/
theorem closedRecords_append_full {a : List Pixel} (ha : a.length = 128) (bs : List (Pixel × Nat)) (st : List Pixel) :
    closedRecords bs (a ++ st) = .wholeLit 128 a :: closedRecords bs st := by
  induction bs generalizing st with
  | nil => exact litRecords_append_full ha st
  | cons b bs ih =>
    obtain ⟨p, n⟩ := b
    obtain hlt | hge := Nat.lt_or_ge n 3
    · rw [closedRecords_short hlt, closedRecords_short hlt, List.append_assoc, ih]
    · rw [closedRecords_long hge, closedRecords_long hge, litRecords_append_full ha]
      rfl

/-- R150: a stretch of at most 128 pixels is one record when it has 128, or a long block or the input's end follows. -/
theorem closedRecords_close {pin st : List Pixel} {i : Nat} (h1 : 1 ≤ st.length) (h128 : st.length ≤ 128)
    (hend : st.length < 128 → i < pin.length → 3 ≤ runLen pin i) :
    closedRecords (blocks (pin.drop i)) st =
      .wholeLit st.length st :: closedRecords (blocks (pin.drop i)) [] := by
  obtain heq | hroom := h128.eq_or_lt
  · rw [heq, ← closedRecords_append_full heq, List.append_nil]
  replace hend := hend hroom
  obtain hlt | hge := Nat.lt_or_ge i pin.length
  · rw [blocks_drop (List.getElem?_eq_getElem hlt), closedRecords_long (hend hlt), closedRecords_long (hend hlt),
      litRecords_short h1 h128]
    rfl
  · rw [List.drop_of_length_le hge]
    exact litRecords_short h1 h128

/-- R150: a pixel of a short block joins the stretch. -/
theorem closedRecords_absorb {pin st : List Pixel} {i : Nat} {p : Pixel} (h : pin[i]? = some p)
    (hshort : runLen pin i < 3) :
    closedRecords (blocks (pin.drop i)) st = closedRecords (blocks (pin.drop (i + 1))) (st ++ [p]) := by
  obtain ⟨hlt, hp⟩ := List.getElem?_eq_some_iff.1 h
  have hb := blocks_drop h
  rw [List.drop_eq_getElem_cons hlt, hp] at hb ⊢
  obtain ⟨n, bs, ht, hpt⟩ | ⟨-, hpt⟩ := blocks_cons_cases p (pin.drop (i + 1))
  · have hn : n + 1 = runLen pin i := by
      rw [hb] at hpt
      exact (by simpa using hpt.symm : n + 1 = runLen pin i ∧ _).1
    rw [hpt, ht, closedRecords_short (by omega), closedRecords_short (by omega), List.append_assoc]
    rfl
  · rw [hpt, closedRecords_short (by decide)]
    rfl

/-! ## The literal loop and the closed form -/

theorem slice_succ {pin : List Pixel} {i n : Nat} {p : Pixel} (h : pin[i + n]? = some p) :
    slice pin i (n + 1) = slice pin i n ++ [p] := by
  rw [slice, slice, List.take_add_one, List.getElem?_drop, h]
  rfl

/-- R144, R150: the block that the literal loop closes is the next record of the closed form. -/
theorem closedRecords_litLoop {pin : List Pixel} (fuel start len : Nat) (h1 : 1 ≤ len) (h128 : len ≤ 128)
    (hin : start + len ≤ pin.length) (hfuel : 128 ≤ len + fuel) :
    closedRecords (blocks (pin.drop (start + len))) (slice pin start len) =
      .wholeLit (litLoop pin fuel len (start + len)) (slice pin start (litLoop pin fuel len (start + len))) ::
        closedRecords (blocks (pin.drop (start + litLoop pin fuel len (start + len)))) [] := by
  have hlen : (slice pin start len).length = len := slice_length hin
  have hclose (hend : len < 128 → start + len < pin.length → 3 ≤ runLen pin (start + len)) :
      closedRecords (blocks (pin.drop (start + len))) (slice pin start len) =
        .wholeLit len (slice pin start len) :: closedRecords (blocks (pin.drop (start + len))) [] := by
    have hrec := closedRecords_close (hlen.symm ▸ h1) (hlen.symm ▸ h128) (hlen.symm ▸ hend)
    rwa [hlen] at hrec
  cases fuel with
  | zero => exact hclose (by omega)
  | succ fuel =>
    rw [litLoop]
    split
    next h =>
      obtain ⟨hroom, hlt, hrun⟩ := h
      simp only [maxCount, runLenW, lookahead, threshold] at hroom hrun
      have hpix := List.getElem?_eq_getElem hlt
      rw [closedRecords_absorb hpix (by omega), ← slice_succ hpix]
      exact closedRecords_litLoop fuel start (len + 1) (by omega) hroom hlt (by omega)
    next h =>
      simp only [maxCount, runLenW, lookahead, threshold] at h
      exact hclose (by omega)

/-- R146, R150: from `pos` on `Encode` emits the closed form of the pixels that are left. -/
theorem encodeLoop_none_closedRecords (pin : List Pixel) (fuel pos : Nat) (bout : List Byte)
    (hpos : pos ≤ pin.length) (hfuel : pin.length < pos + fuel) :
    (encodeLoop none pin fuel pos bout).bout =
      bout ++ (closedRecords (blocks (pin.drop pos)) []).flatMap encode := by
  induction fuel generalizing pos bout with
  | zero => omega
  | succ fuel ih =>
    cases hp : pin[pos]? with
    | none =>
      rw [List.drop_of_length_le (List.getElem?_eq_none_iff.1 hp)]
      simp [encodeLoop, hp, blocks, closedRecords, litRecords]
    | some p =>
      obtain ⟨hlt, -⟩ := List.getElem?_eq_some_iff.1 hp
      by_cases hrun : threshold ≤ runLen pin pos
      · have hle := runLen_le pin pos
        have hnonempty := runLen_pos hlt
        simp only [encodeLoop, hp, if_pos hrun, chunkLoop_none p _ _ pos bout le_rfl]
        rw [ih _ _ (by omega) (by omega), blocks_drop hp, closedRecords_long hrun]
        simp [litRecords]
      · obtain ⟨hnonempty, hmax, hin⟩ := litLoop_bounds pin maxCount 1 (pos + 1) (by omega) hlt
        have hclosed := closedRecords_litLoop maxCount pos 1 le_rfl (by omega) hlt (by decide)
        have hfirst : slice pin pos 1 = [] ++ [p] := by rw [slice_succ (n := 0) hp]; rfl
        rw [hfirst, ← closedRecords_absorb hp (by simpa [threshold] using hrun)] at hclosed
        simp only [encodeLoop, hp, if_neg hrun, emitRecord_none false ⟨hnonempty, hmax⟩]
        rw [ih _ _ (by omega) (by omega), hclosed, List.flatMap_cons, encode_wholeLit, List.append_assoc]

/-- Settles O37, from the first pixel on. -/
theorem encoderGivesTheClosedForm : Obligations.EncoderGivesTheClosedForm := by
  unfold Obligations.EncoderGivesTheClosedForm
  intro pin
  simpa [encodeStream, encodeAll, closedForm] using
    encodeLoop_none_closedRecords pin (pin.length + 1) 0 [] (Nat.zero_le _) (by omega)

/-- Settles O39: the closed form of one block. -/
theorem oneRunGivesItsChunks : Obligations.OneRunGivesItsChunks := by
  unfold Obligations.OneRunGivesItsChunks
  intro len p hlen
  have hblocks : blocks (List.replicate len p) = [(p, len)] := by
    simpa [blocks] using blocks_replicate_append (n := len) (t := []) (by omega) (p := p) (by simp)
  rw [encoderGivesTheClosedForm, closedForm, hblocks, closedRecords_long hlen, closedRecords_nil]
  simp [litRecords]

/-- Settles O40, by `encodeAll_none_records`. -/
theorem encoderNeverFails : Obligations.EncoderNeverFails := by
  unfold Obligations.EncoderNeverFails
  intro pin
  obtain ⟨rs, -, -, hrun⟩ := encodeAll_none_records pin
  rw [hrun]
  exact ⟨rfl, rfl, rfl, rfl⟩

end Sys2Proof.Machine
end

section
/-! PROOFS of the other statements, seventh part: ENC's conversions. From SCAN the encoder's moves do what a round of
R146's loop does, chunk by chunk and pixel by pixel, and so reach what `Encode` gives (R146); with DEC behind it they
give PIN back (R147). -/

namespace Sys2Proof.Machine

/-! ## Runs of the encoder's moves -/

/-- Some of ENC's moves lead to a state that satisfies `P`. -/
def State.EncReaches (s : State) (P : State → Prop) : Prop := ∃ k t, moves encMove k s = .next t ∧ P t

theorem State.encReaches_here {s : State} {P : State → Prop} (h : P s) : s.EncReaches P := ⟨0, s, rfl, h⟩

theorem State.encReaches_step {s t : State} {P : State → Prop} (hstep : encMove s = .next t) (h : t.EncReaches P) :
    s.EncReaches P := by
  obtain ⟨k, u, hu, hP⟩ := h
  exact ⟨k + 1, u, (moves_succ hstep k).trans hu, hP⟩

theorem State.EncReaches.bind {s : State} {P Q : State → Prop} (h : s.EncReaches P)
    (hnext : ∀ t, P t → t.EncReaches Q) : s.EncReaches Q := by
  obtain ⟨k, t, ht, hP⟩ := h
  obtain ⟨j, u, hu, hQ⟩ := hnext t hP
  exact ⟨k + j, u, (moves_add ht j).trans hu, hQ⟩

/-- The conversion has ended, in what `r` says. -/
structure State.EncEndsIn (r : Encoded) (s : State) : Prop where
  done : s.enc.doneBit = true
  observe : s.enc.observe = r

theorem State.encEndsIn_of_observe {s : State} {r : Encoded} (h : s.enc.observe = r)
    (hr : r.emode = .done ∨ r.emode = .error) : s.EncEndsIn r := by
  subst h
  refine ⟨?_, rfl⟩
  obtain hm | hm : s.enc.emode = .done ∨ s.enc.emode = .error := hr <;> rw [Enc.doneBit, hm]

/-- A record that does not fit ends the conversion as R146's loop says. -/
theorem State.encEndsIn_stopped {s : State} {mode : EMode} {pos : Nat} {bout : List Byte}
    (h : s.enc.observe = ⟨mode, pos, bout, 0, 0⟩) :
    (s.take .enc (.capacity s.enc.pos)).EncEndsIn (stopped (.capacity pos) pos bout) := by
  simp only [Enc.observe, Encoded.mk.injEq] at h
  obtain ⟨-, rfl, rfl, -⟩ := h
  exact State.encEndsIn_of_observe rfl (.inr rfl)

/-- ENC in SCAN at `pos` of a conversion of `pin`, with the output `bout` of capacity `cap` and no error. -/
structure State.ScanAt (cap : Option Nat) (pin : List Pixel) (pos : Nat) (bout : List Byte) (s : State) : Prop where
  capacity : s.cfg.outCapBytes = cap
  holds : s.enc.HoldsFrom 0 pin
  observed : s.enc.observe = ⟨.scan, pos, bout, 0, 0⟩
  posInRange : pos ≤ pin.length

/-! ## A run -/

/-- ENC in RUN with `rem` copies of `p` to emit. -/
structure State.RunAt (cap : Option Nat) (pin : List Pixel) (p : Pixel) (rem pos : Nat) (bout : List Byte)
    (s : State) : Prop where
  capacity : s.cfg.outCapBytes = cap
  holds : s.enc.HoldsFrom 0 pin
  observed : s.enc.observe = ⟨.run, pos, bout, 0, 0⟩
  runPix : s.enc.runPix = p
  runRem : s.enc.runRem = rem
  nonempty : 1 ≤ rem
  inRange : pos + rem ≤ pin.length

theorem chunkLoop_done (cap : Option Nat) (p : Pixel) (fuel pos : Nat) (bout : List Byte) :
    chunkLoop cap p fuel 0 pos bout = .ok (pos, bout) := by
  cases fuel <;> rfl

section

variable {cap : Option Nat} {pin : List Pixel} {p : Pixel} {rem pos : Nat} {bout : List Byte} {s : State}
  (h : s.RunAt cap pin p rem pos bout)
include h

/-- R143: a chunk that does not fit ends the conversion. -/
theorem State.RunAt.encReaches_stopped (hover : within cap (bout.length + 5) = false) :
    s.EncReaches (State.EncEndsIn (stopped (.capacity pos) pos bout)) := by
  obtain ⟨rfl, -, hobs, -, rfl, hpos, -⟩ := h
  have hstop := State.encEndsIn_stopped hobs
  simp only [Enc.observe, Encoded.mk.injEq] at hobs
  obtain ⟨hm, -, rfl, -⟩ := hobs
  exact State.encReaches_step ((encMove_run hm).trans (encRun_over hpos hover)) (State.encReaches_here hstop)

/-- R143: a chunk that fits leads back to SCAN when it is the last, and else to the next chunk. -/
theorem State.RunAt.encMove_chunk (hfit : within cap (bout.length + 5) = true) :
    ∃ t, encMove s = .next t ∧
      (rem - min rem 128 = 0 →
        t.ScanAt cap pin (pos + min rem 128) (bout ++ encode (.wholeRun (min rem 128) p))) ∧
      (rem - min rem 128 ≠ 0 → t.RunAt cap pin p (rem - min rem 128) (pos + min rem 128)
        (bout ++ encode (.wholeRun (min rem 128) p))) := by
  obtain ⟨rfl, hholds, hobs, rfl, rfl, hpos, hle⟩ := h
  simp only [Enc.observe, Encoded.mk.injEq] at hobs
  obtain ⟨hm, rfl, rfl, herr, hinfo⟩ := hobs
  refine ⟨_, (encMove_run hm).trans (encRun_fits hpos hfit),
    fun hlast => ⟨rfl, ⟨hholds.length, hholds.pixels⟩, ?_, by omega⟩,
    fun hmore => ⟨rfl, ⟨hholds.length, hholds.pixels⟩, ?_, rfl, rfl, by omega, by omega⟩⟩
  · simp [Enc.observe, hlast, herr, hinfo]
  · simp [Enc.observe, hmore, herr, hinfo]

end

/-- R143: a round of the chunk loop is a move in RUN. -/
theorem State.RunAt.encReaches_chunkLoop {cap : Option Nat} {pin : List Pixel} {p : Pixel} {fuel rem pos : Nat}
    {bout : List Byte} {s : State} (h : s.RunAt cap pin p rem pos bout) (hfuel : rem ≤ fuel) :
    (∀ e, chunkLoop cap p fuel rem pos bout = .error e → s.EncReaches (State.EncEndsIn e)) ∧
      (∀ pos' bout', chunkLoop cap p fuel rem pos bout = .ok (pos', bout') →
        s.EncReaches fun t => pos < pos' ∧ t.ScanAt cap pin pos' bout') := by
  have hpos := h.nonempty
  induction fuel generalizing s rem pos bout with
  | zero => omega
  | succ fuel ih =>
    have hcount : 1 ≤ min rem 128 ∧ min rem 128 ≤ 128 := by omega
    rw [chunkLoop, if_neg (by omega)]
    simp only [maxCount]
    cases hw : within cap (bout.length + 5) with
    | false =>
      simp only [emitRecord_over (f := true) (pix := [p]) hcount hw]
      refine ⟨fun e he => ?_, nofun⟩
      cases he
      exact h.encReaches_stopped hw
    | true =>
      simp only [emitRecord_fits (f := true) (pix := [p]) hcount hw, ← encode_wholeRun]
      obtain ⟨t, hstep, hscan, hrun⟩ := h.encMove_chunk hw
      by_cases hlast : rem - min rem 128 = 0
      · rw [hlast, chunkLoop_done]
        refine ⟨nofun, fun pos' bout' he => ?_⟩
        cases he
        exact State.encReaches_step hstep (State.encReaches_here ⟨by omega, hscan hlast⟩)
      · obtain ⟨hend, hnext⟩ := ih (hrun hlast) (by omega) (by omega)
        refine ⟨fun e he => State.encReaches_step hstep (hend e he), fun pos' bout' he => ?_⟩
        refine State.encReaches_step hstep ((hnext pos' bout' he).bind fun u ⟨hlt, hu⟩ => ?_)
        exact State.encReaches_here ⟨by omega, hu⟩

/-! ## A literal block -/

/-- ENC in LIT with a block of `len` pixels, the first at `start`. -/
structure State.LitAt (cap : Option Nat) (pin : List Pixel) (start len : Nat) (bout : List Byte) (s : State) :
    Prop where
  capacity : s.cfg.outCapBytes = cap
  holds : s.enc.HoldsFrom 0 pin
  observed : s.enc.observe = ⟨.lit, start + len, bout, 0, 0⟩
  litStart : s.enc.litStart = start
  litLen : s.enc.litLen.toNat = len
  legal : 1 ≤ len ∧ len ≤ 128
  inRange : start + len ≤ pin.length

section

variable {cap : Option Nat} {pin : List Pixel} {start len : Nat} {bout : List Byte} {s : State}

/-- R144: the block absorbs pixels while the literal loop does, and is then to be closed. -/
theorem State.LitAt.encReaches_litLoop (fuel : Nat) (h : s.LitAt cap pin start len bout) (hfuel : 128 ≤ len + fuel) :
    s.EncReaches fun t =>
      t.LitAt cap pin start (litLoop pin fuel len (start + len)) bout ∧ ¬ t.enc.Absorbs pin := by
  induction fuel generalizing s len with
  | zero =>
    refine State.encReaches_here ⟨h, fun habs => ?_⟩
    have hroom : s.enc.litLen.toNat < 128 := habs.1
    rw [h.litLen] at hroom
    omega
  | succ fuel ih =>
    have hobs := h.observed
    simp only [Enc.observe, Encoded.mk.injEq] at hobs
    obtain ⟨hm, hpos, hout, herr, hinfo⟩ := hobs
    have habs : s.enc.Absorbs pin ↔
        len < maxCount ∧ start + len < pin.length ∧ runLenW pin (start + len) < threshold := by
      rw [Enc.Absorbs, h.litLen, hpos]
    rw [litLoop]
    split
    next hc =>
      refine State.encReaches_step ((encMove_lit hm).trans (encLit_extends h.holds (Nat.zero_le _) (habs.2 hc)))
        (ih ⟨h.capacity, ⟨h.holds.length, h.holds.pixels⟩, ?_, h.litStart, ?_, ?_, hc.2.1⟩ (by omega))
      · simp [Enc.observe, hm, hpos, hout, herr, hinfo, Nat.add_assoc]
      · have hlen := h.litLen
        have hroom : len < 128 := hc.1
        dsimp only
        bv_omega
      · have hroom : len < 128 := hc.1
        omega
    next hc => exact State.encReaches_here ⟨h, fun ha => hc (habs.1 ha)⟩

/-- R144: a block to be closed is emitted as R146's loop says. -/
theorem State.LitAt.encReaches_close (h : s.LitAt cap pin start len bout) (habs : ¬ s.enc.Absorbs pin) :
    (∀ ev, emitRecord cap false len (slice pin start len) (start + len) bout = .raised ev →
      s.EncReaches (State.EncEndsIn (stopped ev (start + len) bout))) ∧
    (∀ bout', emitRecord cap false len (slice pin start len) (start + len) bout = .ok bout' →
      s.EncReaches (State.ScanAt cap pin (start + len) bout')) := by
  obtain ⟨rfl, hholds, hobs, rfl, rfl, hlegal, hle⟩ := h
  have hstop := State.encEndsIn_stopped hobs
  simp only [Enc.observe, Encoded.mk.injEq] at hobs
  obtain ⟨hm, hpos, rfl, herr, hinfo⟩ := hobs
  have hclose := (encMove_lit hm).trans (encLit_closes hholds (Nat.zero_le _) habs)
  have hlen := slice_length hle
  cases hw : within s.cfg.outCapBytes (s.enc.BOUT.length + (1 + 4 * s.enc.litLen.toNat)) with
  | false =>
    rw [emitRecord_over hlegal (by rwa [hlen])]
    refine ⟨fun ev he => ?_, nofun⟩
    cases he
    exact State.encReaches_step (hclose.trans (encLitClose_over hholds (Nat.zero_le _) hlegal hle hw))
      (State.encReaches_here hstop)
  | true =>
    rw [emitRecord_fits hlegal (by rwa [hlen])]
    refine ⟨nofun, fun bout' he => ?_⟩
    cases he
    refine State.encReaches_step (hclose.trans (encLitClose_fits hholds (Nat.zero_le _) hlegal hle hw))
      (State.encReaches_here ⟨rfl, ⟨hholds.length, hholds.pixels⟩, ?_, hle⟩)
    simp [Enc.observe, hpos, herr, hinfo, encode_wholeLit]

end

/-! ## R146's loop -/

/-- R142: the SCAN step of a conversion opens a run or a literal block. -/
theorem State.ScanAt.encMove_pixel {cap : Option Nat} {pin : List Pixel} {pos : Nat} {bout : List Byte} {s : State}
    (h : s.ScanAt cap pin pos bout) {p : Pixel} (hp : pin[pos]? = some p) :
    ∃ t, encMove s = .next t ∧
      (threshold ≤ runLen pin pos → t.RunAt cap pin p (runLen pin pos) pos bout) ∧
      (¬ threshold ≤ runLen pin pos → t.LitAt cap pin pos 1 bout) := by
  obtain ⟨hcap, hholds, hobs, -⟩ := h
  simp only [Enc.observe, Encoded.mk.injEq] at hobs
  obtain ⟨hm, rfl, hout, herr, hinfo⟩ := hobs
  obtain ⟨hlt, -⟩ := List.getElem?_eq_some_iff.1 hp
  have hscan := (encMove_scan hm).trans (encScan_pixel (hholds.mono (Nat.zero_le _)) hp)
  by_cases hrun : 3 ≤ runLen pin s.enc.pos
  · rw [if_pos hrun] at hscan
    have hle := runLen_le pin s.enc.pos
    refine ⟨_, hscan, fun _ => ⟨hcap, ⟨hholds.length, hholds.pixels⟩, ?_, rfl, rfl, by omega, by omega⟩, absurd hrun⟩
    simp [Enc.observe, hout, herr, hinfo]
  · rw [if_neg hrun] at hscan
    refine ⟨_, hscan, (absurd · hrun), fun _ => ⟨hcap, ⟨hholds.length, hholds.pixels⟩, ?_, rfl, rfl, by decide, hlt⟩⟩
    simp [Enc.observe, hout, herr, hinfo]

/-- R146: from SCAN the encoder's moves end in what the loop gives. -/
theorem State.ScanAt.encReaches_encodeLoop {cap : Option Nat} {pin : List Pixel} {fuel pos : Nat} {bout : List Byte}
    {s : State} (h : s.ScanAt cap pin pos bout) (hfuel : pin.length < pos + fuel) :
    s.EncReaches (State.EncEndsIn (encodeLoop cap pin fuel pos bout)) := by
  induction fuel generalizing s pos bout with
  | zero => have := h.posInRange; omega
  | succ fuel ih =>
    rw [encodeLoop]
    cases hp : pin[pos]? with
    | none =>
      have hend : pos = pin.length := h.posInRange.antisymm (List.getElem?_eq_none_iff.1 hp)
      have hobs := h.observed
      simp only [Enc.observe, Encoded.mk.injEq] at hobs
      obtain ⟨hm, hpos, hout, herr, hinfo⟩ := hobs
      have hstep := (encMove_scan hm).trans (encScan_end (by rw [hpos, hend, h.holds.length]))
      refine State.encReaches_step hstep (State.encReaches_here (State.encEndsIn_of_observe ?_ (.inl rfl)))
      simp [Enc.observe, hpos, hout, herr, hinfo]
    | some p =>
      obtain ⟨t, hstep, hrun, hlit⟩ := h.encMove_pixel hp
      refine State.encReaches_step hstep ?_
      dsimp only
      split
      next hlong =>
        obtain ⟨hend, hnext⟩ := (hrun hlong).encReaches_chunkLoop le_rfl
        split
        next e he => exact hend e he
        next pos' bout' he => exact (hnext pos' bout' he).bind fun u ⟨hlt, hu⟩ => ih hu (by omega)
      next hshort =>
        refine ((hlit hshort).encReaches_litLoop maxCount (by decide)).bind fun u ⟨hu, habs⟩ => ?_
        obtain ⟨hend, hnext⟩ := hu.encReaches_close habs
        have hpos := hu.legal.1
        split
        next ev he => exact hend ev he
        next bout' he => exact (hnext bout' he).bind fun v hv => ih hv (by omega)

/-! ## ENC's conversions as steps of the block -/

/-- Log 2: ENC moves, since nothing waits and DEC is at rest. -/
structure State.EncTurn (s : State) : Prop where
  quiet : s.Quiet
  decIdle : s.dec.busy = false

theorem State.EncTurn.step_eq {s : State} (h : s.EncTurn) : step s = encMove s ∨ encMove s = .next s := by
  rw [h.quiet.step_eq, idleMove, h.decIdle, if_neg Bool.false_ne_true]
  cases hb : s.enc.busy with
  | true => exact .inl (if_pos rfl)
  | false => exact .inr (encMove_idle s hb)

theorem State.EncTurn.encMove {s t : State} (h : s.EncTurn) (ht : Machine.encMove s = .next t) : t.EncTurn := by
  have honly := encMove_onlyEnc ht
  obtain ⟨⟨hdec, henc, hag⟩, hidle⟩ := h
  refine ⟨⟨?_, honly.start.trans henc, ?_⟩, ?_⟩ <;> rw [honly.others]
  · exact hdec
  · exact hag
  · exact hidle

theorem State.EncReaches.exists_run {s : State} {P : State → Prop} (h : s.EncReaches P) (hs : s.EncTurn) :
    ∃ j t, Host.Core.run core j s = .next t ∧ P t := by
  obtain ⟨k, t, ht, hP⟩ := h
  obtain ⟨j, -, hrun⟩ := run_of_moves (fun _ => State.EncTurn.step_eq) (fun _ _ => State.EncTurn.encMove) hs ht
  exact ⟨j, t, hrun, hP⟩

namespace State.EncLaunch

variable {s : State} {pin : List Pixel} (h : s.EncLaunch pin)
include h

/-- R201: the step sees the pulse. -/
theorem step_eq : step s = .next (s.launch .enc) :=
  (step_of_encStart h.noOther h.pulse).trans (seeStart_launch h.idle h.duties)

theorem encTurn : (s.launch .enc).EncTurn := ⟨⟨h.noOther, rfl, h.agenda⟩, h.decIdle⟩

theorem scanAt : (s.launch .enc).ScanAt s.cfg.outCapBytes pin 0 [] :=
  ⟨rfl, Enc.holdsFrom_of_range (e := s.enc.afterStart _) h.input 0, rfl, Nat.zero_le _⟩

/-- R146: the START, and then ENC's moves. -/
theorem exists_run : ∃ k t, Host.Core.run core (k + 1) s = .next t ∧
    t.EncEndsIn (encodeAll s.cfg.outCapBytes pin) := by
  obtain ⟨k, t, hrun, hend⟩ :=
    (h.scanAt.encReaches_encodeLoop (fuel := pin.length + 1) (by omega)).exists_run h.encTurn
  exact ⟨k, t, (run_succ h.step_eq k).trans hrun, hend⟩

end State.EncLaunch

/-- Settles O33, by the run of a launch. -/
theorem conversionRunsEncode : Obligations.ConversionRunsEncode := by
  unfold Obligations.ConversionRunsEncode
  intro s pin h
  obtain ⟨k, t, hrun, hend⟩ := h.exists_run
  exact ⟨k, t, hrun, hend.observe, hend.done⟩

/-- R207: an encoder that shows DONE has succeeded. -/
theorem Enc.status_of_done {e : Enc} (h : e.emode = .done) : e.status = .succeeded := by rw [Enc.status, h]

/-- R207: a decoder that shows DONE has succeeded. -/
theorem Dec.status_of_done {d : Dec} (h : d.dmode = .done) : d.status = .succeeded := by rw [Dec.status, h]

/-- Settles O35: ENC's run gives the stream, and DEC's run what `Decode` gives of it, which is PIN by R147. -/
theorem roundTripThroughTheMachine : Obligations.RoundTripThroughTheMachine := by
  unfold Obligations.RoundTripThroughTheMachine
  intro s pin h hcap
  obtain ⟨k, t, hrun, -, hobs⟩ := h.exists_run
  rw [hcap] at hobs
  have hbout : t.enc.BOUT = encodeStream pin := congrArg Encoded.bout hobs
  have hmode : t.enc.emode = .done := (congrArg Encoded.emode hobs).trans (encoderNeverFails pin).1
  refine ⟨k + 1, t, hrun, Enc.status_of_done hmode, fun u hu hcap' => ?_⟩
  obtain ⟨k', v, hrun', hobs', -⟩ := conversionRunsDecode u t.enc.BOUT hu
  rw [hcap', hbout, roundTrip pin] at hobs'
  exact ⟨k' + 1, v, hrun', Dec.status_of_done (congrArg Decoded.dmode hobs'), congrArg Decoded.out hobs',
    congrArg Decoded.endKind hobs'⟩

end Sys2Proof.Machine
end

section
/-! PROOFS of the other statements, eighth part: the host's side. Reset and START (R39, R40), the launch duties (R204),
and the host's writes (R34, R191). -/

namespace Sys2Proof.Machine

/-! ## Reset and START -/

/-- Settles O48: the fields after reset and after START. -/
theorem decoderResetAndStart : Obligations.DecoderResetAndStart := by
  unfold Obligations.DecoderResetAndStart
  refine ⟨fun s => ⟨s.resetAgent .dec, rfl, rfl, rfl, rfl, rfl, rfl, rfl, rfl, rfl, rfl⟩, fun s hstart hidle hok => ?_,
    fun cfg => rfl⟩
  have hstep := (step_of_decStart hstart).trans (seeStart_launch (ag := .dec) hidle hok)
  exact ⟨s.launch .dec, hstep, rfl, rfl, rfl, rfl, rfl, rfl, rfl, rfl, rfl, rfl⟩

/-- Settles O49: the fields after reset and after START. -/
theorem encoderResetAndStart : Obligations.EncoderResetAndStart := by
  unfold Obligations.EncoderResetAndStart
  refine ⟨fun s => ⟨s.resetAgent .enc, rfl, rfl, rfl, rfl, rfl, rfl, rfl, rfl, rfl⟩, fun s hdec hstart hidle hok => ?_,
    fun cfg => rfl⟩
  have hstep := (step_of_encStart hdec hstart).trans (seeStart_launch (ag := .enc) hidle hok)
  exact ⟨s.launch .enc, hstep, rfl, rfl, rfl, rfl, rfl, rfl, rfl, rfl, rfl⟩

/-! ## R204: the launch duties -/

theorem seeStart_refused_iff {ag : Agent} {s : State} (hidle : s.busy ag = false) :
    seeStart ag s = .refused (.launchOutsideModel ag) ↔ s.launchOk ag = false := by
  rw [seeStart, hidle, if_neg Bool.false_ne_true]
  cases s.launchOk ag <;> simp

theorem indexNamed_eq_false_iff (cfg : Config) (i : Nat) :
    indexNamed cfg i = false ↔ ∃ w, cfg.wAddr = some w ∧ 2 ^ w ≤ i := by
  rw [indexNamed]
  cases cfg.wAddr <;> simp

/-- R204 step 1, log 3: a capacity breaks it when it is missing or not below `2^W_ADDR`. -/
theorem any_indexNamed_eq_false_iff {cfg : Config} {w : Nat} (hw : cfg.wAddr = some w) (cap : Option Nat) :
    cap.any (indexNamed cfg) = false ↔ ∀ c, cap = some c → 2 ^ w ≤ c := by
  cases cap <;> simp [indexNamed, hw]

theorem dutiesMet_eq_false_iff (cfg : Config) :
    dutiesMet cfg = false ↔ ∃ w, cfg.wAddr = some w ∧
      ((∀ c, cfg.outCapPix = some c → 2 ^ w ≤ c) ∨ ∀ c, cfg.outCapBytes = some c → 2 ^ w ≤ c) := by
  rw [dutiesMet]
  cases hw : cfg.wAddr with
  | none => simp
  | some w =>
    dsimp only
    rw [Bool.and_eq_false_iff, any_indexNamed_eq_false_iff hw, any_indexNamed_eq_false_iff hw]
    simp

theorem Buffer.full_eq_false_iff {α : Type} (m : Buffer α) (n : Nat) :
    Buffer.full m n = false ↔ ∃ i < n, Buffer.get m i = none := by
  rw [← Bool.not_eq_true, Buffer.full_iff]
  simp

/-- R204: what a launch on an input of length `n` breaks. -/
theorem launchDuties_eq_false_iff {α : Type} (cfg : Config) (n : Nat) (m : Buffer α) :
    (dutiesMet cfg && indexNamed cfg n && Buffer.full m n) = false ↔
      (∃ w, cfg.wAddr = some w ∧
        ((∀ c, cfg.outCapPix = some c → 2 ^ w ≤ c) ∨ (∀ c, cfg.outCapBytes = some c → 2 ^ w ≤ c) ∨ 2 ^ w ≤ n)) ∨
      ∃ i < n, Buffer.get m i = none := by
  rw [Bool.and_eq_false_iff, Bool.and_eq_false_iff, dutiesMet_eq_false_iff, indexNamed_eq_false_iff,
    Buffer.full_eq_false_iff, ← exists_or]
  simp only [← and_or_left, or_assoc]

/-- Settles O51: a launch is refused exactly when `launchOk` is false. -/
theorem launchNeedsTheHostsDuties : Obligations.LaunchNeedsTheHostsDuties := by
  unfold Obligations.LaunchNeedsTheHostsDuties
  refine ⟨fun s hstart hidle => ?_, fun s hdec hstart hidle => ?_⟩
  · rw [step_of_decStart hstart, seeStart_refused_iff (ag := .dec) hidle]
    exact launchDuties_eq_false_iff s.cfg s.dec.inLen s.dec.IN
  · rw [step_of_encStart hdec hstart, seeStart_refused_iff (ag := .enc) hidle]
    exact launchDuties_eq_false_iff s.cfg s.enc.inLen s.enc.PIN

/-! ## The host's writes -/

theorem indexNamed_of_lt {cfg : Config} {i : Nat} (h : ∀ w, cfg.wAddr = some w → i < 2 ^ w) :
    indexNamed cfg i = true := by
  rw [← Bool.not_eq_false, indexNamed_eq_false_iff]
  rintro ⟨w, hw, hle⟩
  exact absurd (h w hw) (Nat.not_lt.2 hle)

/-- R191: a byte of IN is written outside a conversion. -/
theorem hostMove_writeIn {s : State} {i : Nat} (hidle : s.dec.busy = false) (hi : indexNamed s.cfg i = true)
    (b : Byte) :
    hostMove (.writeIn i b) s = .next { s with dec := { s.dec with IN := Buffer.set s.dec.IN i b } } := by
  rw [hostMove, hidle, if_neg Bool.false_ne_true, if_pos hi]

/-- R191: a pixel of PIN is written outside a conversion. -/
theorem hostMove_writePin {s : State} {i : Nat} (hidle : s.enc.busy = false) (hi : indexNamed s.cfg i = true)
    (p : Pixel) :
    hostMove (.writePin i p) s = .next { s with enc := { s.enc with PIN := Buffer.set s.enc.PIN i p } } := by
  rw [hostMove, hidle, if_neg Bool.false_ne_true, if_pos hi]

/-- R34: IN_LEN is written outside a conversion. -/
theorem hostMove_writeInLen {ag : Agent} {s : State} (hidle : s.busy ag = false) (v : Nat) :
    hostMove (.writeInLen ag v) s = .next (s.setInLen ag v) := by
  rw [hostMove, hidle, if_neg Bool.false_ne_true]

/-- Settles O53, write by write. -/
theorem hostWritesTakeEffect : Obligations.HostWritesTakeEffect := by
  unfold Obligations.HostWritesTakeEffect
  refine ⟨fun s i b hidle hi => ⟨_, hostMove_writeIn hidle (indexNamed_of_lt hi) b, rfl, fun j => ?_⟩,
    fun s i p hidle hi => ⟨_, hostMove_writePin hidle (indexNamed_of_lt hi) p, rfl, fun j => ?_⟩,
    fun s v hidle => hostMove_writeInLen (ag := .dec) hidle v,
    fun s v hidle => hostMove_writeInLen (ag := .enc) hidle v, fun s => ⟨rfl, rfl⟩⟩
  · simp only [Buffer.get_set, eq_comm]
  · simp only [Buffer.get_set, eq_comm]

end Sys2Proof.Machine
end

section
/-! PROOFS of the other statements, ninth part: DEC's moves and the invariant. From a state of the invariant a move of
DEC answers a next state of the invariant (R24, R27, R34, R35, R76), which is at `ip = L` when it is in DONE (R181). -/

namespace Sys2Proof.Machine

/-! ## What a move must leave -/

/-- R27: DEC is inside a record. -/
def Dec.inRecord (d : Dec) : Prop := d.dmode = .runpix ∨ d.dmode = .expand ∨ d.dmode = .litpix

/-- R27, R122: `cnt` is the command byte's count, and `rem` is 1 to `cnt`. -/
def Dec.CountOk (d : Dec) : Prop := d.cnt = cmdCount d.cmd ∧ 1 ≤ d.rem.toNat ∧ d.rem.toNat ≤ d.cnt.toNat

/-- R28, R34, R35, R181: DEC goes on with nothing recorded, has ended at `L`, or has taken CAPACITY. -/
inductive Dec.StatusOk (d : Dec) : Prop where
  | running (hb : d.busy = true) (hip : d.ip ≤ d.inLen) (hend : d.endKind = .none) (herr : d.err = 0)
      (hinfo : d.errInfo = 0)
  | ended (hm : d.dmode = .done) (hip : d.ip = d.inLen) (hend : d.endKind ≠ .none) (herr : d.err = 0)
      (hinfo : d.errInfo = 0)
  | failed (hm : d.dmode = .error) (hend : d.endKind = .none) (herr : d.err = 2) (hinfo : d.errInfo = d.ip)

/-- What a move of a BUSY decoder leaves of it. -/
structure Dec.MovedTo (cap : Option Nat) (d : Dec) : Prop where
  status : d.StatusOk
  fits : within cap d.OUT.length = true
  count : d.inRecord → d.CountOk

theorem Dec.not_inRecord_of_cmd {d : Dec} (h : d.dmode = .cmd) : ¬ d.inRecord := by
  simp [Dec.inRecord, h]

theorem Dec.not_inRecord_of_idle {d : Dec} (h : d.busy = false) : ¬ d.inRecord := by
  rintro (hm | hm | hm) <;> simp [Dec.busy, hm] at h

theorem Dec.busy_of_inRecord {d : Dec} (h : d.inRecord) : d.busy = true :=
  Bool.eq_true_of_not_eq_false fun hb => Dec.not_inRecord_of_idle hb h

/-- R34: a BUSY decoder is neither in DONE nor in ERROR. -/
theorem Dec.ne_of_busy {d : Dec} (hb : d.busy = true) : d.dmode ≠ .done ∧ d.dmode ≠ .error := by
  refine ⟨fun hm => ?_, fun hm => ?_⟩ <;> simp [Dec.busy, hm] at hb

theorem Dec.busy_of_same {d d' : Dec} (hm : d'.dmode = d.dmode) (hb : d.busy = true) : d'.busy = true := by
  rw [Dec.busy, hm]
  exact hb

theorem Dec.inRecord_of_inGroup {d : Dec} (h : d.inGroup) : d.inRecord := h.imp_right .inr

namespace DecInv

variable {cfg : Config} {d : Dec} (h : DecInv cfg d)
include h

/-- R28, R34: a running conversion has recorded nothing. -/
theorem clean_of_busy (hb : d.busy = true) : d.endKind = .none ∧ d.err = 0 ∧ d.errInfo = 0 := by
  obtain ⟨hnd, hne⟩ := Dec.ne_of_busy hb
  exact ⟨h.endRecorded.2 hnd, by rw [h.errCode, if_neg hne], by rw [h.errInfoCode, if_neg hne]⟩

theorem countOk (hm : d.inRecord) : d.CountOk := ⟨h.countLatched hm, h.remInRange hm⟩

/-- R60, R204: a running conversion has its input ahead. -/
theorem exists_ahead (hb : d.busy = true) : ∃ bs, d.Ahead bs :=
  Memory.exists_ahead (h.inputPresent hb) (h.ipInRange hb)

/-- A move that leaves the input alone keeps the invariant. -/
theorem of_movedTo {d' : Dec} (hb : d.busy = true) (hIN : d'.IN = d.IN) (hlen : d'.inLen = d.inLen)
    (hmoved : d'.MovedTo cfg.outCapPix) : DecInv cfg d' := by
  have hcanonical : Memory.wf d'.IN = true := hIN ▸ h.canonical
  have hfull : Buffer.full d'.IN d'.inLen = true := by rw [hIN, hlen]; exact h.inputPresent hb
  obtain ⟨hstatus, hfits, hcount⟩ := hmoved
  have hlatched (hm : d'.inRecord) : d'.cnt = cmdCount d'.cmd := (hcount hm).1
  have hrem (hm : d'.inRecord) : 1 ≤ d'.rem.toNat ∧ d'.rem.toNat ≤ d'.cnt.toNat := (hcount hm).2
  cases hstatus with
  | running hb' hip hend herr hinfo =>
    obtain ⟨hnd, hne⟩ := Dec.ne_of_busy hb'
    exact ⟨hcanonical, fun _ => hfull, fun _ => hip, hfits, hlatched, hrem, by rw [herr, if_neg hne],
      by rw [hinfo, if_neg hne], iff_of_true hend hnd⟩
  | ended hm hip hend herr hinfo =>
    exact ⟨hcanonical, fun _ => hfull, fun _ => hip.le, hfits, hlatched, hrem, by simp [herr, hm],
      by simp [hinfo, hm], iff_of_false hend (by simp [hm])⟩
  | failed hm hend herr hinfo =>
    exact ⟨hcanonical, fun _ => hfull, fun hb' => by simp [Dec.busy, hm] at hb', hfits, hlatched, hrem,
      by simp [herr, hm], by simp [hinfo, hm], iff_of_true hend (by simp [hm])⟩

/-! ## The byte level's registers -/

/-- R101, R181: an ending at the input's end. -/
theorem movedTo_ended (hb : d.busy = true) (hip : d.ip = d.inLen) {kind : EndKind} (hkind : kind ≠ .none) :
    ({ d with endKind := kind, dmode := .done } : Dec).MovedTo cfg.outCapPix := by
  obtain ⟨-, herr, hinfo⟩ := h.clean_of_busy hb
  exact ⟨.ended rfl hip hkind herr hinfo, h.outFits, fun hr => absurd hr (Dec.not_inRecord_of_idle rfl)⟩

/-- R127, R183: CAPACITY. -/
theorem movedTo_capacity (hb : d.busy = true) (a : Nat) : (d.take (.capacity a)).MovedTo cfg.outCapPix := by
  obtain ⟨hend, -, -⟩ := h.clean_of_busy hb
  exact ⟨.failed rfl hend rfl rfl, h.outFits, fun hr => absurd hr (Dec.not_inRecord_of_idle rfl)⟩

/-- R122: the command byte is read. -/
theorem movedTo_latched (hb : d.busy = true) (hlt : d.ip < d.inLen) (c : Byte) :
    ({ d.latch (cmdFlag c) (cmdCount c).toNat with
        ip := d.ip + 1, dmode := if cmdFlag c then .runpix else .litpix } : Dec).MovedTo cfg.outCapPix := by
  obtain ⟨hend, herr, hinfo⟩ := h.clean_of_busy hb
  have hcount := cmdCount_range c
  refine ⟨.running ?_ hlt hend herr hinfo, h.outFits, fun _ => ?_⟩
  · cases cmdFlag c <;> rfl
  · simpa [Dec.CountOk, cmdByte_of_fields] using hcount.1

/-- R123, R124: a byte of a group is read, and the record goes on. -/
theorem movedTo_byte (hm : d.inRecord) (hlt : d.ip < d.inLen) (px : Pixel) (k : BitVec 2) {mode : DMode}
    (hmode : mode = d.dmode ∨ mode = .expand) :
    ({ d with pixbuf := px, ip := d.ip + 1, k := k, dmode := mode } : Dec).MovedTo cfg.outCapPix := by
  have hb := Dec.busy_of_inRecord hm
  obtain ⟨hend, herr, hinfo⟩ := h.clean_of_busy hb
  refine ⟨.running ?_ hlt hend herr hinfo, h.outFits, fun _ => h.countOk hm⟩
  obtain rfl | rfl := hmode
  · exact hb
  · rfl

/-- R124, R125: a pixel is emitted, and the record goes on unless it was the last. -/
theorem movedTo_emitted (hm : d.inRecord) {a : Nat} (ha : a ≤ d.inLen) {p : Pixel} {out : List Pixel}
    (he : emit cfg.outCapPix p d.OUT = some out) (px : Pixel) (k : BitVec 2) :
    ({ d with pixbuf := px, ip := a, OUT := out, k := k, rem := d.rem - 1,
              dmode := if d.rem = 1 then .cmd else d.dmode } : Dec).MovedTo cfg.outCapPix := by
  have hb := Dec.busy_of_inRecord hm
  obtain ⟨hend, herr, hinfo⟩ := h.clean_of_busy hb
  obtain ⟨hfits, rfl⟩ := (emit_eq_some ..).1 he
  obtain ⟨hcnt, hpos, hle⟩ := h.countOk hm
  refine ⟨.running ?_ ha hend herr hinfo, by simpa using hfits, fun hr => ⟨hcnt, ?_⟩⟩
  · by_cases hlast : d.rem = 1
    · exact Dec.busy_of_cmd (if_pos hlast)
    · exact Dec.busy_of_same (if_neg hlast) hb
  · have hmore : d.rem ≠ 1 := fun hlast => Dec.not_inRecord_of_cmd (if_pos hlast) hr
    dsimp only
    bv_omega

end DecInv

/-! ## A byte-level move -/

section

variable {s : State} (h : DecInv s.cfg s.dec)
include h

/-- R122: the CMD step. -/
theorem decByteMove_cmd_movedTo (hm : s.dec.dmode = .cmd) :
    ∃ t, decByteMove s = .next t ∧ t.dec.MovedTo s.cfg.outCapPix := by
  have hb := Dec.busy_of_cmd hm
  obtain ⟨bs, ha⟩ := h.exists_ahead hb
  cases bs with
  | nil => exact ⟨_, decByteMove_cmd_end hm ha.at_end, h.movedTo_ended hb ha.at_end (by decide)⟩
  | cons c bs =>
    have hc := cmdByte_of_fields c
    exact ⟨_, decByteMove_cmd hm (cmdCount_range c) (hc.symm ▸ ha), h.movedTo_latched hb ha.lt c⟩

/-- R123, R124, R127: a step inside a group. -/
theorem decByteMove_group_movedTo (hm : s.dec.inGroup) :
    ∃ t, decByteMove s = .next t ∧ t.dec.MovedTo s.cfg.outCapPix := by
  have hr := Dec.inRecord_of_inGroup hm
  have hb := Dec.busy_of_inRecord hr
  obtain ⟨bs, ha⟩ := h.exists_ahead hb
  cases bs with
  | nil => exact ⟨_, decByteMove_cut_end hm ha.at_end, h.movedTo_ended hb ha.at_end (by decide)⟩
  | cons b bs =>
    by_cases hk : s.dec.k = 3
    · obtain hm | hm := hm
      · exact ⟨_, decByteMove_runpix_last hm hk ha, h.movedTo_byte hr ha.lt _ _ (.inr rfl)⟩
      · cases he : emit s.cfg.outCapPix { s.dec.pixbuf with a := b } s.dec.OUT with
        | none => exact ⟨_, decByteMove_litpix_last_over hm hk ha he, h.movedTo_capacity hb _⟩
        | some out =>
          refine ⟨_, decByteMove_litpix_last hm hk ha he, ?_⟩
          rw [← hm]
          exact h.movedTo_emitted hr ha.lt he _ _
    · exact ⟨_, decByteMove_lane hm hk ha, h.movedTo_byte hr ha.lt _ _ (.inl rfl)⟩

/-- R125, R127: the EXPAND step. -/
theorem decByteMove_expand_movedTo (hm : s.dec.dmode = .expand) :
    ∃ t, decByteMove s = .next t ∧ t.dec.MovedTo s.cfg.outCapPix := by
  have hr : s.dec.inRecord := .inr (.inl hm)
  have hb := Dec.busy_of_inRecord hr
  cases he : emit s.cfg.outCapPix s.dec.pixbuf s.dec.OUT with
  | none => exact ⟨_, decByteMove_expand_over hm he, h.movedTo_capacity hb _⟩
  | some out =>
    refine ⟨_, decByteMove_expand hm he, ?_⟩
    rw [← hm]
    exact h.movedTo_emitted hr (h.ipInRange hb) he _ _

theorem decByteMove_movedTo (hb : s.dec.busy = true) :
    ∃ t, decByteMove s = .next t ∧ t.dec.MovedTo s.cfg.outCapPix := by
  cases hm : s.dec.dmode
  case cmd => exact decByteMove_cmd_movedTo h hm
  case runpix => exact decByteMove_group_movedTo h (.inl hm)
  case litpix => exact decByteMove_group_movedTo h (.inr hm)
  case expand => exact decByteMove_expand_movedTo h hm
  all_goals simp [Dec.busy, hm] at hb

/-! ## A record-level move -/

/-- R103 to R105, R183: a record that the bytes left decode to. -/
theorem exec_movedTo (hm : s.dec.dmode = .cmd) {i : Instr} {rest : List Byte} (hf : i.fetchable = true)
    (ha : s.dec.Ahead (encode i ++ rest)) : ∃ t, exec i s = .next t ∧ t.dec.MovedTo s.cfg.outCapPix := by
  obtain ⟨hend, herr, hinfo⟩ := h.clean_of_busy (Dec.busy_of_cmd hm)
  obtain hfit | ⟨c, hc, hover⟩ := fits_or_over h.outFits i.expand.length
  · cases hw : i.wellFormed with
    | true =>
      obtain ⟨t, ht, -, -, hobs, hleft⟩ := exec_whole_ahead hm hw hfit ha
      simp only [Dec.observe, Decoded.mk.injEq] at hobs
      obtain ⟨hmode, hip, hout, hend', herr', hinfo'⟩ := hobs
      refine ⟨t, ht, .running (Dec.busy_of_cmd hmode) ?_ (hend'.trans hend) (herr'.trans herr) (hinfo'.trans hinfo),
        by rwa [hout, List.length_append], fun hr => absurd hr (Dec.not_inRecord_of_cmd hmode)⟩
      have := hleft.length
      omega
    | false =>
      obtain ⟨t, ht, hobs⟩ := exec_cut hf hw hfit
      simp only [Dec.observe, Decoded.mk.injEq] at hobs
      obtain ⟨hmode, hip, hout, hend', herr', hinfo'⟩ := hobs
      refine ⟨t, ht, .ended hmode (hip.trans (exec_onlyDec ht).inLen.symm) (by simp [hend']) (herr'.trans herr)
        (hinfo'.trans hinfo), by rwa [hout, List.length_append], fun hr => ?_⟩
      exact absurd hr (Dec.not_inRecord_of_idle (by rw [Dec.busy, hmode]))
  · obtain ⟨t, ht, hobs⟩ := exec_over hc hover
    simp only [Dec.observe, Decoded.mk.injEq] at hobs
    obtain ⟨hmode, hip, hout, hend', herr', hinfo'⟩ := hobs
    have hfits := h.outFits
    rw [hc, within_some] at hfits
    refine ⟨t, ht, .failed hmode (hend'.trans hend) herr' (hinfo'.trans hip.symm), ?_, fun hr => ?_⟩
    · rw [hc, within_some, hout, List.length_append, List.length_take]
      omega
    · exact absurd hr (Dec.not_inRecord_of_idle (by rw [Dec.busy, hmode]))

/-- R101, R102: the step at a record boundary. -/
theorem recordCmd_movedTo (hm : s.dec.dmode = .cmd) :
    ∃ t, recordCmd s = .next t ∧ t.dec.MovedTo s.cfg.outCapPix := by
  have hb := Dec.busy_of_cmd hm
  obtain ⟨bs, ha⟩ := h.exists_ahead hb
  cases hd : decode bs with
  | error e =>
    obtain rfl := decode_eq_error hd
    exact ⟨_, recordCmd_end ha.at_end, h.movedTo_ended hb ha.at_end (by decide)⟩
  | ok i =>
    obtain ⟨hf, rest, rfl, -⟩ := decode_eq_ok hd
    rw [recordCmd_of_ahead ha hd]
    exact exec_movedTo h hm hf ha

/-- A move of a BUSY decoder, at either level. -/
theorem decMove_movedTo (hb : s.dec.busy = true) :
    ∃ t, decMove s = .next t ∧ t.dec.MovedTo s.cfg.outCapPix := by
  cases hl : s.cfg.level with
  | byte =>
    rw [decMove_byte hl]
    exact decByteMove_movedTo h hb
  | record =>
    rw [decMove_record hl, decRecordMove]
    cases hm : s.dec.dmode
    case cmd => exact recordCmd_movedTo h hm
    all_goals exact decByteMove_movedTo h hb

/-- From the invariant DEC's move answers a next state, in which the invariant of DEC holds. -/
theorem decMove_inv : ∃ t, decMove s = .next t ∧ DecInv t.cfg t.dec := by
  cases hb : s.dec.busy with
  | false => exact ⟨s, decMove_idle s hb, h⟩
  | true =>
    obtain ⟨t, ht, hmoved⟩ := decMove_movedTo h hb
    have honly := decMove_onlyDec ht
    have hcfg : t.cfg = s.cfg := by rw [honly.others]
    exact ⟨t, ht, hcfg ▸ h.of_movedTo hb honly.IN honly.inLen hmoved⟩

end

/-- Settles O25: a move into DONE ends at `L`. -/
theorem endingsConsumeTheInput : Obligations.EndingsConsumeTheInput := by
  unfold Obligations.EndingsConsumeTheInput
  intro s t hinv hb ht hdone
  obtain ⟨t', ht', hmoved⟩ := decMove_movedTo hinv.dec hb
  cases ht.symm.trans ht'
  cases hmoved.status with
  | running hb' => simp [Dec.busy, hdone] at hb'
  | ended _ hip hend herr hinfo =>
    refine ⟨hip, herr, hinfo, ?_⟩
    cases hk : t.dec.endKind with
    | none => exact absurd hk hend
    | clean => exact .inl rfl
    | truncated => exact .inr rfl
  | failed hm => cases hdone.symm.trans hm

end Sys2Proof.Machine
end

section
/-! PROOFS of the other statements, tenth part: ENC's moves and the invariant (R30, R143, R144, R153), the host's inputs
and the invariant, and what follows for the whole block (R152, R206). -/

namespace Sys2Proof.Machine

/-! ## ENC's moves -/

/-- R34, R35: ENC goes on inside its input with no error, has ended, or has taken CAPACITY. -/
inductive Enc.StatusOk (e : Enc) : Prop where
  | running (hb : e.busy = true) (hpos : e.pos ≤ e.inLen) (herr : e.err = 0) (hinfo : e.errInfo = 0)
  | ended (hm : e.emode = .done) (herr : e.err = 0) (hinfo : e.errInfo = 0)
  | failed (hm : e.emode = .error) (herr : e.err = 2) (hinfo : e.errInfo = e.pos)

/-- What a move of a BUSY encoder leaves of it. -/
structure Enc.MovedTo (cap : Option Nat) (e : Enc) : Prop where
  status : e.StatusOk
  fits : within cap e.BOUT.length = true
  run : e.emode = .run → 1 ≤ e.runRem ∧ e.pos + e.runRem ≤ e.inLen
  lit : e.emode = .lit → 1 ≤ e.litLen.toNat ∧ e.litLen.toNat ≤ maxCount ∧ e.pos = e.litStart + e.litLen.toNat

theorem Enc.busy_of_scan {e : Enc} (h : e.emode = .scan) : e.busy = true := by rw [Enc.busy, h]

theorem Enc.busy_of_run {e : Enc} (h : e.emode = .run) : e.busy = true := by rw [Enc.busy, h]

theorem Enc.busy_of_lit {e : Enc} (h : e.emode = .lit) : e.busy = true := by rw [Enc.busy, h]

/-- R34: a BUSY encoder is not in ERROR. -/
theorem Enc.ne_error_of_busy {e : Enc} (hb : e.busy = true) : e.emode ≠ .error := by
  rintro hm
  simp [Enc.busy, hm] at hb

/-- In SCAN nothing is asked of the working registers. -/
theorem Enc.movedTo_scan {cap : Option Nat} {e : Enc} (hm : e.emode = .scan) (hpos : e.pos ≤ e.inLen)
    (herr : e.err = 0) (hinfo : e.errInfo = 0) (hfits : within cap e.BOUT.length = true) : e.MovedTo cap :=
  ⟨.running (Enc.busy_of_scan hm) hpos herr hinfo, hfits, by simp [hm], by simp [hm]⟩

namespace EncInv

variable {cfg : Config} {e : Enc} (h : EncInv cfg e)
include h

/-- R34: a running conversion has recorded nothing. -/
theorem clean_of_busy (hb : e.busy = true) : e.err = 0 ∧ e.errInfo = 0 := by
  have hne := Enc.ne_error_of_busy hb
  exact ⟨by rw [h.errCode, if_neg hne], by rw [h.errInfoCode, if_neg hne]⟩

/-- R61, R204: a running conversion has its input. -/
theorem exists_holdsFrom (hb : e.busy = true) : ∃ pin, e.HoldsFrom 0 pin := by
  obtain ⟨pin, hpin⟩ := Buffer.range_of_full (h.inputPresent hb) 0 _ (Nat.zero_add _).le
  exact ⟨pin, Enc.holdsFrom_of_range hpin 0⟩

/-- A move that leaves the input alone keeps the invariant. -/
theorem of_movedTo {e' : Enc} (hb : e.busy = true) (hPIN : e'.PIN = e.PIN) (hlen : e'.inLen = e.inLen)
    (hmoved : e'.MovedTo cfg.outCapBytes) : EncInv cfg e' := by
  have hcanonical : Buffer.wf e'.PIN = true := hPIN ▸ h.canonical
  have hfull : Buffer.full e'.PIN e'.inLen = true := by rw [hPIN, hlen]; exact h.inputPresent hb
  obtain ⟨hstatus, hfits, hrun, hlit⟩ := hmoved
  cases hstatus with
  | running hb' hpos herr hinfo =>
    have hne := Enc.ne_error_of_busy hb'
    exact ⟨hcanonical, fun _ => hfull, fun _ => hpos, hfits, hrun, hlit, by rw [herr, if_neg hne],
      by rw [hinfo, if_neg hne]⟩
  | ended hm herr hinfo =>
    exact ⟨hcanonical, fun _ => hfull, fun hb' => by simp [Enc.busy, hm] at hb', hfits, hrun, hlit,
      by simp [herr, hm], by simp [hinfo, hm]⟩
  | failed hm herr hinfo =>
    exact ⟨hcanonical, fun _ => hfull, fun hb' => by simp [Enc.busy, hm] at hb', hfits, hrun, hlit,
      by simp [herr, hm], by simp [hinfo, hm]⟩

/-- R183: CAPACITY. -/
theorem movedTo_capacity : (e.take (.capacity e.pos)).MovedTo cfg.outCapBytes :=
  ⟨.failed rfl rfl rfl, h.outFits, by simp, by simp⟩

end EncInv

section

variable {s : State} (h : EncInv s.cfg s.enc)
include h

/-- R142: the SCAN step. -/
theorem encScan_movedTo (hm : s.enc.emode = .scan) :
    ∃ t, encScan s = .next t ∧ t.enc.MovedTo s.cfg.outCapBytes := by
  have hb := Enc.busy_of_scan hm
  obtain ⟨herr, hinfo⟩ := h.clean_of_busy hb
  obtain ⟨pin, hholds⟩ := h.exists_holdsFrom hb
  obtain hend | hlt := (h.posInRange hb).eq_or_lt
  · exact ⟨_, encScan_end hend, .ended rfl herr hinfo, h.outFits, by simp, by simp⟩
  · have hlen := hholds.length
    have hpix : pin[s.enc.pos]? = some (pin[s.enc.pos]'(by omega)) := List.getElem?_eq_getElem _
    rw [encScan_pixel (hholds.mono (Nat.zero_le _)) hpix]
    split
    next hrun =>
      have hle := runLen_le pin s.enc.pos
      exact ⟨_, rfl, .running rfl hlt.le herr hinfo, h.outFits, fun _ => by dsimp only; omega, by simp⟩
    next =>
      have hone : 1 ≤ (1 : BitVec 8).toNat ∧ (1 : BitVec 8).toNat ≤ maxCount := by decide
      exact ⟨_, rfl, .running rfl hlt herr hinfo, h.outFits, by simp, fun _ => ⟨hone.1, hone.2, rfl⟩⟩

/-- R143: the RUN step. -/
theorem encRun_movedTo (hm : s.enc.emode = .run) :
    ∃ t, encRun s = .next t ∧ t.enc.MovedTo s.cfg.outCapBytes := by
  have hb := Enc.busy_of_run hm
  obtain ⟨herr, hinfo⟩ := h.clean_of_busy hb
  obtain ⟨hpos, hle⟩ := h.runLeft hm
  cases hw : within s.cfg.outCapBytes (s.enc.BOUT.length + 5) with
  | false => exact ⟨_, encRun_over hpos hw, h.movedTo_capacity⟩
  | true =>
    have hfits : within s.cfg.outCapBytes
        (s.enc.BOUT ++ encode (.wholeRun (min s.enc.runRem 128) s.enc.runPix)).length = true := by
      rwa [List.length_append, encode_wholeRun, recordBytes_length]
    refine ⟨_, encRun_fits hpos hw, ?_⟩
    by_cases hlast : s.enc.runRem - min s.enc.runRem 128 = 0
    · refine Enc.movedTo_scan (if_pos hlast) ?_ herr hinfo hfits
      dsimp only
      omega
    · refine ⟨.running (Enc.busy_of_run (if_neg hlast)) ?_ herr hinfo, hfits, fun _ => ?_, by simp [hlast]⟩
      all_goals
        dsimp only
        omega

/-- R144: the LIT step. -/
theorem encLit_movedTo (hm : s.enc.emode = .lit) :
    ∃ t, encLit s = .next t ∧ t.enc.MovedTo s.cfg.outCapBytes := by
  have hb := Enc.busy_of_lit hm
  obtain ⟨herr, hinfo⟩ := h.clean_of_busy hb
  obtain ⟨pin, hholds⟩ := h.exists_holdsFrom hb
  obtain ⟨hpos, hmax, hblock⟩ := h.litOpen hm
  have hin := h.posInRange hb
  have hlen := hholds.length
  by_cases habs : s.enc.Absorbs pin
  · obtain ⟨hroom, hlt, -⟩ := id habs
    simp only [maxCount] at hroom hmax
    have hnext : (s.enc.litLen + 1).toNat = s.enc.litLen.toNat + 1 := by bv_omega
    refine ⟨_, encLit_extends hholds (Nat.zero_le _) habs,
      .running (Enc.busy_of_lit hm) (hlen ▸ hlt) herr hinfo, h.outFits, by simp [hm], fun _ => ?_⟩
    simp only [maxCount]
    omega
  · have hle : s.enc.litStart + s.enc.litLen.toNat ≤ pin.length := by omega
    have hclose := encLit_closes hholds (Nat.zero_le _) habs
    cases hw : within s.cfg.outCapBytes (s.enc.BOUT.length + (1 + 4 * s.enc.litLen.toNat)) with
    | false => exact ⟨_, hclose.trans (encLitClose_over hholds (Nat.zero_le _) ⟨hpos, hmax⟩ hle hw), h.movedTo_capacity⟩
    | true =>
      refine ⟨_, hclose.trans (encLitClose_fits hholds (Nat.zero_le _) ⟨hpos, hmax⟩ hle hw),
        Enc.movedTo_scan rfl hin herr hinfo ?_⟩
      rwa [List.length_append, encode_wholeLit, recordBytes_length, slice_length hle]

/-- From the invariant ENC's move answers a next state, in which the invariant of ENC holds. -/
theorem encMove_inv : ∃ t, encMove s = .next t ∧ EncInv t.cfg t.enc := by
  cases hb : s.enc.busy with
  | false => exact ⟨s, encMove_idle s hb, h⟩
  | true =>
    have hstep : ∃ t, encMove s = .next t ∧ t.enc.MovedTo s.cfg.outCapBytes := by
      cases hm : s.enc.emode
      case scan => rw [encMove_scan hm]; exact encScan_movedTo h hm
      case run => rw [encMove_run hm]; exact encRun_movedTo h hm
      case lit => rw [encMove_lit hm]; exact encLit_movedTo h hm
      all_goals simp [Enc.busy, hm] at hb
    obtain ⟨t, ht, hmoved⟩ := hstep
    have honly := encMove_onlyEnc ht
    have hcfg : t.cfg = s.cfg := by rw [honly.others]
    exact ⟨t, ht, hcfg ▸ h.of_movedTo hb honly.PIN honly.inLen hmoved⟩

end

/-! ## The host's inputs -/

theorem decInv_afterReset (cfg : Config) {buf : Memory} (h : Memory.wf buf = true) :
    DecInv cfg (Dec.afterReset buf) :=
  ⟨h, nofun, nofun, within_zero _, by simp, by simp, rfl, rfl, by simp⟩

theorem encInv_afterReset (cfg : Config) {buf : Buffer Pixel} (h : Buffer.wf buf = true) :
    EncInv cfg (Enc.afterReset buf) :=
  ⟨h, nofun, nofun, within_zero _, nofun, nofun, rfl, rfl⟩

/-- Settles O42: the empty buffers are canonical. -/
theorem resetMeetsTheInvariant : Obligations.ResetMeetsTheInvariant := by
  unfold Obligations.ResetMeetsTheInvariant
  exact fun cfg => ⟨decInv_afterReset cfg rfl, encInv_afterReset cfg rfl⟩

namespace DecInv

variable {cfg : Config} {d : Dec} (h : DecInv cfg d)
include h

theorem afterStart (hfull : Buffer.full d.IN d.inLen = true) (c : Nat) : DecInv cfg (d.afterStart c) :=
  ⟨h.canonical, fun _ => hfull, fun _ => Nat.zero_le _, within_zero _, by simp, by simp, rfl, rfl, by simp⟩

theorem setStart (v : Bool) : DecInv cfg { d with start := v } :=
  ⟨h.canonical, h.inputPresent, h.ipInRange, h.outFits, h.countLatched, h.remInRange, h.errCode, h.errInfoCode,
    h.endRecorded⟩

/-- Outside a conversion the host may write the input. -/
theorem setInput (hidle : d.busy = false) {buf : Memory} (hbuf : Memory.wf buf = true) (n : Nat) :
    DecInv cfg { d with IN := buf, inLen := n } :=
  have hb {P : Prop} (hb : d.busy = true) : P := absurd hb (by simp [hidle])
  ⟨hbuf, hb, hb, h.outFits, h.countLatched, h.remInRange, h.errCode, h.errInfoCode, h.endRecorded⟩

end DecInv

namespace EncInv

variable {cfg : Config} {e : Enc} (h : EncInv cfg e)
include h

theorem afterStart (hfull : Buffer.full e.PIN e.inLen = true) (c : Nat) : EncInv cfg (e.afterStart c) :=
  ⟨h.canonical, fun _ => hfull, fun _ => Nat.zero_le _, within_zero _, nofun, nofun, rfl, rfl⟩

theorem setStart (v : Bool) : EncInv cfg { e with start := v } :=
  ⟨h.canonical, h.inputPresent, h.posInRange, h.outFits, h.runLeft, h.litOpen, h.errCode, h.errInfoCode⟩

/-- Outside a conversion the host may write the input. -/
theorem setInput (hidle : e.busy = false) {buf : Buffer Pixel} (hbuf : Buffer.wf buf = true) (n : Nat) :
    EncInv cfg { e with PIN := buf, inLen := n } :=
  have hb {P : Prop} (hb : e.busy = true) : P := absurd hb (by simp [hidle])
  ⟨hbuf, hb, hb, h.outFits, fun hm => hb (Enc.busy_of_run hm), h.litOpen, h.errCode, h.errInfoCode⟩

end EncInv

/-- R204: a launch has its whole input. -/
theorem full_of_launchOk_dec {s : State} (h : s.launchOk .dec = true) : Buffer.full s.dec.IN s.dec.inLen = true := by
  simp only [State.launchOk, Bool.and_eq_true] at h
  exact h.2

theorem full_of_launchOk_enc {s : State} (h : s.launchOk .enc = true) : Buffer.full s.enc.PIN s.enc.inLen = true := by
  simp only [State.launchOk, Bool.and_eq_true] at h
  exact h.2

namespace Inv

variable {s t : State} (h : Inv s)
include h

theorem setStart (ag : Agent) (v : Bool) : Inv (s.setStart ag v) := by
  cases ag with
  | dec => exact ⟨h.dec.setStart v, h.enc⟩
  | enc => exact ⟨h.dec, h.enc.setStart v⟩

theorem resetAgent (ag : Agent) : Inv (s.resetAgent ag) := by
  cases ag with
  | dec => exact ⟨decInv_afterReset s.cfg h.dec.canonical, h.enc⟩
  | enc => exact ⟨h.dec, encInv_afterReset s.cfg h.enc.canonical⟩

theorem launch {ag : Agent} (hok : s.launchOk ag = true) : Inv (s.launch ag) := by
  cases ag with
  | dec => exact ⟨h.dec.afterStart (full_of_launchOk_dec hok) _, h.enc⟩
  | enc => exact ⟨h.dec, h.enc.afterStart (full_of_launchOk_enc hok) _⟩

theorem setInLen {ag : Agent} (hidle : s.busy ag = false) (v : Nat) : Inv (s.setInLen ag v) := by
  cases ag with
  | dec => exact ⟨h.dec.setInput hidle h.dec.canonical v, h.enc⟩
  | enc => exact ⟨h.dec, h.enc.setInput hidle h.enc.canonical v⟩

theorem withAgenda (ag : List Move) : Inv { s with agenda := ag } := ⟨h.dec, h.enc⟩

theorem seeStart {ag : Agent} (ht : seeStart ag s = .next t) : Inv t := by
  obtain ⟨-, hs⟩ | ⟨-, hok, hs⟩ | ⟨-, -, hs⟩ := seeStart_cases ag s <;> cases hs.symm.trans ht
  · exact h.setStart ag false
  · exact h.launch hok

theorem hostMove {c : HostCmd} (ht : hostMove c s = .next t) : Inv t := by
  cases c with
  | reset ag =>
    cases ht
    exact h.resetAgent ag
  | start ag =>
    cases ht
    exact h.setStart ag true
  | writeInLen ag v =>
    cases ht
    split
    · exact h
    next hb => exact h.setInLen (Bool.eq_false_iff.2 hb) v
  | writeIn i b =>
    rw [Machine.hostMove] at ht
    split_ifs at ht with hb
    cases ht
    exact ⟨h.dec.setInput (Bool.eq_false_iff.2 hb) (Memory.set_wf h.dec.canonical i b) s.dec.inLen, h.enc⟩
  | writePin i p =>
    rw [Machine.hostMove] at ht
    split_ifs at ht with hb
    cases ht
    exact ⟨h.dec, h.enc.setInput (Bool.eq_false_iff.2 hb) (Buffer.set_wf h.enc.canonical i p) s.enc.inLen⟩

/-! ## The whole block -/

/-- DEC's move answers, and keeps the invariant of both agents. -/
theorem exists_decMove : ∃ t, decMove s = .next t ∧ Inv t := by
  obtain ⟨t, ht, hdec⟩ := decMove_inv h.dec
  refine ⟨t, ht, hdec, ?_⟩
  rw [(decMove_onlyDec ht).others]
  exact h.enc

/-- ENC's move answers, and keeps the invariant of both agents. -/
theorem exists_encMove : ∃ t, encMove s = .next t ∧ Inv t := by
  obtain ⟨t, ht, henc⟩ := encMove_inv h.enc
  refine ⟨t, ht, ?_, henc⟩
  rw [(encMove_onlyEnc ht).others]
  exact h.dec

theorem exists_idleMove : ∃ t, idleMove s = .next t ∧ Inv t := by
  rw [idleMove]
  split_ifs
  · exact h.exists_decMove
  · exact h.exists_encMove
  · exact ⟨s, rfl, h⟩

theorem doMove {m : Move} (ht : doMove m s = .next t) : Inv t := by
  cases m with
  | host c => exact h.hostMove ht
  | dec =>
    obtain ⟨u, hu, hinv⟩ := h.exists_decMove
    cases hu.symm.trans ht
    exact hinv
  | enc =>
    obtain ⟨u, hu, hinv⟩ := h.exists_encMove
    cases hu.symm.trans ht
    exact hinv

end Inv

/-- Settles O43, by who moves in the step. -/
theorem stepKeepsTheInvariant : Obligations.StepKeepsTheInvariant := by
  unfold Obligations.StepKeepsTheInvariant
  intro s t h ht
  obtain ⟨-, hs⟩ | ⟨-, -, hs⟩ | ⟨-, -, -, hs⟩ | ⟨m, rest, -, -, -, hs⟩ := step_cases s <;> rw [hs] at ht
  · exact h.seeStart ht
  · exact h.seeStart ht
  · obtain ⟨u, hu, hinv⟩ := h.exists_idleMove
    cases hu.symm.trans ht
    exact hinv
  · exact (h.withAgenda rest).doMove ht

theorem seeStart_ne_fault (ag : Agent) (s : State) (f : Fault) : seeStart ag s ≠ .fault f := by
  obtain ⟨-, hs⟩ | ⟨-, -, hs⟩ | ⟨-, -, hs⟩ := seeStart_cases ag s <;> simp [hs]

theorem seeStart_refused {ag : Agent} {s : State} {r : Refusal} (h : seeStart ag s = .refused r) :
    r = .launchOutsideModel ag := by
  obtain ⟨-, hs⟩ | ⟨-, -, hs⟩ | ⟨-, -, hs⟩ := seeStart_cases ag s <;> cases hs.symm.trans h
  rfl

/-- R9: of the host's inputs only a write at an index that W_ADDR cannot name faults. -/
theorem hostMove_fault {c : HostCmd} {s : State} {f : Fault} (h : hostMove c s = .fault f) :
    ∃ ag i, f = .noSuchIndex ag i := by
  cases c with
  | reset ag => cases h
  | start ag => cases h
  | writeInLen ag v => cases h
  | writeIn i b =>
    rw [hostMove] at h
    split_ifs at h
    cases h
    exact ⟨_, _, rfl⟩
  | writePin i p =>
    rw [hostMove] at h
    split_ifs at h
    cases h
    exact ⟨_, _, rfl⟩

/-- R205: of the host's inputs only a buffer write while BUSY is refused. -/
theorem hostMove_refused {c : HostCmd} {s : State} {r : Refusal} (h : hostMove c s = .refused r) :
    ∃ ag, r = .inputWrittenWhileBusy ag := by
  cases c with
  | reset ag => cases h
  | start ag => cases h
  | writeInLen ag v => cases h
  | writeIn i b =>
    rw [hostMove] at h
    split_ifs at h
    cases h
    exact ⟨_, rfl⟩
  | writePin i p =>
    rw [hostMove] at h
    split_ifs at h
    cases h
    exact ⟨_, rfl⟩

namespace Inv

variable {s : State} (h : Inv s)
include h

/-- A move that does not answer a next state is an input of the host. -/
theorem doMove_next_or_host (m : Move) : (∃ t, Machine.doMove m s = .next t) ∨ ∃ c, m = .host c := by
  cases m with
  | host c => exact .inr ⟨c, rfl⟩
  | dec =>
    obtain ⟨t, ht, -⟩ := h.exists_decMove
    exact .inl ⟨t, ht⟩
  | enc =>
    obtain ⟨t, ht, -⟩ := h.exists_encMove
    exact .inl ⟨t, ht⟩

/-- From the invariant a step answers a next state, sees a START, or takes an input of the host. -/
theorem step_next_or_host : (∃ t, step s = .next t) ∨ (∃ ag, step s = Machine.seeStart ag s) ∨
    ∃ c rest, s.agenda = .host c :: rest ∧ step s = Machine.hostMove c { s with agenda := rest } := by
  obtain ⟨-, hs⟩ | ⟨-, -, hs⟩ | ⟨-, -, -, hs⟩ | ⟨m, rest, -, -, hag, hs⟩ := step_cases s
  · exact .inr (.inl ⟨_, hs⟩)
  · exact .inr (.inl ⟨_, hs⟩)
  · obtain ⟨t, ht, -⟩ := h.exists_idleMove
    exact .inl ⟨t, hs.trans ht⟩
  · obtain ⟨t, ht⟩ | ⟨c, rfl⟩ := (h.withAgenda rest).doMove_next_or_host m
    · exact .inl ⟨t, hs.trans ht⟩
    · exact .inr (.inr ⟨c, rest, hag, hs⟩)

end Inv

/-- Settles O44: only a START and the host's inputs stop the block. -/
theorem onlyTheHostStopsTheMachine : Obligations.OnlyTheHostStopsTheMachine := by
  unfold Obligations.OnlyTheHostStopsTheMachine
  intro s h
  obtain ⟨t, hdec, -⟩ := h.exists_decMove
  obtain ⟨u, henc, -⟩ := h.exists_encMove
  refine ⟨⟨t, hdec⟩, ⟨u, henc⟩, fun f hf => ?_, fun r hr => ?_⟩
  · obtain ⟨v, hs⟩ | ⟨ag, hs⟩ | ⟨c, rest, hag, hs⟩ := h.step_next_or_host
    · cases hs.symm.trans hf
    · exact absurd (hs.symm.trans hf) (seeStart_ne_fault ag s f)
    · obtain ⟨ag, i, rfl⟩ := hostMove_fault (hs.symm.trans hf)
      exact ⟨ag, i, rfl, c, rest, hag⟩
  · obtain ⟨v, hs⟩ | ⟨ag, hs⟩ | ⟨c, rest, -, hs⟩ := h.step_next_or_host
    · cases hs.symm.trans hr
    · exact ⟨ag, .inr (seeStart_refused (hs.symm.trans hr))⟩
    · obtain ⟨ag, hag⟩ := hostMove_refused (hs.symm.trans hr)
      exact ⟨ag, .inl hag⟩

/-! ## R206: the ports -/

theorem DecInv.port_output {cfg : Config} {d : Dec} (h : DecInv cfg d) :
    d.port.output = if d.status = .succeeded then some (d.OUT, d.OUT.length) else none := by
  have herr := h.errCode
  cases hm : d.dmode <;> simp [Dec.port, Dec.doneBit, Dec.status, Dec.outCount, hm, herr]

theorem EncInv.port_output {cfg : Config} {e : Enc} (h : EncInv cfg e) :
    e.port.output = if e.status = .succeeded then some (e.BOUT, e.BOUT.length) else none := by
  have herr := h.errCode
  cases hm : e.emode <;> simp [Enc.port, Enc.doneBit, Enc.status, Enc.outLen, hm, herr]

/-- Settles O54: by the invariant `ERR` is 0 in DONE and not in ERROR. -/
theorem outputIsVisibleAtSuccessOnly : Obligations.OutputIsVisibleAtSuccessOnly := by
  unfold Obligations.OutputIsVisibleAtSuccessOnly
  exact fun s h => ⟨h.dec.port_output, h.enc.port_output⟩

end Sys2Proof.Machine
end
